-- ==== Sys2Proof/Word.lean ====
section
/-! DEFINITION. The byte, the pixel and the pixel count of a cache: the plain data the codec moves (R9, R24). -/

namespace Sys2Proof

/-- A byte: an unsigned integer in 0..255 (R9). -/
abbrev Byte := BitVec 8

/-- A pixel: a record `(r, g, b, a)` of four bytes (R9). Equality is component-wise. -/
structure Pixel where
  r : Byte
  g : Byte
  b : Byte
  a : Byte
  deriving DecidableEq, Repr

/-- The colour cache of one engine: 64 slots, one pixel each (R24). -/
abbrev Cache := Vector Pixel 64

end Sys2Proof
end

