-- ==== Sys2Proof/Syntax.lean ====
section
/-! DEFINITION. The instruction set: the seven chunk kinds of spec/opcode_table.json (R2), with the operands of the
assembly syntax (R96): run lengths as counts, deltas as signed numbers, biases already taken off (R89). -/

namespace Sys2Proof

/-- One chunk of the stream. One constructor per row of the opcode table. -/
inductive Instr where
  /-- INDEX: the pixel in cache slot `slot` (R82). -/
  | index (slot : Fin 64)
  /-- RUN_S: `count` repeats of the current pixel, 1..32 (R83). -/
  | runS (count : Nat)
  /-- RUN_L: `count` repeats of the current pixel, 33..8224 (R84). -/
  | runL (count : Nat)
  /-- DIFF1: deltas in -2..1, alpha unchanged (R85). -/
  | diff1 (dr dg db : Int)
  /-- DIFF2: `dr` in -16..15, `dg` and `db` in -8..7, alpha unchanged (R86). -/
  | diff2 (dr dg db : Int)
  /-- DIFF3: four deltas in -16..15 (R87). -/
  | diff3 (dr dg db da : Int)
  /-- LIT: the new value of each channel present, `none` for a clear presence bit (R88). -/
  | lit (r g b a : Option Byte)
  deriving DecidableEq, Repr

end Sys2Proof
end

