-- ==== Sys2Proof/WellFormed.lean ====
section
/-! DEFINITION. Which instructions the assembly syntax can spell: "An operand outside its range spells nothing; an
assembler must refuse it" (R96). Every chunk a stream can hold decodes to a well-formed instruction. -/

namespace Sys2Proof

/-- `d` lies in `lo..hi`. -/
def inRange (lo hi d : Int) : Bool := decide (lo ≤ d) && decide (d ≤ hi)

/-- The operand ranges of R96. -/
def Instr.wf : Instr → Bool
  | .index _ => true
  | .runS c => decide (1 ≤ c) && decide (c ≤ 32)
  | .runL c => decide (33 ≤ c) && decide (c ≤ 8224)
  | .diff1 dr dg db => inRange (-2) 1 dr && inRange (-2) 1 dg && inRange (-2) 1 db
  | .diff2 dr dg db => inRange (-16) 15 dr && inRange (-8) 7 dg && inRange (-8) 7 db
  | .diff3 dr dg db da => inRange (-16) 15 dr && inRange (-16) 15 dg && inRange (-16) 15 db && inRange (-16) 15 da
  | .lit _ _ _ _ => true

end Sys2Proof
end

