-- ==== Sys2Proof/Decode.lean ====
section
/-! DEFINITION. From stream bytes to a chunk and back: `Kind` (R90), `Len` (R94), the field layouts (R82 to R88), the
operand assembly (R89) and the encodings (R99). Bit positions of the diff fields stand here and nowhere else. -/

namespace Sys2Proof

/-- The kind of a chunk (R81). -/
inductive Kind where
  | index | runS | runL | diff1 | diff2 | diff3 | lit
  deriving DecidableEq, Repr

/-- Why a list of bytes holds no whole chunk. -/
inductive DecodeError where
  /-- There is no tag byte. -/
  | noTag
  /-- Fewer operand bytes follow than the tag byte asks for (R94). -/
  | missingOperand
  deriving DecidableEq, Repr

/-- `Kind(b0)`, the match on the tag byte (R90). It is total: R91. -/
def kindOf (b0 : Byte) : Kind :=
  if b0 &&& 0xC0 = 0x00 then .index
  else if b0 &&& 0xE0 = 0x40 then .runS
  else if b0 &&& 0xE0 = 0x60 then .runL
  else if b0 &&& 0xC0 = 0x80 then .diff1
  else if b0 &&& 0xE0 = 0xC0 then .diff2
  else if b0 &&& 0xF0 = 0xE0 then .diff3
  else .lit

/-- Presence bit `j` of a literal's tag byte: 3 = r, 2 = g, 1 = b, 0 = a (R88). -/
def present (b0 : Byte) (j : Nat) : Bool := b0.getLsbD j

/-- How many presence bits of a literal's tag byte are set. -/
def presentCount (b0 : Byte) : Nat :=
  (present b0 3).toNat + (present b0 2).toNat + (present b0 1).toNat + (present b0 0).toNat

/-- How many bytes follow the tag byte: `Len(b0) - 1` (R94). -/
def operandCount (b0 : Byte) : Nat :=
  match kindOf b0 with
  | .index => 0
  | .runS => 0
  | .diff1 => 0
  | .runL => 1
  | .diff2 => 1
  | .diff3 => 2
  | .lit => presentCount b0

/-- `Len(b0)`, the length of a chunk in bytes (R94). -/
def chunkLen (b0 : Byte) : Nat := 1 + operandCount b0

/-- An unsigned field less its bias: a signed delta (R89). -/
def unbias {w : Nat} (bias : Int) (field : BitVec w) : Int := (field.toNat : Int) - bias

/-- A signed delta plus its bias, as a field of `w` bits (R99). -/
def rebias (w : Nat) (bias : Int) (d : Int) : BitVec w := BitVec.ofInt w (d + bias)

/-- One channel of a literal: the next operand byte if the presence bit is set (R88), and the bytes after it. A byte
that is not there reads 0x00 (R154). -/
def takeOperand (here : Bool) (ops : List Byte) : Option Byte × List Byte :=
  if here then (some (ops.headD 0), ops.tail) else (none, ops)

/-- The literal with tag byte `b0` and operand bytes `ops`, in r, g, b, a order (R88). -/
def decodeLit (b0 : Byte) (ops : List Byte) : Instr :=
  let (r, ops1) := takeOperand (present b0 3) ops
  let (g, ops2) := takeOperand (present b0 2) ops1
  let (b, ops3) := takeOperand (present b0 1) ops2
  let (a, _) := takeOperand (present b0 0) ops3
  .lit r g b a

/-- The chunk with tag byte `b0` and operand bytes `ops`: fields (R82 to R88) and operand assembly (R89). It is total:
no tag byte is without a meaning (R92), and an operand byte that is not there reads 0x00 (R154). -/
def decodeChunk (b0 : Byte) (ops : List Byte) : Instr :=
  let b1 := ops.getD 0 0
  let b2 := ops.getD 1 0
  match kindOf b0 with
  | .index => .index (b0.extractLsb' 0 6).toFin
  | .runS => .runS ((b0.extractLsb' 0 5).toNat + 1)
  | .runL => .runL ((b0.extractLsb' 0 5 ++ b1).toNat + 33)
  | .diff1 => .diff1 (unbias 2 (b0.extractLsb' 4 2)) (unbias 2 (b0.extractLsb' 2 2)) (unbias 2 (b0.extractLsb' 0 2))
  | .diff2 => .diff2 (unbias 16 (b0.extractLsb' 0 5)) (unbias 8 (b1.extractLsb' 4 4)) (unbias 8 (b1.extractLsb' 0 4))
  | .diff3 =>
    let w : BitVec 24 := b0 ++ b1 ++ b2
    .diff3 (unbias 16 (w.extractLsb' 15 5)) (unbias 16 (w.extractLsb' 10 5)) (unbias 16 (w.extractLsb' 5 5))
      (unbias 16 (w.extractLsb' 0 5))
  | .lit => decodeLit b0 ops

/-- The first chunk of a list of bytes and the bytes after it. -/
def decode : List Byte → Except DecodeError (Instr × List Byte)
  | [] => .error .noTag
  | b0 :: rest =>
    if rest.length < operandCount b0 then .error .missingOperand
    else .ok (decodeChunk b0 (rest.take (operandCount b0)), rest.drop (operandCount b0))

/-- The bytes of a literal channel: none where the presence bit is clear (R88). -/
def litByte : Option Byte → List Byte
  | none => []
  | some b => [b]

/-- The bytes of a chunk (R99). -/
def encode : Instr → List Byte
  | .index slot => [0b00#2 ++ BitVec.ofNat 6 slot.val]
  | .runS c => [0b010#3 ++ BitVec.ofNat 5 (c - 1)]
  | .runL c =>
    let v := BitVec.ofNat 13 (c - 33)
    [0b011#3 ++ v.extractLsb' 8 5, v.extractLsb' 0 8]
  | .diff1 dr dg db => [0b10#2 ++ rebias 2 2 dr ++ rebias 2 2 dg ++ rebias 2 2 db]
  | .diff2 dr dg db => [0b110#3 ++ rebias 5 16 dr, rebias 4 8 dg ++ rebias 4 8 db]
  | .diff3 dr dg db da =>
    let w : BitVec 20 := rebias 5 16 dr ++ rebias 5 16 dg ++ rebias 5 16 db ++ rebias 5 16 da
    [0b1110#4 ++ w.extractLsb' 16 4, w.extractLsb' 8 8, w.extractLsb' 0 8]
  | .lit r g b a =>
    (0b1111#4 ++ BitVec.ofBool r.isSome ++ BitVec.ofBool g.isSome ++ BitVec.ofBool b.isSome ++ BitVec.ofBool a.isSome)
      :: (litByte r ++ litByte g ++ litByte b ++ litByte a)

/-- `n` bytes of `w`, the lowest bits first: the layout in which spec/opcode_table.json numbers a chunk's bits. -/
def tableBytes : Nat → Nat → List Byte
  | 0, _ => []
  | n + 1, w => BitVec.ofNat 8 w :: tableBytes n (w / 256)

/-- A table row's bits as stream bytes: bits above `nbits` are 0, up to the longest chunk's five bytes. -/
def tableStream (nbits w : Nat) : List Byte := tableBytes 5 (w % 2 ^ nbits)

/-- The chunk the decoder reads from a table row's bits `w`. -/
def decodeTableWord (nbits w : Nat) : Option Instr :=
  match decode (tableStream nbits w) with
  | .ok (i, _) => some i
  | .error _ => none

end Sys2Proof
end

