-- ==== Sys2Proof/Config.lean ====
section
/-! DEFINITION. What a build fixes (MAGIC, R7 and R199) and the free values of what the spec calls unspecified
(R22, R29, R178, R206, U9). Every constant here is opaque: nothing in Lean can evaluate it, so a proof holds for every
value. A free value is applied to the engine's counter `draws`, which grows at every use. -/

namespace Sys2Proof

/-- `MAGIC`, the open parameter of R7 and D5: four bytes, first byte most significant. Log 4. -/
opaque Config.magic : BitVec 32

/-- E.width after an abort (U9). Log 2. -/
opaque Config.freeEncWidth : Nat → BitVec 32
/-- E.height after an abort (U9). Log 2. -/
opaque Config.freeEncHeight : Nat → BitVec 32
/-- E.N after an abort (U9). Log 2. -/
opaque Config.freeEncN : Nat → BitVec 64
/-- E.prev after an abort (R178). Log 2. -/
opaque Config.freeEncPrev : Nat → BitVec 32
/-- E.run after an abort (R178). Log 2. -/
opaque Config.freeEncRun : Nat → BitVec 14
/-- Slot `i` of E.cache after an abort (R178). Log 2. -/
opaque Config.freeEncSlot : Nat → Fin 64 → BitVec 32
/-- E.k after an abort (R178). Log 2. -/
opaque Config.freeEncK : Nat → BitVec 64
/-- E.outcount after an abort (R178). Log 2. -/
opaque Config.freeEncOutcount : Nat → BitVec 64
/-- E.ERR_POS from a pass start until an error (R29, R206). Log 3. -/
opaque Config.freeEncErrPos : Nat → BitVec 64

/-- D.px after an abort (R178). Log 2. -/
opaque Config.freeDecPx : Nat → BitVec 32
/-- D.run after an abort (R178). Log 2. -/
opaque Config.freeDecRun : Nat → BitVec 14
/-- Slot `i` of D.cache after an abort (R178). Log 2. -/
opaque Config.freeDecSlot : Nat → Fin 64 → BitVec 32
/-- D.k after an abort (R178). Log 2. -/
opaque Config.freeDecK : Nat → BitVec 64
/-- D.pos after an abort (R178). Log 2. -/
opaque Config.freeDecPos : Nat → BitVec 64
/-- D.ERR_POS from a pass start until an error (R29, R206). Log 3. -/
opaque Config.freeDecErrPos : Nat → BitVec 64
/-- D.width from a pass start until the header is accepted (R22, R206), and after an abort (U9). Log 2, log 3. -/
opaque Config.freeDecWidth : Nat → BitVec 32
/-- D.height from a pass start until the header is accepted (R22, R206), and after an abort (U9). Log 2, log 3. -/
opaque Config.freeDecHeight : Nat → BitVec 32
/-- D.N from a pass start until the header is accepted (R22), and after an abort (U9). Log 2, log 3. -/
opaque Config.freeDecN : Nat → BitVec 64

end Sys2Proof
end

