-- ==== Sys2Proof/Machine/State.lean ====
section
/-! DEFINITION. The architectural state: both engines with every register of R20 and R22, their ports (R26, R27) and the
host's side of them as plain data, the host's actions still to come, the reasons a step can stop, and the state after
reset (R33). -/

namespace Sys2Proof.Machine

/-- Byte-addressed memory: (address, byte) pairs with strictly rising addresses. An address that is not listed holds NO
byte, so any byte may be listed (log 11). -/
abbrev Memory := List Host.Cell

/-- Where an encoder pass stands (R20). -/
inductive EncPhase where
  | idle | hdr | pix | pad
  deriving DecidableEq, Repr

/-- Where a decoder pass stands (R22). -/
inductive DecPhase where
  | idle | hdr | pix
  deriving DecidableEq, Repr

/-- What a decoder pass does: `Decode` or `DecodeHeader` (R22, R27). -/
inductive Mode where
  | full | headerOnly
  deriving DecidableEq, Repr

/-- The two engines (R14). -/
inductive Engine where
  | encoder | decoder
  deriving DecidableEq, Repr

/-- The encoder engine: its registers (R20, R28, R29), its ports and the host's side of them (R26, R59). -/
structure Encoder where
  /-- E.phase -/
  phase : EncPhase
  /-- E.width -/
  width : BitVec 32
  /-- E.height -/
  height : BitVec 32
  /-- E.N -/
  n : BitVec 64
  /-- E.k -/
  k : BitVec 64
  /-- E.prev -/
  prev : Pixel
  /-- E.run -/
  run : BitVec 14
  /-- E.cache -/
  cache : Cache
  /-- E.outcount -/
  outcount : BitVec 64
  /-- E.STATUS -/
  status : BitVec 8
  /-- E.ERR_POS -/
  errPos : BitVec 64
  /-- E.CFG_WIDTH, driven by the host -/
  cfgWidth : BitVec 32
  /-- E.CFG_HEIGHT, driven by the host -/
  cfgHeight : BitVec 32
  /-- the input pixel grid, supplied by the host, read by `PixIn` -/
  grid : Memory
  /-- the output byte stream of the current or last pass, oldest byte first -/
  out : List Byte
  /-- the number of accepted bytes after which the host answers a write `IOERR`; `none`: never (R177) -/
  sinkFail : Option Nat
  /-- the model's own: numbers the free values this engine has drawn -/
  draws : Nat
  deriving DecidableEq, Repr

/-- The decoder engine: its registers (R22, R28, R29), its ports and the host's side of them (R27, R59). -/
structure Decoder where
  /-- D.phase -/
  phase : DecPhase
  /-- D.mode -/
  mode : Mode
  /-- D.width, shown on D.HDR_WIDTH -/
  width : BitVec 32
  /-- D.height, shown on D.HDR_HEIGHT -/
  height : BitVec 32
  /-- D.N -/
  n : BitVec 64
  /-- D.k -/
  k : BitVec 64
  /-- D.pos -/
  pos : BitVec 64
  /-- D.px -/
  px : Pixel
  /-- D.run -/
  run : BitVec 14
  /-- D.cache -/
  cache : Cache
  /-- D.STATUS -/
  status : BitVec 8
  /-- D.ERR_POS -/
  errPos : BitVec 64
  /-- D.CFG_MODE, driven by the host: 0 = FULL, 1 = HEADER_ONLY -/
  cfgMode : BitVec 1
  /-- the input byte stream, supplied by the host -/
  stream : List Byte
  /-- the stream position whose read the host answers `IOERR`; `none`: never (R177) -/
  srcFail : Option Nat
  /-- the host has answered `EOI` in this pass, and answers it to every later read (R149) -/
  ended : Bool
  /-- the output pixel grid of the current or last pass, written by `PixOut` -/
  grid : Memory
  /-- the model's own: numbers the free values this engine has drawn -/
  draws : Nat
  deriving DecidableEq, Repr

/-- What the host can do between two steps, or which engine it lets move (R14, R26, R27, R196, R199). -/
inductive HostAction where
  /-- a hardware reset (R196), after `written` more byte writes of the encoder step in progress (0: between steps) -/
  | reset (written : Nat)
  /-- drive E.CFG_WIDTH -/
  | setWidth (w : BitVec 32)
  /-- drive E.CFG_HEIGHT -/
  | setHeight (h : BitVec 32)
  /-- drive D.CFG_MODE -/
  | setMode (m : BitVec 1)
  /-- make the input grid available: its pixels as port words (R64) in row-major order -/
  | supplyGrid (pixels : List (BitVec 32))
  /-- make the input stream available -/
  | supplyStream (bytes : List Byte)
  /-- choose which write, if any, is answered `IOERR` (R177) -/
  | sinkFails (after : Option Nat)
  /-- choose which read, if any, is answered `IOERR` (R177) -/
  | sourceFails (after : Option Nat)
  /-- raise E.start (R122) -/
  | startEncoder
  /-- raise D.start (R148) -/
  | startDecoder
  /-- let this engine take its next step -/
  | turn (e : Engine)
  deriving DecidableEq, Repr

/-- The whole machine. -/
structure State where
  enc : Encoder
  dec : Decoder
  /-- the host's actions still to come, next first (the model's own) -/
  script : List HostAction
  deriving DecidableEq, Repr

/-- Why the machine stops: the stuck states of spec/93_implementation_defined.md, and accesses outside a grid. -/
inductive Fault where
  /-- Raised by E.start: the host has not supplied exactly `N` pixels (R200, U14). Safe. -/
  | hostPixelCount
  /-- Raised when the host changes a pixel or a byte that the running pass has not yet read (R200, U14). Safe. -/
  | hostChangedInput
  /-- Raised by `PixIn` at a pixel number that is outside the grid or holds no byte (R60). Safe. -/
  | inputGridRange
  /-- Raised by `PixOut` at a pixel number outside the grid (R61). Safe. -/
  | outputGridRange
  deriving DecidableEq, Repr

/-- Why a step has no meaning. -/
inductive Refusal where
  /-- Raised by an arm of exec whose instruction has no meaning yet. Safe. -/
  | notModelled (mnemonic : String)
  /-- Raised by every chunk whose operand lies outside its range: it "spells nothing" (R96). Safe. -/
  | operandRange
  /-- Raised by every chunk that is not the next one of a running pass: it has no meaning there (R203). Safe. -/
  | chunkOutOfStream
  /-- Raised by a start while the engine's phase is not IDLE (R202, U13). Safe. -/
  | startWhileBusy
  /-- Raised by a read or a write that would pass 2^64 - 1 bytes (R30, U16). Safe. -/
  | streamTooLong
  deriving DecidableEq, Repr

/-- The encoder after a hardware reset (R33). Log 1 names the registers the spec leaves unspecified. -/
def Encoder.reset : Encoder where
  phase := .idle
  width := 0
  height := 0
  n := 0
  k := 0
  prev := ⟨0, 0, 0, 0⟩
  run := 0
  cache := Vector.replicate 64 ⟨0, 0, 0, 0⟩
  outcount := 0
  status := 0x00
  errPos := 0
  cfgWidth := 0
  cfgHeight := 0
  grid := []
  out := []
  sinkFail := none
  draws := 0

/-- The decoder after a hardware reset (R33). Log 1 names the registers the spec leaves unspecified. -/
def Decoder.reset : Decoder where
  phase := .idle
  mode := .full
  width := 0
  height := 0
  n := 0
  k := 0
  pos := 0
  px := ⟨0, 0, 0, 0⟩
  run := 0
  cache := Vector.replicate 64 ⟨0, 0, 0, 0⟩
  status := 0x00
  errPos := 0
  cfgMode := 0
  stream := []
  srcFail := none
  ended := false
  grid := []
  draws := 0

/-- The machine after a hardware reset: both engines IDLE, nothing supplied, no host action to come (R33, R197). -/
def State.reset : State where
  enc := Encoder.reset
  dec := Decoder.reset
  script := []

end Sys2Proof.Machine
end

