-- ==== Sys2Proof/Machine/Operands.lean ====
section
/-! DEFINITION. Parameters (R7), modulo-256 arithmetic (R9, R10, R205), pixel words (R64) and big-endian integers
(R62). -/

namespace Sys2Proof.Machine

/-- `SEED`, opaque black (R7). -/
def seed : Pixel := ⟨0, 0, 0, 255⟩

/-- Transparent black, what every cache slot starts as (R7, R116). -/
def transparent : Pixel := ⟨0, 0, 0, 0⟩

/-- `CACHE_INIT`: every slot transparent black (R7, R116). -/
def cacheInit : Cache := Vector.replicate 64 transparent

/-- `RUN_CAP`, the encoding ceiling of a run (R7). -/
abbrev runCap : Nat := 8224

/-- `SHORT_RUN_MAX`, the longest run of a short run chunk (R7). -/
abbrev shortRunMax : Nat := 32

/-- `HEADER_LEN`, in bytes (R7). -/
abbrev headerLen : Nat := 14

/-- The padding: `PAD_LEN` bytes of 0x00 (R7, R95). -/
def padding : List Byte := [0x00, 0x00, 0x00, 0x00]

/-- `wrap8(v) = v mod 256` (R9). -/
def wrap8 (v : Int) : Byte := BitVec.ofInt 8 v

/-- `sext_8(v)` (R9). -/
def sext8 (v : Byte) : Int := if v.toNat < 128 then (v.toNat : Int) else (v.toNat : Int) - 256

/-- `sdelta(x, y)`, the channel delta from the previous value `y` to the new value `x` (R10). -/
def sdelta (x y : Byte) : Int := sext8 (wrap8 ((x.toNat : Int) - (y.toNat : Int)))

/-- A channel plus a delta, modulo 256 (R89, R158 to R160). -/
def addDelta (x : Byte) (d : Int) : Byte := wrap8 ((x.toNat : Int) + d)

/-- A pixel as a port word `{r, g, b, a}` (R64). -/
def pixelWord (p : Pixel) : BitVec 32 := p.r ++ p.g ++ p.b ++ p.a

/-- The pixel of a port word (R64). -/
def pixelOfWord (w : BitVec 32) : Pixel :=
  ⟨w.extractLsb' 24 8, w.extractLsb' 16 8, w.extractLsb' 8 8, w.extractLsb' 0 8⟩

/-- A 32-bit integer as four stream bytes, most significant first (R62). -/
def be32 (w : BitVec 32) : List Byte :=
  [w.extractLsb' 24 8, w.extractLsb' 16 8, w.extractLsb' 8 8, w.extractLsb' 0 8]

/-- The 32-bit big-endian integer at offset `j` of a header (R62, R80). -/
def field32 (h : List Byte) (j : Nat) : BitVec 32 :=
  h.getD j 0 ++ h.getD (j + 1) 0 ++ h.getD (j + 2) 0 ++ h.getD (j + 3) 0

/-- `zext_64(w) * zext_64(h)`, the pixel count (R122, R150). -/
def pixelCount (w h : BitVec 32) : BitVec 64 := w.setWidth 64 * h.setWidth 64

end Sys2Proof.Machine
end

