-- ==== Sys2Proof/Machine/Cache.lean ====
section
/-! DEFINITION. The direct-mapped colour cache (R113 to R117): `Hash`, `Lookup`, `Store`. -/

namespace Sys2Proof.Machine

/-- `Hash(p)`: the exclusive or of the four channels, modulo 64 (R113). -/
def pixelHash (p : Pixel) : Fin 64 := ((p.r ^^^ p.g ^^^ p.b ^^^ p.a).extractLsb' 0 6).toFin

/-- `Lookup(i)` (R114). -/
def cacheLookup (cache : Cache) (i : Fin 64) : Pixel := cache[i.val]

/-- `Store(i, p)`: the previous occupant is evicted (R115, R117). -/
def cacheStore (c : Cache) (i : Fin 64) (p : Pixel) : Cache := c.set i.val p

end Sys2Proof.Machine
end

