-- ==== Sys2Proof/Machine/Flags.lean ====
section
/-! DEFINITION. The STATUS word, the block's only flags (R28, R31), and the cause codes of the errors (R176). -/

namespace Sys2Proof.Machine

/-- Why a pass ended in error; `none` while no error stands (R28, R176). -/
inductive Cause where
  | none | truncatedHeader | badMagic | ioSource | ioSink
  deriving DecidableEq, Repr

/-- The code of a cause in STATUS bits 5:3. Codes 5, 6 and 7 are never written (R28). -/
def causeCode : Cause → BitVec 3
  | .none => 0
  | .truncatedHeader => 1
  | .badMagic => 2
  | .ioSource => 3
  | .ioSink => 4

/-- A STATUS word from its fields: reserved bits 7:6 are 0, CAUSE 5:3, ERR 2, DONE 1, BUSY 0 (R28). -/
def statusWord (busy done err : Bool) (cause : Cause) : BitVec 8 :=
  0b00#2 ++ causeCode cause ++ BitVec.ofBool err ++ BitVec.ofBool done ++ BitVec.ofBool busy

/-- STATUS while a pass runs (R122, R148). -/
def statusBusy : BitVec 8 := statusWord true false false .none

/-- STATUS after a pass that ended successfully (R126, R152). -/
def statusDone : BitVec 8 := statusWord false true false .none

/-- STATUS after an abort (R178). -/
def statusErr (cause : Cause) : BitVec 8 := statusWord false false true cause

/-- Field BUSY of a STATUS word. -/
def busyBit (st : BitVec 8) : Bool := st.getLsbD 0

/-- Field DONE of a STATUS word. -/
def doneBit (st : BitVec 8) : Bool := st.getLsbD 1

/-- Field ERR of a STATUS word. -/
def errBit (st : BitVec 8) : Bool := st.getLsbD 2

/-- Field CAUSE of a STATUS word. -/
def causeField (st : BitVec 8) : BitVec 3 := st.extractLsb' 3 3

/-- The reserved field of a STATUS word. -/
def reservedField (st : BitVec 8) : BitVec 2 := st.extractLsb' 6 2

end Sys2Proof.Machine
end

