-- ==== Sys2Proof/Machine/Ops.lean ====
section
/-! DEFINITION. The accesses of an engine: memory (R60, R61), `InRead` (R149), `ReadOperand` (R154), `OutWrite` (R124),
`PixIn` (R60), `PixOut` (R61); and `Abort`, the block's one form of taking an exception (R178). -/

namespace Sys2Proof.Machine

/-! ### Byte-addressed memory -/

/-- The canonical form: addresses strictly rise. An unlisted address holds no byte, so every entry differs from what an
unlisted address reads as (log 11). -/
abbrev Memory.wf (m : Memory) : Prop := m.Pairwise (fun c d => c.1 < d.1)

/-- `MemRead(addr, 1)`: the byte at an address, `none` where there is no byte. -/
def memRead : Memory → Nat → Option Byte
  | [], _ => none
  | c :: cs, a => if c.1 = a then some c.2 else memRead cs a

/-- `MemWrite(addr, 1, v)`. -/
def memWrite : Memory → Nat → Byte → Memory
  | [], a, v => [(a, v)]
  | c :: cs, a, v =>
    if a < c.1 then (a, v) :: c :: cs
    else if a = c.1 then (a, v) :: cs
    else c :: memWrite cs a v

/-- The pixel numbered `j` of a grid, at bytes `4j` to `4j + 3` in r, g, b, a order (R60). -/
def readPixel (m : Memory) (j : Nat) : Option Pixel :=
  match memRead m (4 * j), memRead m (4 * j + 1), memRead m (4 * j + 2), memRead m (4 * j + 3) with
  | some r, some g, some b, some a => some ⟨r, g, b, a⟩
  | _, _, _, _ => none

/-- Write the pixel numbered `j` of a grid (R61). -/
def writePixel (m : Memory) (j : Nat) (p : Pixel) : Memory :=
  memWrite (memWrite (memWrite (memWrite m (4 * j) p.r) (4 * j + 1) p.g) (4 * j + 2) p.b) (4 * j + 3) p.a

/-- The grid memory that holds the given port words from pixel number `j` on, row-major (R60, R64). -/
def gridOf : Nat → List (BitVec 32) → Memory
  | _, [] => []
  | j, w :: ws =>
    let p := pixelOfWord w
    (4 * j, p.r) :: (4 * j + 1, p.g) :: (4 * j + 2, p.b) :: (4 * j + 3, p.a) :: gridOf (j + 1) ws

/-- The port words of a grid's first `n` pixels, row-major: the inverse of `gridOf` (R61, R64). -/
def gridWords (m : Memory) (n : Nat) : List (BitVec 32) :=
  (List.range n).filterMap (fun j => (readPixel m j).map pixelWord)

/-- The memory holds a byte at exactly the addresses of `n` pixels: `4 * n` bytes from 0 on (R59). -/
def holdsPixels (m : Memory) (n : Nat) : Bool := decide (m.length = 4 * n) && m.all (fun c => decide (c.1 < 4 * n))

/-- The part of a grid from pixel number `k` on. -/
def unreadGrid (m : Memory) (k : Nat) : Memory := m.filter (fun c => decide (4 * k ≤ c.1))

/-! ### Taking an exception: Abort (R178) -/

/-- `Abort(cause, pos)` in the encoder: IDLE, STATUS, ERR_POS, and a free value in each register that R178 or U9 leaves
unspecified (log 2). -/
def encAbort (cause : Cause) (pos : BitVec 64) (e : Encoder) : Encoder :=
  { e with
    phase := .idle
    status := statusErr cause
    errPos := pos
    width := Config.freeEncWidth e.draws
    height := Config.freeEncHeight e.draws
    n := Config.freeEncN e.draws
    prev := pixelOfWord (Config.freeEncPrev e.draws)
    run := Config.freeEncRun e.draws
    cache := Vector.ofFn (fun i => pixelOfWord (Config.freeEncSlot e.draws i))
    k := Config.freeEncK e.draws
    outcount := Config.freeEncOutcount e.draws
    draws := e.draws + 1 }

/-- `Abort(cause, pos)` in the decoder: IDLE, STATUS, ERR_POS, and a free value in each register that R178 or U9 leaves
unspecified (log 2). -/
def decAbort (cause : Cause) (pos : BitVec 64) (d : Decoder) : Decoder :=
  { d with
    phase := .idle
    status := statusErr cause
    errPos := pos
    width := Config.freeDecWidth d.draws
    height := Config.freeDecHeight d.draws
    n := Config.freeDecN d.draws
    px := pixelOfWord (Config.freeDecPx d.draws)
    run := Config.freeDecRun d.draws
    cache := Vector.ofFn (fun i => pixelOfWord (Config.freeDecSlot d.draws i))
    k := Config.freeDecK d.draws
    pos := Config.freeDecPos d.draws
    draws := d.draws + 1 }

/-! ### The decoder's input stream -/

/-- The host's answer to a read (R149). -/
inductive ReadAnswer where
  | byte (b : Byte) | eoi | ioerr
  deriving DecidableEq, Repr

/-- What the host answers to the decoder's next read: `EOI` once it has answered `EOI` (log 16), `IOERR` where the host
chose so (log 5), else the byte at D.pos, or `EOI` where the stream holds no more bytes (R149). -/
def sourceAnswer (d : Decoder) : ReadAnswer :=
  if d.ended then .eoi
  else if d.srcFail = some d.pos.toNat then .ioerr
  else match d.stream[d.pos.toNat]? with
    | some b => .byte b
    | none => .eoi

/-- The last byte position there is: a stream of more than 2^64 - 1 bytes is refused (R30, U16). -/
def lastPos : BitVec 64 := BitVec.allOnes 64

/-- What one read gives. -/
inductive ReadResult where
  /-- A byte, consumed. -/
  | byte (b : Byte) (d : Decoder)
  /-- No more bytes. -/
  | eoi (d : Decoder)
  /-- The host answered `IOERR`: the pass has aborted. -/
  | aborted (d : Decoder)
  /-- The stream has more than 2^64 - 1 bytes. -/
  | tooLong

/-- `InRead()` (R149). -/
def inRead (d : Decoder) : ReadResult :=
  match sourceAnswer d with
  | .byte b => if d.pos = lastPos then .tooLong else .byte b { d with pos := d.pos + 1 }
  | .eoi => .eoi { d with ended := true }
  | .ioerr => .aborted (decAbort .ioSource d.pos d)

/-- What several reads give. -/
inductive ReadMany where
  /-- The bytes, in the order read. -/
  | ok (bytes : List Byte) (d : Decoder)
  /-- The pass has aborted. -/
  | aborted (d : Decoder)
  /-- The stream has more than 2^64 - 1 bytes. -/
  | tooLong

/-- One more byte in front of what later reads give. -/
def ReadMany.cons (b : Byte) : ReadMany → ReadMany
  | .ok bytes d => .ok (b :: bytes) d
  | .aborted d => .aborted d
  | .tooLong => .tooLong

/-- `count` calls of `ReadOperand()`: a byte that is not there reads 0x00 (R154). -/
def readOperands : Nat → Decoder → ReadMany
  | 0, d => .ok [] d
  | count + 1, d =>
    match inRead d with
    | .byte b d1 => (readOperands count d1).cons b
    | .eoi d1 => (readOperands count d1).cons 0x00
    | .aborted d1 => .aborted d1
    | .tooLong => .tooLong

/-! ### The encoder's output stream -/

/-- What one or several writes give. -/
inductive WriteResult where
  /-- Every byte was accepted. -/
  | ok (e : Encoder)
  /-- The host answered `IOERR`: the pass has aborted. -/
  | aborted (e : Encoder)
  /-- The stream would have more than 2^64 - 1 bytes. -/
  | tooLong

/-- `OutWrite(b)` (R124). -/
def outWrite (b : Byte) (e : Encoder) : WriteResult :=
  if e.sinkFail = some e.outcount.toNat then .aborted (encAbort .ioSink e.outcount e)
  else if e.outcount = lastPos then .tooLong
  else .ok { e with out := e.out ++ [b], outcount := e.outcount + 1 }

/-- `OutWrite` of each byte in order, up to the first that is not accepted (R124, R179). -/
def writeAll : List Byte → Encoder → WriteResult
  | [], e => .ok e
  | b :: bs, e =>
    match outWrite b e with
    | .ok e1 => writeAll bs e1
    | .aborted e1 => .aborted e1
    | .tooLong => .tooLong

/-! ### The pixel grids -/

/-- `PixIn()`: pixel E.k of the input grid (R60). -/
def pixIn (e : Encoder) : Option Pixel := if e.k.toNat < e.n.toNat then readPixel e.grid e.k.toNat else none

/-- `Complete()` if the last pixel has been delivered (R151, R152). -/
def completeIfDone (d : Decoder) : Decoder :=
  if d.k = d.n then { d with phase := .idle, status := statusDone } else d

/-- The end of a decoder pixel step (R151): the cache store unless the pixel came from an `INDEX` chunk (R163),
`PixOut(D.px)` (R61), D.k, and `Complete` (R152). -/
def deliver (fromIndex : Bool) (d : Decoder) : Host.Outcome Decoder Fault Refusal :=
  if d.k.toNat < d.n.toNat then
    .next (completeIfDone
      { d with
        cache := if fromIndex then d.cache else cacheStore d.cache (pixelHash d.px) d.px
        grid := writePixel d.grid d.k.toNat d.px
        k := d.k + 1 })
  else .fault .outputGridRange

/-! ### Engines inside the machine -/

/-- A decoder's outcome as the machine's: nothing outside the decoder changes (R14, R70). -/
def onDecoder (s : State) : Host.Outcome Decoder Fault Refusal → Host.Outcome State Fault Refusal
  | .next d => .next { s with dec := d }
  | .fault f => .fault f
  | .refused r => .refused r

/-- An encoder's outcome as the machine's: nothing outside the encoder changes (R14, R70). -/
def onEncoder (s : State) : Host.Outcome Encoder Fault Refusal → Host.Outcome State Fault Refusal
  | .next e => .next { s with enc := e }
  | .fault f => .fault f
  | .refused r => .refused r

/-- The step of one chunk, shared by the seven meanings: the chunk gives the new current pixel and the repeats still
owed (`ChunkDec`, R170), and the stream decoder around it delivers (R151). A chunk has a meaning only as the next one of
a running pass with no repeats owed (R151, R203), with operands in range (R96). -/
def chunkStep (i : Instr) (fromIndex : Bool) (px : Pixel) (run : BitVec 14) (s : State) :
    Host.Outcome State Fault Refusal :=
  if i.wf then
    if s.dec.phase = .pix ∧ s.dec.run = 0 then
      onDecoder s (deliver fromIndex { s.dec with px := px, run := run })
    else .refused .chunkOutOfStream
  else .refused .operandRange

end Sys2Proof.Machine
end

