-- ==== Sys2Proof/Machine/CacheIndex.lean ====
section
/-! DEFINITION. The cache index chunk (R155). -/

namespace Sys2Proof.Machine

/-- INDEX (R155): the current pixel becomes the slot's; the cache is not written (R163). -/
def execIndex (slot : Fin 64) (s : State) : Host.Outcome State Fault Refusal :=
  chunkStep (.index slot) true (cacheLookup s.dec.cache slot) s.dec.run s

end Sys2Proof.Machine
end

