-- ==== Sys2Proof/Machine/Diffs.lean ====
section
/-! DEFINITION. The three diff chunks (R158 to R160): deltas applied channel by channel, modulo 256. -/

namespace Sys2Proof.Machine

/-- A pixel plus four deltas, each channel modulo 256 (R89, R205). -/
def addDeltas (p : Pixel) (dr dg db da : Int) : Pixel :=
  ⟨addDelta p.r dr, addDelta p.g dg, addDelta p.b db, addDelta p.a da⟩

/-- DIFF1 (R158): alpha unchanged. -/
def execDiff1 (dr dg db : Int) (s : State) : Host.Outcome State Fault Refusal :=
  chunkStep (.diff1 dr dg db) false { addDeltas s.dec.px dr dg db 0 with a := s.dec.px.a } s.dec.run s

/-- DIFF2 (R159): alpha unchanged. -/
def execDiff2 (dr dg db : Int) (s : State) : Host.Outcome State Fault Refusal :=
  chunkStep (.diff2 dr dg db) false { addDeltas s.dec.px dr dg db 0 with a := s.dec.px.a } s.dec.run s

/-- DIFF3 (R160): the only diff chunk that changes alpha. -/
def execDiff3 (dr dg db da : Int) (s : State) : Host.Outcome State Fault Refusal :=
  chunkStep (.diff3 dr dg db da) false (addDeltas s.dec.px dr dg db da) s.dec.run s

end Sys2Proof.Machine
end

