-- ==== Sys2Proof/Machine/Literal.lean ====
section
/-! DEFINITION. The literal chunk (R161). -/

namespace Sys2Proof.Machine

/-- The channels present in a literal replace the pixel's; the others keep their value (R161). -/
def replaceChannels (p : Pixel) (r g b a : Option Byte) : Pixel :=
  ⟨r.getD p.r, g.getD p.g, b.getD p.b, a.getD p.a⟩

/-- LIT (R161). -/
def execLit (r g b a : Option Byte) (s : State) : Host.Outcome State Fault Refusal :=
  chunkStep (.lit r g b a) false (replaceChannels s.dec.px r g b a) s.dec.run s

end Sys2Proof.Machine
end

