-- ==== Sys2Proof/Machine/Runs.lean ====
section
/-! DEFINITION. The run chunks (R156, R157). -/

namespace Sys2Proof.Machine

/-- The repeats still owed after the pixel of the run chunk's own step: one fewer than the run length (R156, R157, C5). -/
def owedRepeats (count : Nat) : BitVec 14 := BitVec.ofNat 14 (count - 1)

/-- RUN_S (R156): D.run becomes `n = count - 1`; the current pixel is unchanged. -/
def execRunS (count : Nat) (s : State) : Host.Outcome State Fault Refusal :=
  chunkStep (.runS count) false s.dec.px (owedRepeats count) s

/-- RUN_L (R157): D.run becomes `v + 32 = count - 1`; the current pixel is unchanged. -/
def execRunL (count : Nat) (s : State) : Host.Outcome State Fault Refusal :=
  chunkStep (.runL count) false s.dec.px (owedRepeats count) s

end Sys2Proof.Machine
end

