-- ==== Sys2Proof/Machine/Dispatch.lean ====
section
/-! DEFINITION. `DecodeChunk`'s dispatch (R153): one arm per chunk kind, no fallback arm (R162). -/

namespace Sys2Proof.Machine

def exec (i : Instr) (s : State) : Host.Outcome State Fault Refusal :=
  match i with
  | .index slot => Sys2Proof.Machine.execIndex slot s
  | .runS count => Sys2Proof.Machine.execRunS count s
  | .runL count => Sys2Proof.Machine.execRunL count s
  | .diff1 dr dg db => Sys2Proof.Machine.execDiff1 dr dg db s
  | .diff2 dr dg db => Sys2Proof.Machine.execDiff2 dr dg db s
  | .diff3 dr dg db da => Sys2Proof.Machine.execDiff3 dr dg db da s
  | .lit r g b a => Sys2Proof.Machine.execLit r g b a s

end Sys2Proof.Machine
end

