-- ==== Sys2Proof/Machine/HeaderCodec.lean ====
section
/-! DEFINITION. The header codec (R105 to R112): `WriteHeader` and `ReadHeader`. -/

namespace Sys2Proof.Machine

/-- The colour model `DecodeHeader` answers: a constant (R27, R106). -/
inductive ColorModel where
  /-- "4-channel, non-premultiplied" -/
  | fourChannelNonPremultiplied
  deriving DecidableEq, Repr

/-- What `ReadHeader` returns (R106). -/
structure Header where
  width : BitVec 32
  height : BitVec 32
  model : ColorModel
  deriving DecidableEq, Repr

/-- The bytes `WriteHeader(w, h)` writes, in order (R79, R105). -/
def headerBytes (w h : BitVec 32) : List Byte := be32 Config.magic ++ be32 w ++ be32 h ++ [4, 0]

/-- The reads of `ReadHeader`: the end of the input raises TRUNCATED_HEADER at D.pos (R106, R109). -/
def readHeaderBytes : Nat → Decoder → ReadMany
  | 0, d => .ok [] d
  | count + 1, d =>
    match inRead d with
    | .byte b d1 => (readHeaderBytes count d1).cons b
    | .eoi d1 => .aborted (decAbort .truncatedHeader d1.pos d1)
    | .aborted d1 => .aborted d1
    | .tooLong => .tooLong

/-- The header in 14 bytes whose magic is right: channel count and colorspace are discarded (R80, R106, R110). -/
def parseHeader (h : List Byte) : Header := ⟨field32 h 4, field32 h 8, .fourChannelNonPremultiplied⟩

/-- What `ReadHeader` gives. -/
inductive HeaderResult where
  /-- The header is accepted. -/
  | ok (header : Header) (d : Decoder)
  /-- The pass has aborted. -/
  | aborted (d : Decoder)
  /-- The stream has more than 2^64 - 1 bytes. -/
  | tooLong

/-- `ReadHeader()` (R106): all 14 bytes are read before the magic is compared (R107, C4). -/
def readHeader (d : Decoder) : HeaderResult :=
  match readHeaderBytes headerLen d with
  | .ok h d1 => if field32 h 0 = Config.magic then .ok (parseHeader h) d1 else .aborted (decAbort .badMagic d1.pos d1)
  | .aborted d1 => .aborted d1
  | .tooLong => .tooLong

end Sys2Proof.Machine
end

