-- ==== Sys2Proof/Machine/StreamDecoder.lean ====
section
/-! DEFINITION. The decoder engine: start (R148), header step (R150), pixel step (R151) with the fetch of a chunk's bytes
(R153, R154), reset (R196). -/

namespace Sys2Proof.Machine

/-- The registers at a pass start (R148). D.width, D.height, D.N and ERR_POS are unspecified until the header is accepted
or an error stands (R22, R29, R206): free values (log 3). The pass's output grid is empty (log 8). The stream the host
last supplied stays available and is read from offset 0 on, also after a pass that has consumed it; so does the host's
choice of the read it answers IOERR: both are the model's choice (log 19). -/
def decInit (d : Decoder) : Decoder :=
  { d with
    mode := if d.cfgMode = 0 then .full else .headerOnly
    pos := 0
    k := 0
    px := seed
    run := 0
    cache := cacheInit
    status := statusBusy
    phase := .hdr
    width := Config.freeDecWidth d.draws
    height := Config.freeDecHeight d.draws
    n := Config.freeDecN d.draws
    errPos := Config.freeDecErrPos d.draws
    ended := false
    grid := []
    draws := d.draws + 1 }

/-- `D.start` (R148): refused while a pass runs (R202). -/
def decStart (d : Decoder) : Host.Outcome Decoder Fault Refusal :=
  if d.phase = .idle then .next (decInit d) else .refused .startWhileBusy

/-- The registers once the header is accepted (R150): a header-only pass and a pass without pixels complete at once. -/
def decAcceptHeader (header : Header) (d : Decoder) : Decoder :=
  let d1 := { d with width := header.width, height := header.height, n := pixelCount header.width header.height }
  if d.mode = .headerOnly ∨ pixelCount header.width header.height = 0 then
    { d1 with phase := .idle, status := statusDone }
  else { d1 with phase := .pix }

/-- The header step (R150). -/
def decHeaderStep (d : Decoder) : Host.Outcome Decoder Fault Refusal :=
  match readHeader d with
  | .ok header d1 => .next (decAcceptHeader header d1)
  | .aborted d1 => .next d1
  | .tooLong => .refused .streamTooLong

/-- What the fetch at a tag position gives. -/
inductive Fetch where
  /-- A chunk, its bytes consumed. -/
  | chunk (i : Instr) (d : Decoder)
  /-- The input holds no more bytes (R164). -/
  | endOfInput (d : Decoder)
  /-- The pass has aborted. -/
  | aborted (d : Decoder)
  /-- The stream has more than 2^64 - 1 bytes. -/
  | tooLong

/-- Read a tag byte and the operand bytes it asks for, and decode the chunk (R151, R153, R154). -/
def fetch (d : Decoder) : Fetch :=
  match inRead d with
  | .byte b0 d1 =>
    match readOperands (operandCount b0) d1 with
    | .ok ops d2 => .chunk (decodeChunk b0 ops) d2
    | .aborted d2 => .aborted d2
    | .tooLong => .tooLong
  | .eoi d1 => .endOfInput d1
  | .aborted d1 => .aborted d1
  | .tooLong => .tooLong

/-- The pixel step (R151): a run continues without a read (R165); else the next chunk runs (R153), or the current pixel
repeats where the input has ended (R164). -/
def decPixelStep (s : State) : Host.Outcome State Fault Refusal :=
  if s.dec.run ≠ 0 then onDecoder s (deliver false { s.dec with run := s.dec.run - 1 })
  else match fetch s.dec with
    | .chunk i d => exec i { s with dec := d }
    | .endOfInput d => onDecoder s (deliver false d)
    | .aborted d => .next { s with dec := d }
    | .tooLong => .refused .streamTooLong

/-- One step of the decoder engine. An IDLE engine waits for `start` (R191, R197). -/
def decoderStep (s : State) : Host.Outcome State Fault Refusal :=
  match s.dec.phase with
  | .idle => .next s
  | .hdr => onDecoder s (decHeaderStep s.dec)
  | .pix => decPixelStep s

/-- The decoder after a hardware reset (R33, R196): what the host drives, has supplied and has received stays (log 19). -/
def decReset (d : Decoder) : Decoder :=
  { Decoder.reset with
    cfgMode := d.cfgMode
    stream := d.stream
    srcFail := d.srcFail
    ended := d.ended
    grid := d.grid
    draws := d.draws }

/-- The host makes an input stream available (R199). During a pass a change of what is unread is stuck (R200); a change of
what is already read does nothing to the pass (R73). -/
def decSupply (bytes : List Byte) (d : Decoder) : Host.Outcome Decoder Fault Refusal :=
  if d.phase = .idle ∨ bytes.drop d.pos.toNat = d.stream.drop d.pos.toNat then .next { d with stream := bytes }
  else .fault .hostChangedInput

/-- D.HDR_WIDTH (R27). -/
def hdrWidth (s : State) : BitVec 32 := s.dec.width

/-- D.HDR_HEIGHT (R27). -/
def hdrHeight (s : State) : BitVec 32 := s.dec.height

/-- D.pix_out (R27): the 32-bit words `{r, g, b, a}` that the current or last pass has delivered, in row-major order (R61,
R64). The grid holds the bytes of exactly these pixels (log 8, log 11). -/
def pixOut (s : State) : List (BitVec 32) := gridWords s.dec.grid (s.dec.grid.length / 4)

/-- The decoder in the middle of a pass over a grid of two pixels, with `bytes` as the stream from the next read on. -/
def decPlace (bytes : List Byte) (d : Decoder) : Decoder :=
  { d with
    phase := .pix
    mode := .full
    width := 2
    height := 1
    n := 2
    k := 0
    pos := 0
    run := 0
    status := statusBusy
    stream := bytes
    srcFail := none
    ended := false
    grid := [] }

end Sys2Proof.Machine
end

