-- ==== Sys2Proof/Machine/ChunkEncoder.lean ====
section
/-! DEFINITION. The chunk encoder, the pure part of the encoder's pixel step (R127 to R138, R145). -/

namespace Sys2Proof.Machine

/-- `EmitRun(c)`: a short run chunk below 33, else a long one (R128, R133, R134). -/
def emitRun (c : Nat) : Instr := if c < shortRunMax + 1 then .runS c else .runL c

/-- `EmitLit`: the channels whose delta is not 0, in r, g, b, a order (R138). -/
def emitLit (px : Pixel) (dr dg db da : Int) : Instr :=
  .lit (if dr ≠ 0 then some px.r else none) (if dg ≠ 0 then some px.g else none)
    (if db ≠ 0 then some px.b else none) (if da ≠ 0 then some px.a else none)

/-- `SelectTier`: the first tier that holds the deltas (R131, R135 to R138). -/
def selectTier (px : Pixel) (dr dg db da : Int) : Instr :=
  if da = 0 ∧ inRange (-2) 1 dr ∧ inRange (-2) 1 dg ∧ inRange (-2) 1 db then .diff1 dr dg db
  else if da = 0 ∧ inRange (-16) 15 dr ∧ inRange (-8) 7 dg ∧ inRange (-8) 7 db then .diff2 dr dg db
  else if inRange (-16) 15 dr ∧ inRange (-16) 15 dg ∧ inRange (-16) 15 db ∧ inRange (-16) 15 da then .diff3 dr dg db da
  else emitLit px dr dg db da

/-- The tier for a pixel and the one before it: each delta is the wrapped signed difference (R10, R129). -/
def tierFor (px prev : Pixel) : Instr :=
  selectTier px (sdelta px.r prev.r) (sdelta px.g prev.g) (sdelta px.b prev.b) (sdelta px.a prev.a)

/-- `EncodePixel(px, prev)`: the chunk and the cache after it. A hit gives INDEX and writes no slot (R129, R132); a miss
stores the pixel (R130). -/
def encodePixel (px prev : Pixel) (cache : Cache) : Instr × Cache :=
  if cacheLookup cache (pixelHash px) = px then (.index (pixelHash px), cache)
  else (tierFor px prev, cacheStore cache (pixelHash px) px)

/-- What `ChunkEnc` gives: the chunks of a step in order, and the run and the cache after it (R145). -/
structure ChunkOut where
  chunks : List Instr
  run : BitVec 14
  cache : Cache
  deriving DecidableEq, Repr

/-- The bytes of a step's chunks, in order (R145). -/
def ChunkOut.bytes (o : ChunkOut) : List Byte := o.chunks.flatMap encode

/-- E.run after the run accumulation of a step, before any flush (R127). -/
def grownRun (prev px : Pixel) (run : BitVec 14) : BitVec 14 := if px = prev then run + 1 else run

/-- Whether the pending run `run` is flushed in this step (R125, R127). -/
def flushes (prev px : Pixel) (run : BitVec 14) (last : Bool) : Bool :=
  decide (run ≠ 0) && (decide (run.toNat = runCap) || decide (px ≠ prev) || last)

/-- `ChunkEnc(prev, px, run, last, cache)` (R125, R145): the run chunk, if any, then the pixel's own chunk, if any. -/
def chunkEnc (prev px : Pixel) (run : BitVec 14) (last : Bool) (cache : Cache) : ChunkOut :=
  let run1 := grownRun prev px run
  let flush := flushes prev px run1 last
  let runChunks := if flush then [emitRun run1.toNat] else []
  let run2 := if flush then 0 else run1
  if px = prev then ⟨runChunks, run2, cache⟩
  else ⟨runChunks ++ [(encodePixel px prev cache).1], run2, (encodePixel px prev cache).2⟩

end Sys2Proof.Machine
end

