-- ==== Sys2Proof/Machine/StreamEncoder.lean ====
section
/-! DEFINITION. The encoder engine: start (R122), header step (R123), pixel step (R125), padding step (R126), reset
(R196). -/

namespace Sys2Proof.Machine

/-- The registers at a pass start (R122). ERR_POS is unspecified from here on (R29): a free value (log 3). The pass's
output stream is empty (log 8). The grid the host last supplied stays available, also to a later pass; so does the host's
choice of the write it answers IOERR: both are the model's choice (log 19). -/
def encInit (e : Encoder) : Encoder :=
  { e with
    width := e.cfgWidth
    height := e.cfgHeight
    n := pixelCount e.cfgWidth e.cfgHeight
    k := 0
    prev := seed
    run := 0
    cache := cacheInit
    outcount := 0
    status := statusBusy
    phase := .hdr
    errPos := Config.freeEncErrPos e.draws
    out := []
    draws := e.draws + 1 }

/-- `E.start` (R122): refused while a pass runs (R202), stuck unless the host supplies exactly `N` pixels (R200). -/
def encStart (e : Encoder) : Host.Outcome Encoder Fault Refusal :=
  if e.phase = .idle then
    if holdsPixels e.grid (pixelCount e.cfgWidth e.cfgHeight).toNat then .next (encInit e)
    else .fault .hostPixelCount
  else .refused .startWhileBusy

/-- `last`: E.k = E.N - 1 (R125). -/
def isLastPixel (e : Encoder) : Bool := decide (e.k + 1 = e.n)

/-- The chunk encoder applied to the next pixel; `none` where the grid holds no such pixel. -/
def nextChunks (e : Encoder) : Option (Pixel × ChunkOut) :=
  match pixIn e with
  | some px => some (px, chunkEnc e.prev px e.run (isLastPixel e) e.cache)
  | none => none

/-- Outcome of a step that wrote bytes: `f` finishes the step if every byte was accepted; an aborted pass is a next
state (R178). -/
def afterWrites (f : Encoder → Encoder) : WriteResult → Host.Outcome Encoder Fault Refusal
  | .ok e => .next (f e)
  | .aborted e => .next e
  | .tooLong => .refused .streamTooLong

/-- The header step (R123). -/
def encHeaderStep (e : Encoder) : Host.Outcome Encoder Fault Refusal :=
  afterWrites (fun e1 => { e1 with phase := if e.n = 0 then .pad else .pix })
    (writeAll (headerBytes e.width e.height) e)

/-- The end of a pixel step: E.run, E.cache, E.prev, E.k and the phase (R125). -/
def encAdvance (px : Pixel) (o : ChunkOut) (e : Encoder) : Encoder :=
  { e with
    run := o.run
    cache := o.cache
    prev := px
    k := e.k + 1
    phase := if e.k + 1 = e.n then .pad else e.phase }

/-- The pixel step (R125). -/
def encPixelStep (e : Encoder) : Host.Outcome Encoder Fault Refusal :=
  match nextChunks e with
  | some (px, o) => afterWrites (encAdvance px o) (writeAll o.bytes e)
  | none => .fault .inputGridRange

/-- The padding step (R126). -/
def encPaddingStep (e : Encoder) : Host.Outcome Encoder Fault Refusal :=
  afterWrites (fun e1 => { e1 with phase := .idle, status := statusDone }) (writeAll padding e)

/-- One step of the encoder engine. An IDLE engine waits for `start` (R191, R197). -/
def encStep (e : Encoder) : Host.Outcome Encoder Fault Refusal :=
  match e.phase with
  | .idle => .next e
  | .hdr => encHeaderStep e
  | .pix => encPixelStep e
  | .pad => encPaddingStep e

/-- The bytes the encoder's next step would write. -/
def stepBytes (e : Encoder) : List Byte :=
  match e.phase with
  | .idle => []
  | .hdr => headerBytes e.width e.height
  | .pix => match nextChunks e with
    | some (_, o) => o.bytes
    | none => []
  | .pad => padding

/-- The encoder after a hardware reset (R33, R196): what the host drives, has supplied and has received stays (log 19). -/
def encReset (e : Encoder) : Encoder :=
  { Encoder.reset with
    cfgWidth := e.cfgWidth
    cfgHeight := e.cfgHeight
    grid := e.grid
    out := e.out
    sinkFail := e.sinkFail
    draws := e.draws }

/-- A hardware reset that strikes when the step in progress has written `written` bytes (R196, R179). -/
def encResetDuring (written : Nat) (e : Encoder) : Host.Outcome Encoder Fault Refusal :=
  match writeAll ((stepBytes e).take written) e with
  | .ok e1 => .next (encReset e1)
  | .aborted e1 => .next (encReset e1)
  | .tooLong => .refused .streamTooLong

/-- The host makes an input grid available (R199). During a pass a change of what is unread is stuck (R200); a change of
what is already read does nothing to the pass (R73). -/
def encSupply (pixels : List (BitVec 32)) (e : Encoder) : Host.Outcome Encoder Fault Refusal :=
  if e.phase = .idle ∨ unreadGrid (gridOf 0 pixels) e.k.toNat = unreadGrid e.grid e.k.toNat then
    .next { e with grid := gridOf 0 pixels }
  else .fault .hostChangedInput

end Sys2Proof.Machine
end

