-- ==== Sys2Proof/Machine/HostActions.lean ====
section
/-! DEFINITION. What the host does to the machine (R14, R26, R27, R196, R199 to R202), and which engine moves when the
host does nothing. -/

namespace Sys2Proof.Machine

/-- One step of the encoder engine inside the machine. -/
def encoderStep (s : State) : Host.Outcome State Fault Refusal := onEncoder s (encStep s.enc)

/-- One engine's turn. -/
def engineTurn (e : Engine) (s : State) : Host.Outcome State Fault Refusal :=
  match e with
  | .encoder => encoderStep s
  | .decoder => decoderStep s

/-- A hardware reset of both engines (R196). -/
def hardReset (written : Nat) (s : State) : Host.Outcome State Fault Refusal :=
  onEncoder { s with dec := decReset s.dec } (encResetDuring written s.enc)

/-- One action of the host. -/
def hostAction (a : HostAction) (s : State) : Host.Outcome State Fault Refusal :=
  match a with
  | .reset written => hardReset written s
  | .setWidth w => .next { s with enc := { s.enc with cfgWidth := w } }
  | .setHeight h => .next { s with enc := { s.enc with cfgHeight := h } }
  | .setMode m => .next { s with dec := { s.dec with cfgMode := m } }
  | .supplyGrid pixels => onEncoder s (encSupply pixels s.enc)
  | .supplyStream bytes => onDecoder s (decSupply bytes s.dec)
  | .sinkFails after => .next { s with enc := { s.enc with sinkFail := after } }
  | .sourceFails after => .next { s with dec := { s.dec with srcFail := after } }
  | .startEncoder => onEncoder s (encStart s.enc)
  | .startDecoder => onDecoder s (decStart s.dec)
  | .turn e => engineTurn e s

/-- Which engine moves when no host action is left: the decoder if a pass of it runs, else the encoder (log 7). -/
def defaultTurn (s : State) : Host.Outcome State Fault Refusal :=
  if s.dec.phase ≠ .idle then decoderStep s else encoderStep s

/-- The next move of the machine. -/
def nextMove (s : State) : Host.Outcome State Fault Refusal :=
  match s.script with
  | [] => defaultTurn s
  | a :: rest => hostAction a { s with script := rest }

/-- The machine with the decoder about to fetch the chunk in `bytes`, and no host action before it. -/
def placeChunk (bytes : List Byte) (s : State) : State := { s with dec := decPlace bytes s.dec, script := [] }

end Sys2Proof.Machine
end

