-- ==== Sys2Proof/Machine/Step.lean ====
section
/-! DEFINITION. One step of the machine: the next host action, or the next step of an engine (R14, R15). -/

namespace Sys2Proof.Machine

/-- One step. -/
def step (s : State) : Host.Outcome State Fault Refusal := nextMove s

/-- `s` with the chunk whose table bits are `w` where the decoder fetches next, in a running pass (log 6). -/
def State.withFetchWord (s : State) (nbits w : Nat) : State := placeChunk (tableStream nbits w) s

end Sys2Proof.Machine
end

