-- ==== Sys2Proof/Machine/Assembly.lean ====
section
/-! DEFINITION. The assembly syntax as data (R96), the two pseudo-instructions (R97, R98), and the stream a program spells
(R79, R99). The engines use none of it. -/

namespace Sys2Proof.Machine

/-- One line of assembly (R96 to R98). -/
inductive Line where
  /-- a chunk -/
  | chunk (i : Instr)
  /-- `RUN c` -/
  | run (count : Nat)
  /-- `DIFF dr, dg, db, da` -/
  | diff (dr dg db da : Int)
  /-- `.header w, h` -/
  | header (w h : BitVec 32)
  /-- `.header w, h, ch, cs` -/
  | headerWith (w h : BitVec 32) (channels colorspace : Byte)
  /-- `.pad` -/
  | pad
  deriving DecidableEq, Repr

/-- `RUN c` for `c ≥ 1`: the split of the encoder (R97); `RUN 0` spells nothing. -/
def expandRun (count : Nat) : Option (List Instr) :=
  if count = 0 then none
  else
    let q := (count - 1) / runCap
    let rest := count - runCap * q
    some (List.replicate q (.runL runCap) ++ [if rest ≤ shortRunMax then .runS rest else .runL rest])

/-- `DIFF dr, dg, db, da`: the first of the three tiers that holds the deltas; otherwise it spells nothing (R98). -/
def expandDiff (dr dg db da : Int) : Option Instr :=
  if da = 0 ∧ (Instr.diff1 dr dg db).wf then some (.diff1 dr dg db)
  else if da = 0 ∧ (Instr.diff2 dr dg db).wf then some (.diff2 dr dg db)
  else if (Instr.diff3 dr dg db da).wf then some (.diff3 dr dg db da)
  else none

/-- The bytes of a chunk whose operands are in range; the assembler refuses another (R96, R99). -/
def spellChunk (i : Instr) : Option (List Byte) := if i.wf then some (encode i) else none

/-- The bytes a line spells; `none` where the assembler refuses it (R96). -/
def spellLine : Line → Option (List Byte)
  | .chunk i => spellChunk i
  | .run count => (expandRun count).map (fun chunks => chunks.flatMap encode)
  | .diff dr dg db da => (expandDiff dr dg db da).map encode
  | .header w h => some (headerBytes w h)
  | .headerWith w h channels colorspace => some (be32 Config.magic ++ be32 w ++ be32 h ++ [channels, colorspace])
  | .pad => some padding

/-- The bytes a program spells; `none` where the assembler refuses one of its lines. -/
def spellProgram : List Line → Option (List Byte)
  | [] => some []
  | l :: ls =>
    match spellLine l, spellProgram ls with
    | some bytes, some rest => some (bytes ++ rest)
    | _, _ => none

end Sys2Proof.Machine
end

