-- ==== Sys2Proof/Safety.lean ====
section
/-! DEFINITION. The terms the claims use: when a chunk can run, what a chunk's step leaves, the invariant of each engine,
and how the encoder's cache and the decoder's cache agree. -/

namespace Sys2Proof.Machine

/-- The decoder is about to run a chunk: a pass is in its pixel phase, no repeats are owed, pixels are left (R151). -/
abbrev ChunkReady (d : Decoder) : Prop := d.phase = .pix ∧ d.run = 0 ∧ d.k.toNat < d.n.toNat

/-- What a step that delivers the pixel `px` with `run` repeats still owed leaves in the decoder (R151, R152, R163):
`t` after, `d` before, `stored` whether the step writes the cache. -/
structure Delivered (d t : Decoder) (stored : Bool) (px : Pixel) (run : BitVec 14) : Prop where
  px_eq : t.px = px
  run_eq : t.run = run
  k_eq : t.k = d.k + 1
  cache_eq : t.cache = if stored then d.cache.set (pixelHash px).val px else d.cache
  pixel_eq : readPixel t.grid d.k.toNat = some px
  last_eq : d.k + 1 = d.n → t.phase = .idle ∧ t.status = 0x02
  more_eq : d.k + 1 ≠ d.n → t.phase = d.phase ∧ t.status = d.status

/-- The decoder registers and ports that no pixel step writes but through an error: all but those of `Delivered`,
D.pos and the host's end-of-input mark. -/
structure DecKept (d t : Decoder) : Prop where
  mode_eq : t.mode = d.mode
  width_eq : t.width = d.width
  height_eq : t.height = d.height
  n_eq : t.n = d.n
  errPos_eq : t.errPos = d.errPos
  cfgMode_eq : t.cfgMode = d.cfgMode
  stream_eq : t.stream = d.stream
  srcFail_eq : t.srcFail = d.srcFail
  draws_eq : t.draws = d.draws

/-- The encoder registers and ports that no step of a running pass writes but at its start. -/
structure EncKept (e t : Encoder) : Prop where
  width_eq : t.width = e.width
  height_eq : t.height = e.height
  n_eq : t.n = e.n
  cfgWidth_eq : t.cfgWidth = e.cfgWidth
  cfgHeight_eq : t.cfgHeight = e.cfgHeight
  grid_eq : t.grid = e.grid
  sinkFail_eq : t.sinkFail = e.sinkFail

/-- The slot invariant: slot `i` holds transparent black or a pixel whose hash is `i` (R120). -/
def CacheOk (cache : Cache) : Prop := ∀ i : Fin 64, cache[i.val] = transparent ∨ pixelHash cache[i.val] = i

/-- The relation of the two caches over a decode of the encoder's own output (R121): equal but for slot 63, where the
encoder may hold transparent black while the decoder holds SEED. -/
def CachesAgree (enc dec : Cache) : Prop :=
  (∀ i : Fin 64, i.val ≠ 63 → enc[i.val] = dec[i.val]) ∧
    (enc[63] = dec[63] ∨ (enc[63] = transparent ∧ dec[63] = seed))

/-- What every step keeps of the encoder. -/
structure EncInv (e : Encoder) : Prop where
  /-- the input grid is in canonical form -/
  gridWf : Memory.wf e.grid
  /-- STATUS shows BUSY while a pass runs (R28) -/
  busy : e.phase ≠ .idle → e.status = 0x01
  /-- STATUS of an IDLE engine: reset, DONE, or ERR with IO_SINK (R28) -/
  rest : e.phase = .idle → e.status = 0x00 ∨ e.status = 0x02 ∨ e.status = 0x24
  /-- E.N is the pixel count (R20) -/
  count : e.phase ≠ .idle → e.n = pixelCount e.width e.height
  /-- a pass that has written nothing is at its initial values (R122) -/
  atStart : e.phase = .hdr → e.k = 0 ∧ e.run = 0 ∧ e.prev = seed ∧ e.cache = cacheInit ∧ e.outcount = 0
  /-- pixels are left in the pixel phase (R125) -/
  pixels : e.phase = .pix → e.k.toNat < e.n.toNat
  /-- no pixel and no pending run is left in the padding phase (R125, R127) -/
  padding : e.phase = .pad → e.k = e.n ∧ e.run = 0
  /-- E.run is at most 8223 between steps (R21) -/
  runBound : e.phase ≠ .idle → e.run.toNat ≤ 8223
  /-- the slot invariant (R120) -/
  slots : e.phase ≠ .idle → CacheOk e.cache
  /-- E.outcount counts the bytes of the pass's output stream (R20, R124) -/
  written : e.phase ≠ .idle ∨ e.status = 0x02 → e.out.length = e.outcount.toNat
  /-- the host has supplied every pixel that is still to be read (R200) -/
  supplied : e.phase ≠ .idle → ∀ j, e.k.toNat ≤ j → j < e.n.toNat → (readPixel e.grid j).isSome

/-- What every step keeps of the decoder. -/
structure DecInv (d : Decoder) : Prop where
  /-- the output grid is in canonical form -/
  gridWf : Memory.wf d.grid
  /-- STATUS shows BUSY while a pass runs (R28) -/
  busy : d.phase ≠ .idle → d.status = 0x01
  /-- STATUS of an IDLE engine: reset, DONE, or ERR with one of the decoder's three causes (R28) -/
  rest : d.phase = .idle → d.status = 0x00 ∨ d.status = 0x02 ∨ d.status = 0x0C ∨ d.status = 0x14 ∨ d.status = 0x1C
  /-- a pass that has read nothing is at its initial values (R148) -/
  atStart : d.phase = .hdr → d.k = 0 ∧ d.run = 0 ∧ d.pos = 0 ∧ d.px = seed ∧ d.cache = cacheInit ∧ d.grid = []
  /-- D.N is the pixel count of the accepted header (R150) -/
  count : d.phase = .pix ∨ (d.phase = .idle ∧ d.status = 0x02) → d.n = pixelCount d.width d.height
  /-- only a full pass with pixels left is in the pixel phase (R150, R151) -/
  pixels : d.phase = .pix → d.mode = .full ∧ d.k.toNat < d.n.toNat
  /-- D.run is at most 8223 (R23) -/
  runBound : d.phase ≠ .idle → d.run.toNat ≤ 8223
  /-- the slot invariant (R120) -/
  slots : d.phase ≠ .idle → CacheOk d.cache
  /-- the output grid holds exactly the pixels delivered so far (R61) -/
  delivered : d.phase = .pix → holdsPixels d.grid d.k.toNat
  /-- after a successful pass the grid holds exactly D.N pixels, or none after a header-only pass (R61, R169) -/
  complete : d.phase = .idle → d.status = 0x02 → holdsPixels d.grid (if d.mode = .full then d.n.toNat else 0)

/-- What every step keeps. -/
structure Inv (s : State) : Prop where
  enc : EncInv s.enc
  dec : DecInv s.dec

end Sys2Proof.Machine
end

