-- ==== Sys2Proof/Certificates/Slice0/Obligations.lean ====
section
/-! DEFINITION. The statements for the provers, from the numbered rules of spec/. -/

open Sys2Proof Sys2Proof.Machine

/-! ### Encoding -/

/-- The encoding of a well-formed chunk decodes to that chunk, and the bytes after it are left (R99, "the inverse of rules
R82 to R88"). -/
def Obligations.DecodeOfEncode : Prop :=
  ∀ (i : Instr) (rest : List Byte), i.wf = true → decode (encode i ++ rest) = .ok (i, rest)

/-- A chunk that decodes is well formed, and its bytes are its encoding: every field value is legal and every byte string
has one meaning (R92, R99). -/
def Obligations.EncodeOfDecode : Prop :=
  ∀ (bytes : List Byte) (i : Instr) (rest : List Byte), decode bytes = .ok (i, rest) →
    i.wf = true ∧ bytes = encode i ++ rest

/-- The seven kinds by byte ranges (R91) and by tag patterns (R90). -/
def Obligations.TagBytePartition : Prop :=
  ∀ b : Byte,
    ((kindOf b = .index ↔ b.toNat ≤ 0x3F) ∧ (kindOf b = .runS ↔ 0x40 ≤ b.toNat ∧ b.toNat ≤ 0x5F) ∧
      (kindOf b = .runL ↔ 0x60 ≤ b.toNat ∧ b.toNat ≤ 0x7F) ∧ (kindOf b = .diff1 ↔ 0x80 ≤ b.toNat ∧ b.toNat ≤ 0xBF) ∧
      (kindOf b = .diff2 ↔ 0xC0 ≤ b.toNat ∧ b.toNat ≤ 0xDF) ∧ (kindOf b = .diff3 ↔ 0xE0 ≤ b.toNat ∧ b.toNat ≤ 0xEF) ∧
      (kindOf b = .lit ↔ 0xF0 ≤ b.toNat)) ∧
    ((kindOf b = .index ↔ b &&& 0xC0 = 0x00) ∧ (kindOf b = .runS ↔ b &&& 0xE0 = 0x40) ∧
      (kindOf b = .runL ↔ b &&& 0xE0 = 0x60) ∧ (kindOf b = .diff1 ↔ b &&& 0xC0 = 0x80) ∧
      (kindOf b = .diff2 ↔ b &&& 0xE0 = 0xC0) ∧ (kindOf b = .diff3 ↔ b &&& 0xF0 = 0xE0) ∧
      (kindOf b = .lit ↔ b &&& 0xF0 = 0xF0))

/-- The length of a chunk from its tag byte, by byte ranges: 1, 2, 3, or 1 and the number of set presence bits (R91,
R94). -/
def tagLength (b0 : Byte) : Nat :=
  if b0.toNat < 0x60 then 1
  else if b0.toNat < 0x80 then 2
  else if b0.toNat < 0xC0 then 1
  else if b0.toNat < 0xE0 then 2
  else if b0.toNat < 0xF0 then 3
  else 1 + b0.toNat % 2 + b0.toNat / 2 % 2 + b0.toNat / 4 % 2 + b0.toNat / 8 % 2

/-- The length of a chunk in bytes is a function of its tag byte alone, and the next chunk starts that many bytes on
(R94); fewer bytes hold no whole chunk. -/
def Obligations.ChunkLengthFromTag : Prop :=
  ∀ (b0 : Byte) (rest : List Byte),
    (tagLength b0 ≤ (b0 :: rest).length →
      ∃ i, decode (b0 :: rest) = .ok (i, (b0 :: rest).drop (tagLength b0))) ∧
    ((b0 :: rest).length < tagLength b0 → decode (b0 :: rest) = .error .missingOperand)

/-- The fields of the six kinds of fixed length, in arithmetic (R82 to R87) with the biases taken off (R89). -/
def Obligations.FixedFieldLayout : Prop :=
  ∀ (b0 b1 b2 : Byte) (ops : List Byte),
    (kindOf b0 = .index → ∃ slot : Fin 64, slot.val = b0.toNat % 64 ∧ decodeChunk b0 ops = .index slot) ∧
    (kindOf b0 = .runS → decodeChunk b0 ops = .runS (b0.toNat % 32 + 1)) ∧
    (kindOf b0 = .runL → decodeChunk b0 (b1 :: ops) = .runL (b0.toNat % 32 * 256 + b1.toNat + 33)) ∧
    (kindOf b0 = .diff1 → decodeChunk b0 ops =
      .diff1 ((b0.toNat / 16 % 4 : Nat) - 2) ((b0.toNat / 4 % 4 : Nat) - 2) ((b0.toNat % 4 : Nat) - 2)) ∧
    (kindOf b0 = .diff2 → decodeChunk b0 (b1 :: ops) =
      .diff2 ((b0.toNat % 32 : Nat) - 16) ((b1.toNat / 16 : Nat) - 8) ((b1.toNat % 16 : Nat) - 8)) ∧
    (kindOf b0 = .diff3 → ∀ w : Nat, w = b0.toNat * 65536 + b1.toNat * 256 + b2.toNat →
      decodeChunk b0 (b1 :: b2 :: ops) =
        .diff3 ((w / 32768 % 32 : Nat) - 16) ((w / 1024 % 32 : Nat) - 16) ((w / 32 % 32 : Nat) - 16)
          ((w % 32 : Nat) - 16))

/-- The operand bytes of a literal: presence bits 3, 2, 1, 0 are r, g, b, a; one byte for each set bit, in that order
(R88). `n` is the number of set bits before the channel's. -/
def Obligations.LiteralFieldLayout : Prop :=
  ∀ (b0 : Byte) (ops : List Byte), kindOf b0 = .lit →
    let bit := fun j : Nat => b0.toNat / 2 ^ j % 2
    let channel := fun (j n : Nat) => if bit j = 1 then some (ops.getD n 0) else none
    decodeChunk b0 ops =
      .lit (channel 3 0) (channel 2 (bit 3)) (channel 1 (bit 3 + bit 2)) (channel 0 (bit 3 + bit 2 + bit 1))

/-- A few chunks as bytes, written out from the formats (R82 to R88); the bytes are those of 95_test_vectors.md. -/
def Obligations.SpecWordsDecode : Prop :=
  decode [0x3F] = .ok (.index 63, []) ∧ decode [0x42] = .ok (.runS 3, []) ∧
  decode [0x61, 0x0B] = .ok (.runL 300, []) ∧ decode [0xB6] = .ok (.diff1 1 (-1) 0, []) ∧
  decode [0xDF, 0x88] = .ok (.diff2 15 0 0, []) ∧ decode [0xE8, 0xBE, 0x60] = .ok (.diff3 1 (-1) 3 (-16), []) ∧
  decode [0xFE, 0x0A, 0x14, 0x1E] = .ok (.lit (some 10) (some 20) (some 30) none, [])

/-- `RUN c` spells for every `c ≥ 1`, and nothing for 0: well-formed run chunks whose counts add up to `c`, as few as the
ceiling of 8224 allows, every one but the last of count 8224 (R97). -/
def Obligations.PseudoRunCovers : Prop :=
  expandRun 0 = none ∧
  ∀ c : Nat, 1 ≤ c → ∃ chunks : List Instr, expandRun c = some chunks ∧ (∀ i ∈ chunks, i.wf = true) ∧
    (chunks.map (fun i => match i with | .runS n => n | .runL n => n | _ => 0)).sum = c ∧
    chunks.length = (c + 8223) / 8224 ∧ ∀ i ∈ chunks.dropLast, i = .runL 8224

/-- `DIFF` spells the tier the encoder takes for the same wrapped deltas; where it spells nothing, the encoder takes a
literal (R98, R131). -/
def Obligations.PseudoDiffIsEncoderTier : Prop :=
  ∀ px prev : Pixel,
    match expandDiff (sdelta px.r prev.r) (sdelta px.g prev.g) (sdelta px.b prev.b) (sdelta px.a prev.a) with
    | some i => i.wf = true ∧ tierFor px prev = i ∧ addDeltas prev (sdelta px.r prev.r) (sdelta px.g prev.g)
        (sdelta px.b prev.b) (sdelta px.a prev.a) = px
    | none => ∃ r g b a, tierFor px prev = .lit r g b a

/-! ### The chunk decoder -/

/-- INDEX completes: the current pixel becomes the slot's, nothing is stored in the cache, no repeats are owed (R155,
R163). -/
def Obligations.IndexTakesSlotPixel : Prop :=
  ∀ (slot : Fin 64) (s : State), ChunkReady s.dec →
    ∃ t, exec (.index slot) s = .next t ∧ Delivered s.dec t.dec false s.dec.cache[slot.val] 0

/-- RUN_S completes: the current pixel is delivered unchanged and `count - 1` repeats are owed (R156). -/
def Obligations.ShortRunRepeatsPixel : Prop :=
  ∀ (count : Nat) (s : State), 1 ≤ count → count ≤ 32 → ChunkReady s.dec →
    ∃ t, exec (.runS count) s = .next t ∧ Delivered s.dec t.dec true s.dec.px t.dec.run ∧ t.dec.run.toNat = count - 1

/-- RUN_L completes: the current pixel is delivered unchanged and `count - 1` repeats are owed (R157). -/
def Obligations.LongRunRepeatsPixel : Prop :=
  ∀ (count : Nat) (s : State), 33 ≤ count → count ≤ 8224 → ChunkReady s.dec →
    ∃ t, exec (.runL count) s = .next t ∧ Delivered s.dec t.dec true s.dec.px t.dec.run ∧ t.dec.run.toNat = count - 1

/-- DIFF1 completes: each of r, g, b plus its delta modulo 256, alpha unchanged (R158). -/
def Obligations.Diff1AddsDeltas : Prop :=
  ∀ (dr dg db : Int) (s : State), (Instr.diff1 dr dg db).wf = true → ChunkReady s.dec →
    ∃ t, exec (.diff1 dr dg db) s = .next t ∧ Delivered s.dec t.dec true t.dec.px 0 ∧
      (t.dec.px.r.toNat : Int) = (s.dec.px.r.toNat + dr) % 256 ∧ (t.dec.px.g.toNat : Int) = (s.dec.px.g.toNat + dg) % 256 ∧
      (t.dec.px.b.toNat : Int) = (s.dec.px.b.toNat + db) % 256 ∧ t.dec.px.a = s.dec.px.a

/-- DIFF2 completes: each of r, g, b plus its delta modulo 256, alpha unchanged (R159). -/
def Obligations.Diff2AddsDeltas : Prop :=
  ∀ (dr dg db : Int) (s : State), (Instr.diff2 dr dg db).wf = true → ChunkReady s.dec →
    ∃ t, exec (.diff2 dr dg db) s = .next t ∧ Delivered s.dec t.dec true t.dec.px 0 ∧
      (t.dec.px.r.toNat : Int) = (s.dec.px.r.toNat + dr) % 256 ∧ (t.dec.px.g.toNat : Int) = (s.dec.px.g.toNat + dg) % 256 ∧
      (t.dec.px.b.toNat : Int) = (s.dec.px.b.toNat + db) % 256 ∧ t.dec.px.a = s.dec.px.a

/-- DIFF3 completes: each channel plus its delta modulo 256 (R160). -/
def Obligations.Diff3AddsDeltas : Prop :=
  ∀ (dr dg db da : Int) (s : State), (Instr.diff3 dr dg db da).wf = true → ChunkReady s.dec →
    ∃ t, exec (.diff3 dr dg db da) s = .next t ∧ Delivered s.dec t.dec true t.dec.px 0 ∧
      (t.dec.px.r.toNat : Int) = (s.dec.px.r.toNat + dr) % 256 ∧ (t.dec.px.g.toNat : Int) = (s.dec.px.g.toNat + dg) % 256 ∧
      (t.dec.px.b.toNat : Int) = (s.dec.px.b.toNat + db) % 256 ∧ (t.dec.px.a.toNat : Int) = (s.dec.px.a.toNat + da) % 256

/-- LIT completes: each channel present takes its byte, the others keep their value (R161). -/
def Obligations.LiteralReplacesChannels : Prop :=
  ∀ (r g b a : Option Byte) (s : State), ChunkReady s.dec →
    ∃ t, exec (.lit r g b a) s = .next t ∧ Delivered s.dec t.dec true t.dec.px 0 ∧
      (∀ x, r = some x → t.dec.px.r = x) ∧ (r = none → t.dec.px.r = s.dec.px.r) ∧
      (∀ x, g = some x → t.dec.px.g = x) ∧ (g = none → t.dec.px.g = s.dec.px.g) ∧
      (∀ x, b = some x → t.dec.px.b = x) ∧ (b = none → t.dec.px.b = s.dec.px.b) ∧
      (∀ x, a = some x → t.dec.px.a = x) ∧ (a = none → t.dec.px.a = s.dec.px.a)

/-- The frame of every chunk: the encoder, the host's script and the decoder's other registers and ports are unchanged; no
byte is consumed by exec itself; D.run changes by a run chunk only, and a run chunk changes no pixel; STATUS and the phase
change at the last pixel only; every byte of the output grid but the four of pixel D.k is unchanged; every cache slot but
the delivered pixel's is unchanged, and all of them for INDEX (R31, R151, R152, R163). -/
def Obligations.ChunkFrame : Prop :=
  ∀ (i : Instr) (s t : State), exec i s = .next t →
    t.enc = s.enc ∧ t.script = s.script ∧ DecKept s.dec t.dec ∧ t.dec.pos = s.dec.pos ∧ t.dec.ended = s.dec.ended ∧
    ((∃ count, i = .runS count ∨ i = .runL count) → t.dec.px = s.dec.px) ∧
    ((∀ count, i ≠ .runS count ∧ i ≠ .runL count) → t.dec.run = s.dec.run) ∧
    (s.dec.k + 1 ≠ s.dec.n → t.dec.status = s.dec.status ∧ t.dec.phase = s.dec.phase) ∧
    (∀ a : Nat, a < 4 * s.dec.k.toNat ∨ 4 * s.dec.k.toNat + 4 ≤ a → memRead t.dec.grid a = memRead s.dec.grid a) ∧
    (∀ j : Fin 64, ((∃ slot, i = .index slot) ∨ j ≠ pixelHash t.dec.px) → t.dec.cache[j.val] = s.dec.cache[j.val])

/-- When a chunk does not run: an operand out of range spells nothing (R96), a chunk that is not the next one of a running
pass has no meaning (R203), and no pixel is delivered outside the grid (R61). The three reasons and their order are the
model's choice (log 12, log 14). -/
def Obligations.ChunkStops : Prop :=
  ∀ (i : Instr) (s : State),
    (i.wf = false → exec i s = .refused .operandRange) ∧
    (i.wf = true → ¬(s.dec.phase = .pix ∧ s.dec.run = 0) → exec i s = .refused .chunkOutOfStream) ∧
    (i.wf = true → s.dec.phase = .pix → s.dec.run = 0 → s.dec.n.toNat ≤ s.dec.k.toNat →
      exec i s = .fault .outputGridRange)

/-! ### The stream decoder -/

/-- The decoder moves next, in its pixel phase (the script is empty: log 6, log 7). -/
abbrev DecoderMoves (s : State) : Prop := s.script = [] ∧ s.dec.phase = .pix

/-- Where the bytes at D.pos hold a whole chunk `i`, whose bytes the host answers, a step is exec of `i` with D.pos past
the chunk (R149, R153). -/
def Obligations.StepRunsDecodedChunk : Prop :=
  ∀ (s : State) (i : Instr) (rest : List Byte), DecoderMoves s → s.dec.run = 0 → s.dec.ended = false →
    decode (s.dec.stream.drop s.dec.pos.toNat) = .ok (i, rest) →
    s.dec.pos.toNat + (encode i).length < 2 ^ 64 →
    (∀ j, j < (encode i).length → s.dec.srcFail ≠ some (s.dec.pos.toNat + j)) →
    step s = exec i { s with dec := { s.dec with pos := s.dec.pos + BitVec.ofNat 64 (encode i).length } }

/-- An operand byte missing at the end of the input reads 0x00, "as if the stream's zero padding were present" (R154). -/
def Obligations.MissingOperandsReadZero : Prop :=
  ∀ (s : State) (b0 : Byte) (ops : List Byte), DecoderMoves s → s.dec.run = 0 → s.dec.ended = false →
    s.dec.stream.drop s.dec.pos.toNat = b0 :: ops → ops.length + 1 < tagLength b0 →
    s.dec.pos.toNat + ops.length + 1 < 2 ^ 64 →
    (∀ j, j ≤ ops.length + 1 → s.dec.srcFail ≠ some (s.dec.pos.toNat + j)) →
    step s = exec (decodeChunk b0 (ops ++ List.replicate (tagLength b0 - 1 - ops.length) 0x00))
      { s with dec := { s.dec with pos := s.dec.pos + BitVec.ofNat 64 (ops.length + 1), ended := true } }

/-- A run continues: no byte is read, the current pixel is delivered again and stored, D.run goes down by one (R165,
R163). -/
def Obligations.RunContinuation : Prop :=
  ∀ s : State, DecoderMoves s → s.dec.run ≠ 0 → s.dec.k.toNat < s.dec.n.toNat →
    ∃ t, step s = .next t ∧ Delivered s.dec t.dec true s.dec.px (s.dec.run - 1) ∧ DecKept s.dec t.dec ∧
      t.dec.pos = s.dec.pos ∧ t.dec.ended = s.dec.ended ∧ t.enc = s.enc

/-- The end of the input at a tag position: nothing is consumed, the current pixel is delivered and stored, and the host
answers EOI from then on (R164, R149). -/
def Obligations.EndOfInputRepeatsPixel : Prop :=
  ∀ s : State, DecoderMoves s → s.dec.run = 0 → s.dec.k.toNat < s.dec.n.toNat →
    (s.dec.ended = true ∨ (s.dec.stream.length ≤ s.dec.pos.toNat ∧ s.dec.srcFail ≠ some s.dec.pos.toNat)) →
    ∃ t, step s = .next t ∧ Delivered s.dec t.dec true s.dec.px 0 ∧ DecKept s.dec t.dec ∧
      t.dec.pos = s.dec.pos ∧ t.dec.ended = true ∧ t.enc = s.enc

/-- What an abort of the decoder leaves: IDLE, STATUS, ERR_POS; what was delivered stays (R178, R179). -/
structure DecAborted (d t : Decoder) (status : BitVec 8) (errPos : Nat) : Prop where
  phase_eq : t.phase = .idle
  status_eq : t.status = status
  errPos_eq : t.errPos.toNat = errPos
  grid_eq : t.grid = d.grid
  stream_eq : t.stream = d.stream

/-- An IOERR at the tag byte or at an operand byte of the next chunk aborts the pass at that read, with the number of
bytes consumed before it in ERR_POS, and delivers no pixel (R149, R177, R178, R179). -/
def Obligations.SourceErrorAborts : Prop :=
  ∀ (s : State) (j : Nat) (b0 : Byte) (ops : List Byte), DecoderMoves s → s.dec.run = 0 → s.dec.ended = false →
    s.dec.srcFail = some (s.dec.pos.toNat + j) → s.dec.pos.toNat + j < 2 ^ 64 →
    (j = 0 ∨ (s.dec.stream.drop s.dec.pos.toNat = b0 :: ops ∧ j < tagLength b0 ∧ j ≤ ops.length + 1)) →
    ∃ t, step s = .next t ∧ DecAborted s.dec t.dec 0x1C (s.dec.pos.toNat + j) ∧ t.enc = s.enc

/-- D.start: on an IDLE decoder the registers take their pass-start values (R148, R116), the cache transparent black; while
a pass runs it is refused (R202). -/
def Obligations.DecoderStart : Prop :=
  ∀ (s : State) (rest : List HostAction), s.script = .startDecoder :: rest →
    (s.dec.phase = .idle →
      ∃ t, step s = .next t ∧ t.script = rest ∧ t.enc = s.enc ∧
        t.dec.mode = (if s.dec.cfgMode = 0 then .full else .headerOnly) ∧ t.dec.pos = 0 ∧ t.dec.k = 0 ∧
        t.dec.px = ⟨0, 0, 0, 255⟩ ∧ t.dec.run = 0 ∧ (∀ i : Fin 64, t.dec.cache[i.val] = ⟨0, 0, 0, 0⟩) ∧
        t.dec.status = 0x01 ∧ t.dec.phase = .hdr) ∧
    (s.dec.phase ≠ .idle → step s = .refused .startWhileBusy)

/-- The decoder moves next, in its header phase, at the start of the stream. -/
abbrev DecoderReadsHeader (s : State) : Prop :=
  s.script = [] ∧ s.dec.phase = .hdr ∧ s.dec.pos = 0 ∧ s.dec.ended = false

/-- The byte of MAGIC at stream offset `j`. -/
def magicByte (j : Nat) : Byte := BitVec.ofNat 8 (Config.magic.toNat / 256 ^ (3 - j))

/-- A header of 14 bytes with the right magic is accepted: width and height big-endian, channel count and colorspace
ignored, 14 bytes consumed; a header-only pass and a pass without pixels are done, another goes on (R106, R110, R150). -/
def Obligations.HeaderAccepted : Prop :=
  ∀ (s : State) (w3 w2 w1 w0 h3 h2 h1 h0 channels colorspace : Byte) (rest : List Byte), DecoderReadsHeader s →
    (∀ j, j < 14 → s.dec.srcFail ≠ some j) →
    s.dec.stream = [magicByte 0, magicByte 1, magicByte 2, magicByte 3, w3, w2, w1, w0, h3, h2, h1, h0, channels,
      colorspace] ++ rest →
    ∃ t, step s = .next t ∧ t.enc = s.enc ∧ t.dec.pos = 14 ∧
      t.dec.width.toNat = w3.toNat * 2 ^ 24 + w2.toNat * 2 ^ 16 + w1.toNat * 2 ^ 8 + w0.toNat ∧
      t.dec.height.toNat = h3.toNat * 2 ^ 24 + h2.toNat * 2 ^ 16 + h1.toNat * 2 ^ 8 + h0.toNat ∧
      t.dec.n.toNat = t.dec.width.toNat * t.dec.height.toNat ∧
      (s.dec.mode = .headerOnly ∨ t.dec.n = 0 → t.dec.phase = .idle ∧ t.dec.status = 0x02) ∧
      (s.dec.mode = .full → t.dec.n ≠ 0 → t.dec.phase = .pix ∧ t.dec.status = s.dec.status) ∧
      t.dec.px = s.dec.px ∧ t.dec.run = s.dec.run ∧ t.dec.cache = s.dec.cache ∧ t.dec.k = s.dec.k ∧
      t.dec.grid = s.dec.grid

/-- An input of fewer than 14 bytes is a truncated header, whatever its first bytes are; ERR_POS is the number of bytes it
held (R106, R107, R109, R178). -/
def Obligations.TruncatedHeaderAborts : Prop :=
  ∀ s : State, DecoderReadsHeader s → s.dec.stream.length < 14 →
    (∀ j, j ≤ s.dec.stream.length → s.dec.srcFail ≠ some j) →
    ∃ t, step s = .next t ∧ DecAborted s.dec t.dec 0x0C s.dec.stream.length ∧ t.enc = s.enc

/-- Fourteen bytes whose first four are not MAGIC are a bad magic, with 14 in ERR_POS (R106, R108, R109, R178). -/
def Obligations.BadMagicAborts : Prop :=
  ∀ s : State, DecoderReadsHeader s → 14 ≤ s.dec.stream.length → (∀ j, j < 14 → s.dec.srcFail ≠ some j) →
    (∃ j, j < 4 ∧ s.dec.stream[j]? ≠ some (magicByte j)) →
    ∃ t, step s = .next t ∧ DecAborted s.dec t.dec 0x14 14 ∧ t.enc = s.enc

/-- An IOERR inside the header aborts the pass at that read (R106, R149, R178). -/
def Obligations.HeaderSourceErrorAborts : Prop :=
  ∀ (s : State) (j : Nat), DecoderReadsHeader s → j < 14 → j ≤ s.dec.stream.length → s.dec.srcFail = some j →
    ∃ t, step s = .next t ∧ DecAborted s.dec t.dec 0x1C j ∧ t.enc = s.enc

/-- D.pos never moves backwards and moves by at most 14 in a step of the decoder that does not abort (R30); an abort shows
in STATUS.ERR. -/
def Obligations.PositionAdvances : Prop :=
  ∀ s t : State, s.script = [] → s.dec.phase ≠ .idle → step s = .next t →
    errBit t.dec.status = true ∨
      (s.dec.pos.toNat ≤ t.dec.pos.toNat ∧ t.dec.pos.toNat ≤ s.dec.pos.toNat + 14)

/-- A pass in its pixel phase over a source that never answers IOERR ends successfully after exactly as many steps as
pixels are left, whatever the rest of the stream holds (R16, R168, R169, R209). -/
def Obligations.DecoderPassEnds : Prop :=
  ∀ s : State, Inv s → DecoderMoves s → s.dec.srcFail = none → s.dec.stream.length < 2 ^ 64 →
    ∃ t : State, Host.Core.run Sys2Proof.core (s.dec.n.toNat - s.dec.k.toNat) s = .next t ∧
      t.dec.phase = .idle ∧ t.dec.status = 0x02 ∧ t.dec.k = t.dec.n ∧ holdsPixels t.dec.grid t.dec.n.toNat = true

/-! ### The colour cache and the arithmetic -/

/-- `Hash` is the exclusive or of the channels modulo 64 (R113). -/
def Obligations.HashIsXorModulo64 : Prop :=
  ∀ p : Pixel, (pixelHash p).val = (p.r.toNat ^^^ p.g.toNat ^^^ p.b.toNat ^^^ p.a.toNat) % 64

/-- A slot reads what was last stored in it, and a store evicts nothing else (R114, R115, R117). -/
def Obligations.CacheReadAfterStore : Prop :=
  ∀ (c : Cache) (i j : Fin 64) (p : Pixel),
    cacheLookup (cacheStore c i p) j = if j = i then p else cacheLookup c j

/-- The channel delta lies in -128..127 and gives the new value back modulo 256 (R10). -/
def Obligations.DeltaRecomposes : Prop :=
  ∀ x y : Byte, -128 ≤ sdelta x y ∧ sdelta x y ≤ 127 ∧ addDelta y (sdelta x y) = x

/-- The input grid the host supplies: pixel number `j` is the `j`-th port word, r in its top byte (R60, R64). -/
def Obligations.InputGridLayout : Prop :=
  ∀ (words : List (BitVec 32)) (j : Nat),
    readPixel (gridOf 0 words) j = (words[j]?).map (fun w =>
      ⟨BitVec.ofNat 8 (w.toNat / 2 ^ 24), BitVec.ofNat 8 (w.toNat / 2 ^ 16), BitVec.ofNat 8 (w.toNat / 2 ^ 8),
        BitVec.ofNat 8 w.toNat⟩)

/-! ### The stream encoder -/

/-- E.start: on an IDLE encoder to which exactly `N` pixels are supplied (R200) the registers take their pass-start values
(R122, R116), the cache transparent black; with any other number of pixels the engine is stuck (R200), which the model
says by a fault of the start (the model's choice, log 10); while a pass runs the start is refused (R202). -/
def Obligations.EncoderStart : Prop :=
  ∀ (s : State) (rest : List HostAction), s.script = .startEncoder :: rest →
    (s.enc.phase = .idle → holdsPixels s.enc.grid (s.enc.cfgWidth.toNat * s.enc.cfgHeight.toNat) = true →
      ∃ t, step s = .next t ∧ t.script = rest ∧ t.dec = s.dec ∧ t.enc.width = s.enc.cfgWidth ∧
        t.enc.height = s.enc.cfgHeight ∧ t.enc.n.toNat = s.enc.cfgWidth.toNat * s.enc.cfgHeight.toNat ∧ t.enc.k = 0 ∧
        t.enc.prev = ⟨0, 0, 0, 255⟩ ∧ t.enc.run = 0 ∧ (∀ i : Fin 64, t.enc.cache[i.val] = ⟨0, 0, 0, 0⟩) ∧
        t.enc.outcount = 0 ∧ t.enc.status = 0x01 ∧ t.enc.phase = .hdr) ∧
    (s.enc.phase = .idle → holdsPixels s.enc.grid (s.enc.cfgWidth.toNat * s.enc.cfgHeight.toNat) = false →
      step s = .fault .hostPixelCount) ∧
    (s.enc.phase ≠ .idle → step s = .refused .startWhileBusy)

/-- The host accepts the encoder's next `count` bytes. -/
abbrev SinkAccepts (e : Encoder) (count : Nat) : Prop :=
  e.outcount.toNat + count < 2 ^ 64 ∧ ∀ j, j < count → e.sinkFail ≠ some (e.outcount.toNat + j)

/-- The encoder after `bytes` were accepted: they end the output stream, and E.outcount counts them (R124). -/
structure Wrote (e t : Encoder) (bytes : List Byte) : Prop where
  out_eq : t.out = e.out ++ bytes
  outcount_eq : t.outcount.toNat = e.outcount.toNat + bytes.length

/-- An encoder step leaves the decoder and the host's script alone, whether or not a decoder pass runs (R14, R70). -/
abbrev OnlyEncoder (s t : State) : Prop := t.dec = s.dec ∧ t.script = s.script

/-- The header step writes MAGIC, width and height big-endian, 4 and 0, and goes on to the pixels, or to the padding of an
image without pixels (R105, R123). -/
def Obligations.EncoderWritesHeader : Prop :=
  ∀ s : State, SinkAccepts s.enc 14 → s.enc.phase = .hdr →
    ∃ t, encoderStep s = .next t ∧ OnlyEncoder s t ∧ EncKept s.enc t.enc ∧
      Wrote s.enc t.enc ([magicByte 0, magicByte 1, magicByte 2, magicByte 3] ++
        [BitVec.ofNat 8 (s.enc.width.toNat / 2 ^ 24), BitVec.ofNat 8 (s.enc.width.toNat / 2 ^ 16),
          BitVec.ofNat 8 (s.enc.width.toNat / 2 ^ 8), BitVec.ofNat 8 s.enc.width.toNat] ++
        [BitVec.ofNat 8 (s.enc.height.toNat / 2 ^ 24), BitVec.ofNat 8 (s.enc.height.toNat / 2 ^ 16),
          BitVec.ofNat 8 (s.enc.height.toNat / 2 ^ 8), BitVec.ofNat 8 s.enc.height.toNat] ++ [4, 0]) ∧
      t.enc.phase = (if s.enc.n = 0 then .pad else .pix) ∧ t.enc.status = s.enc.status ∧ t.enc.k = s.enc.k ∧
      t.enc.prev = s.enc.prev ∧ t.enc.run = s.enc.run ∧ t.enc.cache = s.enc.cache

/-- What a pixel step of the encoder emits and what becomes of the run, from R125 and R127: `c` is the run length after
the accumulation. -/
def pixelStepChunks (e : Encoder) (px : Pixel) : List Instr × Nat :=
  let c := if px = e.prev then e.run.toNat + 1 else e.run.toNat
  let last := e.k.toNat + 1 = e.n.toNat
  let flush := 0 < c ∧ (c = 8224 ∨ px ≠ e.prev ∨ last)
  ((if flush then [if c < 33 then .runS c else .runL c] else []) ++
    (if px = e.prev then [] else
      [if e.cache[(pixelHash px).val] = px then .index (pixelHash px) else tierFor px e.prev]),
   if flush then 0 else c)

/-- The pixel step: the chunks it writes, the run, the previous pixel, the cache, the pixel index and the phase (R125,
R127, R128, R129, R130). -/
def Obligations.EncoderPixelStep : Prop :=
  ∀ (s : State) (px : Pixel), SinkAccepts s.enc 7 → s.enc.phase = .pix → s.enc.run.toNat ≤ 8223 →
    s.enc.k.toNat < s.enc.n.toNat → readPixel s.enc.grid s.enc.k.toNat = some px →
    ∃ t, encoderStep s = .next t ∧ OnlyEncoder s t ∧ EncKept s.enc t.enc ∧
      Wrote s.enc t.enc ((pixelStepChunks s.enc px).1.flatMap encode) ∧
      t.enc.run.toNat = (pixelStepChunks s.enc px).2 ∧ t.enc.prev = px ∧ t.enc.k = s.enc.k + 1 ∧
      t.enc.phase = (if s.enc.k + 1 = s.enc.n then .pad else .pix) ∧ t.enc.status = s.enc.status ∧
      t.enc.cache = (if px = s.enc.prev ∨ s.enc.cache[(pixelHash px).val] = px then s.enc.cache
        else s.enc.cache.set (pixelHash px).val px)

/-- The tier for a differing pixel is the smallest that holds the wrapped deltas, else a literal of exactly the channels
that changed (R131, R138, R139). -/
def Obligations.SmallestTier : Prop :=
  ∀ px prev : Pixel,
    let dr := sdelta px.r prev.r
    let dg := sdelta px.g prev.g
    let db := sdelta px.b prev.b
    let da := sdelta px.a prev.a
    let fits1 := (Instr.diff1 dr dg db).wf = true ∧ da = 0
    let fits2 := (Instr.diff2 dr dg db).wf = true ∧ da = 0
    let fits3 := (Instr.diff3 dr dg db da).wf = true
    (fits1 → tierFor px prev = .diff1 dr dg db) ∧
    (¬fits1 → fits2 → tierFor px prev = .diff2 dr dg db) ∧
    (¬fits1 → ¬fits2 → fits3 → tierFor px prev = .diff3 dr dg db da) ∧
    (¬fits1 → ¬fits2 → ¬fits3 → tierFor px prev =
      .lit (if px.r = prev.r then none else some px.r) (if px.g = prev.g then none else some px.g)
        (if px.b = prev.b then none else some px.b) (if px.a = prev.a then none else some px.a))

/-- The padding step writes four zero bytes and ends the pass (R126, R95). -/
def Obligations.EncoderWritesPadding : Prop :=
  ∀ s : State, SinkAccepts s.enc 4 → s.enc.phase = .pad →
    ∃ t, encoderStep s = .next t ∧ OnlyEncoder s t ∧ EncKept s.enc t.enc ∧ Wrote s.enc t.enc [0x00, 0x00, 0x00, 0x00] ∧
      t.enc.phase = .idle ∧ t.enc.status = 0x02

/-- An IOERR at the `j`-th write of a step aborts the pass there: the bytes before it stay in the output stream, ERR_POS
counts the bytes the host has accepted in the pass, and the decoder, running or not, is untouched (R124, R177, R178,
R179). -/
def Obligations.SinkErrorAborts : Prop :=
  ∀ (s : State) (j : Nat), s.enc.phase ≠ .idle →
    (s.enc.phase = .pix → (pixIn s.enc).isSome = true) →
    j < (stepBytes s.enc).length → s.enc.outcount.toNat + j < 2 ^ 64 →
    s.enc.sinkFail = some (s.enc.outcount.toNat + j) →
    ∃ t, encoderStep s = .next t ∧ OnlyEncoder s t ∧ t.enc.phase = .idle ∧ t.enc.status = 0x24 ∧
      t.enc.errPos.toNat = s.enc.outcount.toNat + j ∧ t.enc.out = s.enc.out ++ (stepBytes s.enc).take j

/-- A pixel step writes at most seven bytes, and every chunk it writes is well formed (R141, R96). -/
def Obligations.PixelStepBytesBounded : Prop :=
  ∀ (prev px : Pixel) (run : BitVec 14) (last : Bool) (cache : Cache), run.toNat ≤ 8223 →
    (chunkEnc prev px run last cache).bytes.length ≤ 7 ∧
      ∀ i ∈ (chunkEnc prev px run last cache).chunks, i.wf = true

/-- Output bytes and delivered pixels are final: a step of either engine only appends to the output stream, and leaves every
pixel already delivered (R71, R124, R61). -/
def Obligations.OutputsAreFinal : Prop :=
  ∀ (e : Engine) (s t : State), engineTurn e s = .next t →
    (∃ bytes, t.enc.out = s.enc.out ++ bytes) ∧
    (∀ j, j < s.dec.k.toNat → readPixel t.dec.grid j = readPixel s.dec.grid j)

/-- The encoder takes the next `count` steps: no host action is left and the decoder is IDLE, or the host gives the encoder
these turns, whatever the decoder does (log 6, log 7). `rest` is the script after them. -/
abbrev EncoderMoves (s : State) (count : Nat) (rest : List HostAction) : Prop :=
  (s.script = [] ∧ s.dec.phase = .idle ∧ rest = []) ∨ s.script = List.replicate count (.turn .encoder) ++ rest

/-- An encoder pass without an error: one header step, `N` pixel steps, one padding step, and the output stream is the
header, chunks of at most 5N bytes, and the padding; 18 bytes for a zero area (R16, R141, R143, R209). -/
def Obligations.EncoderPassEnds : Prop :=
  ∀ (s : State) (rest : List HostAction), EncInv s.enc → EncoderMoves s (s.enc.n.toNat + 2) rest →
    s.enc.phase = .hdr → s.enc.sinkFail = none → 5 * s.enc.n.toNat + 18 < 2 ^ 64 →
    ∃ (t : State) (chunks : List Byte), Host.Core.run Sys2Proof.core (s.enc.n.toNat + 2) s = .next t ∧
      t.script = rest ∧ t.dec = s.dec ∧
      t.enc.phase = .idle ∧ t.enc.status = 0x02 ∧ t.enc.k = t.enc.n ∧
      t.enc.out = s.enc.out ++ headerBytes s.enc.width s.enc.height ++ chunks ++ [0x00, 0x00, 0x00, 0x00] ∧
      chunks.length ≤ 5 * s.enc.n.toNat ∧ t.enc.outcount.toNat = 18 + chunks.length

/-! ### Encoder and decoder together -/

/-- The chunk the encoder emits for a pixel that differs from the previous one, run by a decoder whose current pixel is
that previous one and whose cache agrees with the encoder's, gives the pixel back, and the caches still agree (R121,
R129, R17). -/
def Obligations.PixelChunkRoundTrip : Prop :=
  ∀ (s : State) (px : Pixel) (cache : Cache), ChunkReady s.dec → px ≠ s.dec.px → CachesAgree cache s.dec.cache →
    ∃ t, exec (encodePixel px s.dec.px cache).1 s = .next t ∧ Delivered s.dec t.dec
        (decide (cacheLookup cache (pixelHash px) ≠ px)) px 0 ∧
      CachesAgree (encodePixel px s.dec.px cache).2 t.dec.cache

/-- Round trip: for every image of fewer than 2^64 stream bytes, an encoder pass over it ends successfully, and a full
decoder pass over the encoder's output ends successfully and delivers the same grid (R17). -/
def Obligations.PassRoundTrip : Prop :=
  ∀ (s : State) (image : List (BitVec 32)), s.script = [] → s.enc.phase = .idle → s.dec.phase = .idle →
    s.enc.sinkFail = none → s.dec.srcFail = none → s.dec.cfgMode = 0 → s.enc.grid = gridOf 0 image →
    image.length = s.enc.cfgWidth.toNat * s.enc.cfgHeight.toNat → 5 * image.length + 18 < 2 ^ 64 →
    ∃ t : State,
      Host.Core.run Sys2Proof.core (image.length + 3) { s with script := [HostAction.startEncoder] } = .next t ∧
      t.enc.status = 0x02 ∧
      ∃ u : State,
        Host.Core.run Sys2Proof.core (image.length + 3)
          { t with script := [HostAction.supplyStream t.enc.out, HostAction.startDecoder] } = .next u ∧
        u.dec.status = 0x02 ∧ u.dec.grid = gridOf 0 image

/-- The engines share nothing: the order of an encoder step and a decoder step cannot be seen (R14, R70, R189). -/
def Obligations.EngineStepsCommute : Prop :=
  ∀ s t u : State, encoderStep s = .next t → decoderStep s = .next u →
    ∃ v, decoderStep t = .next v ∧ encoderStep u = .next v ∧ v.enc = t.enc ∧ v.dec = u.dec

/-! ### Reset, host actions, the whole machine -/

/-- After reset both engines are IDLE with STATUS 0x00, and a step waits (R33, R197). -/
def Obligations.ResetState : Prop :=
  State.reset.enc.phase = .idle ∧ State.reset.enc.status = 0x00 ∧ State.reset.dec.phase = .idle ∧
    State.reset.dec.status = 0x00 ∧ step State.reset = .next State.reset

/-- A hardware reset at any time, between two steps or after `written` byte writes of the encoder step in progress, leaves
both engines IDLE with STATUS 0x00, and what was delivered stays: the output stream ends in the bytes of that step that
the host accepted before the reset, and the output grid is as before (R196, R33, R179). Where a reset can fall inside a
step is the model's (log 6, log 17). -/
def Obligations.HardwareReset : Prop :=
  ∀ (s : State) (written : Nat) (rest : List HostAction), s.script = .reset written :: rest →
    let bytes := (stepBytes s.enc).take written
    s.enc.outcount.toNat + bytes.length < 2 ^ 64 →
    ∃ (t : State) (accepted : Nat), step s = .next t ∧ t.script = rest ∧ t.enc.phase = .idle ∧ t.enc.status = 0x00 ∧
      t.dec.phase = .idle ∧ t.dec.status = 0x00 ∧ t.dec.grid = s.dec.grid ∧
      t.enc.out = s.enc.out ++ bytes.take accepted ∧
      ((∀ j, j < bytes.length → s.enc.sinkFail ≠ some (s.enc.outcount.toNat + j)) → accepted = bytes.length) ∧
      (∀ j, j < bytes.length → s.enc.sinkFail = some (s.enc.outcount.toNat + j) → accepted = j)

/-- Driving a configuration port writes that port alone, and a step of either engine gives the same with any value on its
ports (R202). -/
def Obligations.ConfigurationSampledAtStart : Prop :=
  ∀ (s : State) (rest : List HostAction) (w h : BitVec 32) (m : BitVec 1),
    (s.script = .setWidth w :: rest →
      step s = .next { s with script := rest, enc := { s.enc with cfgWidth := w } }) ∧
    (s.script = .setHeight h :: rest →
      step s = .next { s with script := rest, enc := { s.enc with cfgHeight := h } }) ∧
    (s.script = .setMode m :: rest →
      step s = .next { s with script := rest, dec := { s.dec with cfgMode := m } }) ∧
    (∀ t, encStep { s.enc with cfgWidth := w, cfgHeight := h } = .next t →
      ∃ e, encStep s.enc = .next e ∧ t = { e with cfgWidth := w, cfgHeight := h }) ∧
    (∀ t, decoderStep { s with dec := { s.dec with cfgMode := m } } = .next t →
      ∃ u, decoderStep s = .next u ∧ t = { u with dec := { u.dec with cfgMode := m } })

/-- The grid of these pixels differs from the encoder's at a byte of a pixel from E.k on. -/
def UnreadPixelChanged (e : Encoder) (pixels : List (BitVec 32)) : Prop :=
  ∃ a, 4 * e.k.toNat ≤ a ∧ memRead (gridOf 0 pixels) a ≠ memRead e.grid a

/-- During a pass the host may not change what the engine has not yet read, the stream from D.pos on and the grid from
pixel E.k on; what it has already read may change, and does nothing to the pass (R73, R200). That the machine stops with a
named fault is the model's form of the spec's "stuck" (U14, log 10). -/
def Obligations.UnreadInputIsFixed : Prop :=
  ∀ (s : State) (rest : List HostAction) (bytes : List Byte) (pixels : List (BitVec 32)),
    (s.script = .supplyStream bytes :: rest → s.dec.phase ≠ .idle →
      (bytes.drop s.dec.pos.toNat ≠ s.dec.stream.drop s.dec.pos.toNat → step s = .fault .hostChangedInput) ∧
      (bytes.drop s.dec.pos.toNat = s.dec.stream.drop s.dec.pos.toNat →
        step s = .next { s with script := rest, dec := { s.dec with stream := bytes } })) ∧
    (s.script = .supplyGrid pixels :: rest → s.enc.phase ≠ .idle → Memory.wf s.enc.grid →
      (UnreadPixelChanged s.enc pixels → step s = .fault .hostChangedInput) ∧
      (¬UnreadPixelChanged s.enc pixels →
        step s = .next { s with script := rest, enc := { s.enc with grid := gridOf 0 pixels } }))

/-- The invariant holds at reset. -/
def Obligations.InvAtReset : Prop := Inv State.reset

/-- Every step keeps the invariant: legal STATUS words (R28), E.N and D.N the pixel count (R20, R22), E.run and D.run at
most 8223 (R21, R23), the slot invariant of both caches (R120), E.outcount the length of the output stream (R20), the
output grid exactly the pixels delivered (R61, R169), and the canonical form of both memories. -/
def Obligations.StepKeepsInv : Prop := ∀ s t : State, Inv s → step s = .next t → Inv t

/-- From a state of the invariant a step faults only where the host starts the encoder with another number of pixels than
N, or changes an unread input during a pass (R200), and is refused only for a start while a pass runs (R202) or for a
stream of more than 2^64 - 1 bytes, the decoder's input or the encoder's output (R30). The names and the moments of the
stops are the model's choice (log 10, log 13). -/
def Obligations.StopsHaveNamedCauses : Prop :=
  ∀ s : State, Inv s →
    (∀ f, step s = .fault f →
      (f = .hostPixelCount ∧ (∃ rest, s.script = .startEncoder :: rest) ∧ s.enc.phase = .idle ∧
        holdsPixels s.enc.grid (s.enc.cfgWidth.toNat * s.enc.cfgHeight.toNat) = false) ∨
      (f = .hostChangedInput ∧
        ((∃ pixels rest, s.script = .supplyGrid pixels :: rest ∧ s.enc.phase ≠ .idle ∧ UnreadPixelChanged s.enc pixels) ∨
          ∃ bytes rest, s.script = .supplyStream bytes :: rest ∧ s.dec.phase ≠ .idle ∧
            bytes.drop s.dec.pos.toNat ≠ s.dec.stream.drop s.dec.pos.toNat))) ∧
    (∀ r, step s = .refused r →
      (r = .startWhileBusy ∧
        ((∃ rest, s.script = .startEncoder :: rest ∧ s.enc.phase ≠ .idle) ∨
          ∃ rest, s.script = .startDecoder :: rest ∧ s.dec.phase ≠ .idle)) ∨
      (r = .streamTooLong ∧
        ((s.dec.phase ≠ .idle ∧ 2 ^ 64 ≤ s.dec.stream.length) ∨
          2 ^ 64 ≤ s.enc.outcount.toNat + (stepBytes s.enc).length)))

/-! ### Turns, waiting, the output port -/

/-- A step is the step of the engine that moves: of the one the host gives the turn to, in any state, else of the decoder
if a pass of it runs, else of the encoder (R14, R15). Turns and the order are the model's choice (log 6, log 7). -/
def Obligations.TurnRunsEngine : Prop :=
  ∀ (s : State) (rest : List HostAction),
    (s.script = .turn .encoder :: rest → step s = encoderStep { s with script := rest }) ∧
    (s.script = .turn .decoder :: rest → step s = decoderStep { s with script := rest }) ∧
    (s.script = [] → s.dec.phase ≠ .idle → step s = decoderStep s) ∧
    (s.script = [] → s.dec.phase = .idle → step s = encoderStep s)

/-- `o` with the next state changed by `f`. -/
def mapNext (f : State → State) : Host.Outcome State Fault Refusal → Host.Outcome State Fault Refusal
  | .next t => .next (f t)
  | .fault x => .fault x
  | .refused r => .refused r

/-- An engine's step neither depends on the other engine and the host's actions to come, nor changes them (R14, R70,
R189). -/
def Obligations.EngineStepsAreLocal : Prop :=
  ∀ (s : State) (enc : Encoder) (dec : Decoder) (script : List HostAction),
    encoderStep { s with dec := dec, script := script } =
      mapNext (fun t => { t with dec := dec, script := script }) (encoderStep s) ∧
    decoderStep { s with enc := enc, script := script } =
      mapNext (fun t => { t with enc := enc, script := script }) (decoderStep s)

/-- With both engines IDLE and no host action, a step waits: it changes nothing. An IDLE engine keeps its phase, STATUS and
ERR_POS in every step but its own start and a reset, whatever the other engine and the host do (R191). That waiting is a
step is the model's choice (log 6). -/
def Obligations.IdleEnginesWait : Prop :=
  (∀ s : State, s.script = [] → s.enc.phase = .idle → s.dec.phase = .idle → step s = .next s) ∧
  ∀ s t : State, step s = .next t → (∀ written rest, s.script ≠ .reset written :: rest) →
    (s.enc.phase = .idle → (∀ rest, s.script ≠ .startEncoder :: rest) →
      t.enc.phase = .idle ∧ t.enc.status = s.enc.status ∧ t.enc.errPos = s.enc.errPos) ∧
    (s.dec.phase = .idle → (∀ rest, s.script ≠ .startDecoder :: rest) →
      t.dec.phase = .idle ∧ t.dec.status = s.dec.status ∧ t.dec.errPos = s.dec.errPos)

/-- The words of a grid are the words it was filled with: words to bytes and bytes to words lose nothing (R60, R61,
R64). -/
def Obligations.OutputGridWords : Prop :=
  ∀ words : List (BitVec 32), gridWords (gridOf 0 words) words.length = words

/-- In its pixel phase the decoder delivers one word on D.pix_out with every step that does not abort: the current pixel,
r in bits 31:24, g in 23:16, b in 15:8, a in 7:0; an abort delivers none (R61, R64, R151, R179). -/
def Obligations.OutputWords : Prop :=
  ∀ s t : State, DecInv s.dec → s.dec.phase = .pix → decoderStep s = .next t →
    (errBit t.dec.status = true ∧ pixOut t = pixOut s) ∨
      (errBit t.dec.status = false ∧ ∃ word : BitVec 32, pixOut t = pixOut s ++ [word] ∧
        word.toNat = t.dec.px.r.toNat * 2 ^ 24 + t.dec.px.g.toNat * 2 ^ 16 + t.dec.px.b.toNat * 2 ^ 8 + t.dec.px.a.toNat)
end

