-- ==== Sys2Proof/Laws/Memory.lean ====
section
/-! SUPPORT. The laws of byte-addressed memory: read after write, frame, canonical form, and grids of whole pixels. -/

namespace Sys2Proof.Machine

/-! ### One byte -/

@[simp] theorem memRead_memWrite_same (m : Memory) (a : Nat) (v : Byte) : memRead (memWrite m a v) a = some v := by
  induction m with
  | nil => simp [memWrite, memRead]
  | cons c cs ih =>
    simp only [memWrite]
    split
    · simp [memRead]
    · split
      · simp [memRead]
      · rename_i h1 h2
        simp [memRead, Ne.symm h2, ih]

theorem memRead_memWrite_other (m : Memory) {a a' : Nat} (v : Byte) (h : a' ≠ a) :
    memRead (memWrite m a v) a' = memRead m a' := by
  induction m with
  | nil => simp [memWrite, memRead, Ne.symm h]
  | cons c cs ih =>
    simp only [memWrite]
    split
    · simp [memRead, Ne.symm h]
    · split
      · rename_i h1 h2
        subst h2
        simp [memRead, Ne.symm h]
      · simp [memRead, ih]

theorem mem_memWrite {m : Memory} {a : Nat} {v : Byte} {c : Host.Cell} (h : c ∈ memWrite m a v) : c = (a, v) ∨ c ∈ m := by
  induction m with
  | nil => simpa [memWrite] using h
  | cons d ds ih =>
    simp only [memWrite] at h
    split at h
    · simpa using h
    · split at h
      · rcases List.mem_cons.mp h with h | h
        · exact .inl h
        · exact .inr (List.mem_cons_of_mem _ h)
      · rcases List.mem_cons.mp h with h | h
        · exact .inr (by simp [h])
        · exact (ih h).imp id (List.mem_cons_of_mem _)

/-- Every write keeps the canonical form. -/
theorem memWrite_wf {m : Memory} (a : Nat) (v : Byte) (h : Memory.wf m) : Memory.wf (memWrite m a v) := by
  induction m with
  | nil => simp [memWrite, Memory.wf]
  | cons c cs ih =>
    obtain ⟨hc, hcs⟩ := List.pairwise_cons.mp h
    simp only [memWrite]
    split
    · rename_i hlt
      refine List.pairwise_cons.mpr ⟨fun d hd => ?_, h⟩
      rcases List.mem_cons.mp hd with rfl | hd
      · exact hlt
      · exact Nat.lt_trans hlt (hc d hd)
    · split
      · rename_i h1 h2
        subst h2
        exact List.pairwise_cons.mpr ⟨hc, hcs⟩
      · rename_i h1 h2
        refine List.pairwise_cons.mpr ⟨fun d hd => ?_, ih hcs⟩
        rcases mem_memWrite hd with rfl | hd
        · change c.1 < a
          omega
        · exact hc d hd

theorem length_memWrite_of_fresh {m : Memory} {a : Nat} (v : Byte) (h : ∀ c ∈ m, c.1 < a) :
    (memWrite m a v).length = m.length + 1 := by
  induction m with
  | nil => rfl
  | cons c cs ih =>
    have hc := h c (by simp)
    simp only [memWrite, if_neg (Nat.lt_asymm hc), if_neg (Nat.ne_of_gt hc), List.length_cons,
      ih (fun d hd => h d (List.mem_cons_of_mem _ hd))]

/-! ### One pixel -/

@[simp] theorem readPixel_writePixel_same (m : Memory) (j : Nat) (p : Pixel) :
    readPixel (writePixel m j p) j = some p := by
  simp [readPixel, writePixel, memRead_memWrite_other]

/-- A pixel write changes no byte outside its four. -/
theorem memRead_writePixel_other (m : Memory) {j a : Nat} (p : Pixel) (h : a < 4 * j ∨ 4 * j + 4 ≤ a) :
    memRead (writePixel m j p) a = memRead m a := by
  unfold writePixel
  rw [memRead_memWrite_other _ _ (by omega), memRead_memWrite_other _ _ (by omega),
    memRead_memWrite_other _ _ (by omega), memRead_memWrite_other _ _ (by omega)]

theorem readPixel_writePixel_other (m : Memory) {j i : Nat} (p : Pixel) (h : i ≠ j) :
    readPixel (writePixel m j p) i = readPixel m i := by
  unfold readPixel
  rw [memRead_writePixel_other m p (by omega), memRead_writePixel_other m p (by omega),
    memRead_writePixel_other m p (by omega), memRead_writePixel_other m p (by omega)]

theorem writePixel_wf {m : Memory} (j : Nat) (p : Pixel) (h : Memory.wf m) : Memory.wf (writePixel m j p) :=
  memWrite_wf _ _ (memWrite_wf _ _ (memWrite_wf _ _ (memWrite_wf _ _ h)))

/-! ### Grids -/

theorem holdsPixels_iff (m : Memory) (n : Nat) :
    holdsPixels m n = true ↔ m.length = 4 * n ∧ ∀ c ∈ m, c.1 < 4 * n := by
  simp [holdsPixels]

/-- Writing the next pixel of a grid that holds the first `k` gives one that holds the first `k + 1`. -/
theorem holdsPixels_writePixel {m : Memory} {k : Nat} (p : Pixel) (h : holdsPixels m k = true) :
    holdsPixels (writePixel m k p) (k + 1) = true := by
  obtain ⟨hl, hb⟩ := (holdsPixels_iff m k).mp h
  have b0 : ∀ c ∈ m, c.1 < 4 * k := hb
  have b1 : ∀ c ∈ memWrite m (4 * k) p.r, c.1 < 4 * k + 1 := fun c hc => by
    rcases mem_memWrite hc with rfl | hc
    · exact Nat.lt_succ_self _
    · exact Nat.lt_succ_of_lt (b0 c hc)
  have b2 : ∀ c ∈ memWrite (memWrite m (4 * k) p.r) (4 * k + 1) p.g, c.1 < 4 * k + 2 := fun c hc => by
    rcases mem_memWrite hc with rfl | hc
    · exact Nat.lt_succ_self _
    · exact Nat.lt_succ_of_lt (b1 c hc)
  have b3 : ∀ c ∈ memWrite (memWrite (memWrite m (4 * k) p.r) (4 * k + 1) p.g) (4 * k + 2) p.b, c.1 < 4 * k + 3 :=
    fun c hc => by
      rcases mem_memWrite hc with rfl | hc
      · exact Nat.lt_succ_self _
      · exact Nat.lt_succ_of_lt (b2 c hc)
  refine (holdsPixels_iff _ _).mpr ⟨?_, fun c hc => ?_⟩
  · unfold writePixel
    rw [length_memWrite_of_fresh _ b3, length_memWrite_of_fresh _ b2, length_memWrite_of_fresh _ b1,
      length_memWrite_of_fresh _ b0, hl]
    omega
  · rcases mem_memWrite hc with rfl | hc
    · change 4 * k + 3 < 4 * (k + 1)
      omega
    · have := b3 c hc
      omega

theorem gridOf_bounds (ws : List (BitVec 32)) : ∀ (j : Nat) (c : Host.Cell), c ∈ gridOf j ws → 4 * j ≤ c.1 ∧ c.1 < 4 * (j + ws.length) := by
  induction ws with
  | nil => intro j c h; simp [gridOf] at h
  | cons w ws ih =>
    intro j c h
    simp only [gridOf, List.mem_cons] at h
    rcases h with rfl | rfl | rfl | rfl | h
    all_goals try (simp only [List.length_cons]; omega)
    have := ih _ _ h
    simp only [List.length_cons]
    omega

/-- The grid the host supplies is in canonical form. -/
theorem gridOf_wf (ws : List (BitVec 32)) : ∀ j, Memory.wf (gridOf j ws) := by
  induction ws with
  | nil => intro j; simp [gridOf, Memory.wf]
  | cons w ws ih =>
    intro j
    have hb : ∀ c ∈ gridOf (j + 1) ws, 4 * j + 4 ≤ c.1 := fun c hc => by
      have := (gridOf_bounds ws _ c hc).1
      omega
    simp only [gridOf, Memory.wf, List.pairwise_cons, List.mem_cons]
    refine ⟨?_, ?_, ?_, fun c hc => ?_, ih (j + 1)⟩
    · rintro c (rfl | rfl | rfl | hc)
      all_goals first | (have := hb c hc; omega) | (simp)
    · rintro c (rfl | rfl | hc)
      all_goals first | (have := hb c hc; omega) | (simp)
    · rintro c (rfl | hc)
      all_goals first | (have := hb c hc; omega) | (simp)
    · have := hb c hc
      omega

theorem memRead_isSome_iff (m : Memory) (a : Nat) : (memRead m a).isSome = true ↔ ∃ c ∈ m, c.1 = a := by
  induction m with
  | nil => simp [memRead]
  | cons c cs ih =>
    by_cases h : c.1 = a
    · simp [memRead, h]
    · simp [memRead, h, ih]

/-- In a canonical grid that holds exactly the addresses of `n` pixels, every such address holds a byte. -/
theorem memRead_isSome_of_holdsPixels {m : Memory} {n a : Nat} (hw : Memory.wf m) (h : holdsPixels m n = true)
    (ha : a < 4 * n) : (memRead m a).isSome = true := by
  obtain ⟨hl, hb⟩ := (holdsPixels_iff m n).mp h
  rw [memRead_isSome_iff]
  have hnd : (m.map Prod.fst).Nodup := by
    rw [List.Nodup, List.pairwise_map]
    exact hw.imp (fun h => Nat.ne_of_lt h)
  have hsub : (m.map Prod.fst).toFinset ⊆ Finset.range (4 * n) := fun x hx => by
    obtain ⟨c, hc, rfl⟩ := List.mem_map.mp (List.mem_toFinset.mp hx)
    exact Finset.mem_range.mpr (hb c hc)
  have hcard : (m.map Prod.fst).toFinset.card = 4 * n := by
    rw [List.toFinset_card_of_nodup hnd, List.length_map, hl]
  have heq := Finset.eq_of_subset_of_card_le hsub (by rw [hcard, Finset.card_range])
  have : a ∈ (m.map Prod.fst).toFinset := heq ▸ Finset.mem_range.mpr ha
  obtain ⟨c, hc, rfl⟩ := List.mem_map.mp (List.mem_toFinset.mp this)
  exact ⟨c, hc, rfl⟩

theorem readPixel_isSome_of_bytes {m : Memory} {j : Nat} (h : ∀ a, 4 * j ≤ a → a < 4 * j + 4 → (memRead m a).isSome = true) :
    (readPixel m j).isSome = true := by
  obtain ⟨r, hr⟩ := Option.isSome_iff_exists.mp (h (4 * j) (by omega) (by omega))
  obtain ⟨g, hg⟩ := Option.isSome_iff_exists.mp (h (4 * j + 1) (by omega) (by omega))
  obtain ⟨b, hb⟩ := Option.isSome_iff_exists.mp (h (4 * j + 2) (by omega) (by omega))
  obtain ⟨a, ha⟩ := Option.isSome_iff_exists.mp (h (4 * j + 3) (by omega) (by omega))
  simp [readPixel, hr, hg, hb, ha]

theorem readPixel_isSome_of_holdsPixels {m : Memory} {n j : Nat} (hw : Memory.wf m) (h : holdsPixels m n = true)
    (hj : j < n) : (readPixel m j).isSome = true :=
  readPixel_isSome_of_bytes fun _ _ ha => memRead_isSome_of_holdsPixels hw h (by omega)

theorem memRead_unreadGrid (m : Memory) {k a : Nat} (h : 4 * k ≤ a) : memRead (unreadGrid m k) a = memRead m a := by
  induction m with
  | nil => rfl
  | cons c cs ih =>
    unfold unreadGrid at ih ⊢
    by_cases hc : 4 * k ≤ c.1
    · rw [List.filter_cons_of_pos (by simpa using hc)]
      simp only [memRead, ih]
    · rw [List.filter_cons_of_neg (by simpa using hc), ih]
      simp only [memRead]
      rw [if_neg (by omega)]

/-- Two grids with the same unread part read the same from there on. -/
theorem readPixel_eq_of_unreadGrid {m m' : Memory} {k j : Nat} (h : unreadGrid m k = unreadGrid m' k) (hj : k ≤ j) :
    readPixel m j = readPixel m' j := by
  have hr : ∀ a, 4 * k ≤ a → memRead m a = memRead m' a := fun a ha => by
    rw [← memRead_unreadGrid m ha, ← memRead_unreadGrid m' ha, h]
  unfold readPixel
  rw [hr _ (by omega), hr _ (by omega), hr _ (by omega), hr _ (by omega)]

theorem memRead_eq_none_of_lt {m : Memory} {a : Nat} (h : ∀ c ∈ m, a < c.1) : memRead m a = none := by
  rw [← Option.not_isSome_iff_eq_none, memRead_isSome_iff]
  rintro ⟨c, hc, rfl⟩
  exact Nat.lt_irrefl _ (h c hc)

/-- Canonical memories that read the same at every address are equal. -/
theorem memory_ext {m m' : Memory} (h : Memory.wf m) (h' : Memory.wf m') (hr : ∀ a, memRead m a = memRead m' a) :
    m = m' := by
  induction m generalizing m' with
  | nil =>
    cases m' with
    | nil => rfl
    | cons d ds => simpa [memRead] using hr d.1
  | cons c cs ih =>
    cases m' with
    | nil => simpa [memRead] using hr c.1
    | cons d ds =>
      obtain ⟨hc, hcs⟩ := List.pairwise_cons.mp h
      obtain ⟨hd, hds⟩ := List.pairwise_cons.mp h'
      have ge : ∀ {x y : Host.Cell} {xs ys : Memory}, (∀ z ∈ ys, y.1 < z.1) →
          memRead (x :: xs) x.1 = memRead (y :: ys) x.1 → y.1 ≤ x.1 := fun {x y xs ys} hy e => by
        by_contra hlt
        have : memRead (y :: ys) x.1 = none := memRead_eq_none_of_lt fun z hz => by
          rcases List.mem_cons.mp hz with rfl | hz
          · omega
          · have := hy z hz
            omega
        rw [this] at e
        simp [memRead] at e
      have ha : c.1 = d.1 := Nat.le_antisymm (ge hc (hr d.1).symm) (ge hd (hr c.1))
      have hv : c.2 = d.2 := by simpa [memRead, ha] using hr c.1
      have tails : cs = ds := ih hcs hds fun a => by
        by_cases h1 : c.1 = a
        · rw [memRead_eq_none_of_lt fun z hz => h1 ▸ hc z hz, memRead_eq_none_of_lt fun z hz => (ha ▸ h1) ▸ hd z hz]
        · simpa [memRead, h1, ← ha] using hr a
      rw [tails, Prod.ext ha hv]

/-- The unread parts of two canonical grids are equal exactly where every byte from there on reads the same. -/
theorem unreadGrid_eq_iff {m m' : Memory} (k : Nat) (h : Memory.wf m) (h' : Memory.wf m') :
    unreadGrid m k = unreadGrid m' k ↔ ∀ a, 4 * k ≤ a → memRead m a = memRead m' a := by
  constructor
  · intro e a ha
    rw [← memRead_unreadGrid m ha, ← memRead_unreadGrid m' ha, e]
  · intro e
    refine memory_ext (h.sublist (List.filter_sublist)) (h'.sublist (List.filter_sublist)) fun a => ?_
    by_cases ha : 4 * k ≤ a
    · rw [memRead_unreadGrid m ha, memRead_unreadGrid m' ha, e a ha]
    · have gone : ∀ m : Memory, memRead (unreadGrid m k) a = none := fun m => memRead_eq_none_of_lt fun c hc => by
        have := (List.mem_filter.mp hc).2
        simp only [decide_eq_true_eq] at this
        omega
      rw [gone, gone]

/-! ### Port words (R64) -/

theorem toNat_append {m n : Nat} (x : BitVec m) (y : BitVec n) : (x ++ y).toNat = x.toNat * 2 ^ n + y.toNat := by
  rw [BitVec.toNat_append, ← Nat.shiftLeft_add_eq_or_of_lt y.isLt, Nat.shiftLeft_eq]

/-- The port word of a pixel in arithmetic: r in the top byte. -/
theorem toNat_pixelWord (p : Pixel) :
    (pixelWord p).toNat = p.r.toNat * 2 ^ 24 + p.g.toNat * 2 ^ 16 + p.b.toNat * 2 ^ 8 + p.a.toNat := by
  unfold pixelWord
  simp only [toNat_append]
  omega

@[simp] theorem pixelOfWord_pixelWord (p : Pixel) : pixelOfWord (pixelWord p) = p := by
  obtain ⟨r, g, b, a⟩ := p
  have word := toNat_pixelWord ⟨r, g, b, a⟩
  simp only [pixelOfWord, Pixel.mk.injEq]
  refine ⟨?_, ?_, ?_, ?_⟩ <;> apply BitVec.eq_of_toNat_eq <;>
    rw [BitVec.extractLsb'_toNat, word, Nat.shiftRight_eq_div_pow] <;> dsimp only <;> omega

@[simp] theorem pixelWord_pixelOfWord (w : BitVec 32) : pixelWord (pixelOfWord w) = w := by
  apply BitVec.eq_of_toNat_eq
  simp only [toNat_pixelWord, pixelOfWord, BitVec.extractLsb'_toNat, Nat.shiftRight_eq_div_pow]
  omega

/-- One more pixel is one more word. -/
theorem gridWords_succ {m : Memory} {n : Nat} {p : Pixel} (h : readPixel m n = some p) :
    gridWords m (n + 1) = gridWords m n ++ [pixelWord p] := by
  simp [gridWords, List.range_succ, h]

/-- The words of the first `n` pixels depend on those pixels alone. -/
theorem gridWords_congr {m m' : Memory} {n : Nat} (h : ∀ j, j < n → readPixel m j = readPixel m' j) :
    gridWords m n = gridWords m' n :=
  List.filterMap_congr fun j hj => by rw [h j (List.mem_range.mp hj)]

/-- The memories of State.reset are in canonical form. -/
theorem reset_memory_wf : Memory.wf State.reset.enc.grid ∧ Memory.wf State.reset.dec.grid :=
  ⟨List.Pairwise.nil, List.Pairwise.nil⟩

end Sys2Proof.Machine
end

