-- ==== Sys2Proof/Laws/State.lean ====
section
/-! SUPPORT. One lemma per field per update of an engine's record, so that no later proof unfolds an update. -/

namespace Sys2Proof.Machine

/-! ### encAbort -/

@[simp] theorem encAbort_phase (c : Cause) (p : BitVec 64) (e : Encoder) :
    (encAbort c p e).phase = .idle := rfl
@[simp] theorem encAbort_width (c : Cause) (p : BitVec 64) (e : Encoder) :
    (encAbort c p e).width = Config.freeEncWidth e.draws := rfl
@[simp] theorem encAbort_height (c : Cause) (p : BitVec 64) (e : Encoder) :
    (encAbort c p e).height = Config.freeEncHeight e.draws := rfl
@[simp] theorem encAbort_n (c : Cause) (p : BitVec 64) (e : Encoder) :
    (encAbort c p e).n = Config.freeEncN e.draws := rfl
@[simp] theorem encAbort_k (c : Cause) (p : BitVec 64) (e : Encoder) :
    (encAbort c p e).k = Config.freeEncK e.draws := rfl
@[simp] theorem encAbort_prev (c : Cause) (p : BitVec 64) (e : Encoder) :
    (encAbort c p e).prev = pixelOfWord (Config.freeEncPrev e.draws) := rfl
@[simp] theorem encAbort_run (c : Cause) (p : BitVec 64) (e : Encoder) :
    (encAbort c p e).run = Config.freeEncRun e.draws := rfl
@[simp] theorem encAbort_cache (c : Cause) (p : BitVec 64) (e : Encoder) :
    (encAbort c p e).cache = Vector.ofFn (fun i => pixelOfWord (Config.freeEncSlot e.draws i)) := rfl
@[simp] theorem encAbort_outcount (c : Cause) (p : BitVec 64) (e : Encoder) :
    (encAbort c p e).outcount = Config.freeEncOutcount e.draws := rfl
@[simp] theorem encAbort_status (c : Cause) (p : BitVec 64) (e : Encoder) :
    (encAbort c p e).status = statusErr c := rfl
@[simp] theorem encAbort_errPos (c : Cause) (p : BitVec 64) (e : Encoder) :
    (encAbort c p e).errPos = p := rfl
@[simp] theorem encAbort_cfgWidth (c : Cause) (p : BitVec 64) (e : Encoder) :
    (encAbort c p e).cfgWidth = e.cfgWidth := rfl
@[simp] theorem encAbort_cfgHeight (c : Cause) (p : BitVec 64) (e : Encoder) :
    (encAbort c p e).cfgHeight = e.cfgHeight := rfl
@[simp] theorem encAbort_grid (c : Cause) (p : BitVec 64) (e : Encoder) :
    (encAbort c p e).grid = e.grid := rfl
@[simp] theorem encAbort_out (c : Cause) (p : BitVec 64) (e : Encoder) :
    (encAbort c p e).out = e.out := rfl
@[simp] theorem encAbort_sinkFail (c : Cause) (p : BitVec 64) (e : Encoder) :
    (encAbort c p e).sinkFail = e.sinkFail := rfl
@[simp] theorem encAbort_draws (c : Cause) (p : BitVec 64) (e : Encoder) :
    (encAbort c p e).draws = e.draws + 1 := rfl

/-! ### encInit -/

@[simp] theorem encInit_phase (e : Encoder) :
    (encInit e).phase = .hdr := rfl
@[simp] theorem encInit_width (e : Encoder) :
    (encInit e).width = e.cfgWidth := rfl
@[simp] theorem encInit_height (e : Encoder) :
    (encInit e).height = e.cfgHeight := rfl
@[simp] theorem encInit_n (e : Encoder) :
    (encInit e).n = pixelCount e.cfgWidth e.cfgHeight := rfl
@[simp] theorem encInit_k (e : Encoder) :
    (encInit e).k = 0 := rfl
@[simp] theorem encInit_prev (e : Encoder) :
    (encInit e).prev = seed := rfl
@[simp] theorem encInit_run (e : Encoder) :
    (encInit e).run = 0 := rfl
@[simp] theorem encInit_cache (e : Encoder) :
    (encInit e).cache = cacheInit := rfl
@[simp] theorem encInit_outcount (e : Encoder) :
    (encInit e).outcount = 0 := rfl
@[simp] theorem encInit_status (e : Encoder) :
    (encInit e).status = statusBusy := rfl
@[simp] theorem encInit_errPos (e : Encoder) :
    (encInit e).errPos = Config.freeEncErrPos e.draws := rfl
@[simp] theorem encInit_cfgWidth (e : Encoder) :
    (encInit e).cfgWidth = e.cfgWidth := rfl
@[simp] theorem encInit_cfgHeight (e : Encoder) :
    (encInit e).cfgHeight = e.cfgHeight := rfl
@[simp] theorem encInit_grid (e : Encoder) :
    (encInit e).grid = e.grid := rfl
@[simp] theorem encInit_out (e : Encoder) :
    (encInit e).out = [] := rfl
@[simp] theorem encInit_sinkFail (e : Encoder) :
    (encInit e).sinkFail = e.sinkFail := rfl
@[simp] theorem encInit_draws (e : Encoder) :
    (encInit e).draws = e.draws + 1 := rfl

/-! ### encReset -/

@[simp] theorem encReset_phase (e : Encoder) :
    (encReset e).phase = Encoder.reset.phase := rfl
@[simp] theorem encReset_width (e : Encoder) :
    (encReset e).width = Encoder.reset.width := rfl
@[simp] theorem encReset_height (e : Encoder) :
    (encReset e).height = Encoder.reset.height := rfl
@[simp] theorem encReset_n (e : Encoder) :
    (encReset e).n = Encoder.reset.n := rfl
@[simp] theorem encReset_k (e : Encoder) :
    (encReset e).k = Encoder.reset.k := rfl
@[simp] theorem encReset_prev (e : Encoder) :
    (encReset e).prev = Encoder.reset.prev := rfl
@[simp] theorem encReset_run (e : Encoder) :
    (encReset e).run = Encoder.reset.run := rfl
@[simp] theorem encReset_cache (e : Encoder) :
    (encReset e).cache = Encoder.reset.cache := rfl
@[simp] theorem encReset_outcount (e : Encoder) :
    (encReset e).outcount = Encoder.reset.outcount := rfl
@[simp] theorem encReset_status (e : Encoder) :
    (encReset e).status = Encoder.reset.status := rfl
@[simp] theorem encReset_errPos (e : Encoder) :
    (encReset e).errPos = Encoder.reset.errPos := rfl
@[simp] theorem encReset_cfgWidth (e : Encoder) :
    (encReset e).cfgWidth = e.cfgWidth := rfl
@[simp] theorem encReset_cfgHeight (e : Encoder) :
    (encReset e).cfgHeight = e.cfgHeight := rfl
@[simp] theorem encReset_grid (e : Encoder) :
    (encReset e).grid = e.grid := rfl
@[simp] theorem encReset_out (e : Encoder) :
    (encReset e).out = e.out := rfl
@[simp] theorem encReset_sinkFail (e : Encoder) :
    (encReset e).sinkFail = e.sinkFail := rfl
@[simp] theorem encReset_draws (e : Encoder) :
    (encReset e).draws = e.draws := rfl

/-! ### encAdvance -/

@[simp] theorem encAdvance_phase (px : Pixel) (o : ChunkOut) (e : Encoder) :
    (encAdvance px o e).phase = if e.k + 1 = e.n then .pad else e.phase := rfl
@[simp] theorem encAdvance_width (px : Pixel) (o : ChunkOut) (e : Encoder) :
    (encAdvance px o e).width = e.width := rfl
@[simp] theorem encAdvance_height (px : Pixel) (o : ChunkOut) (e : Encoder) :
    (encAdvance px o e).height = e.height := rfl
@[simp] theorem encAdvance_n (px : Pixel) (o : ChunkOut) (e : Encoder) :
    (encAdvance px o e).n = e.n := rfl
@[simp] theorem encAdvance_k (px : Pixel) (o : ChunkOut) (e : Encoder) :
    (encAdvance px o e).k = e.k + 1 := rfl
@[simp] theorem encAdvance_prev (px : Pixel) (o : ChunkOut) (e : Encoder) :
    (encAdvance px o e).prev = px := rfl
@[simp] theorem encAdvance_run (px : Pixel) (o : ChunkOut) (e : Encoder) :
    (encAdvance px o e).run = o.run := rfl
@[simp] theorem encAdvance_cache (px : Pixel) (o : ChunkOut) (e : Encoder) :
    (encAdvance px o e).cache = o.cache := rfl
@[simp] theorem encAdvance_outcount (px : Pixel) (o : ChunkOut) (e : Encoder) :
    (encAdvance px o e).outcount = e.outcount := rfl
@[simp] theorem encAdvance_status (px : Pixel) (o : ChunkOut) (e : Encoder) :
    (encAdvance px o e).status = e.status := rfl
@[simp] theorem encAdvance_errPos (px : Pixel) (o : ChunkOut) (e : Encoder) :
    (encAdvance px o e).errPos = e.errPos := rfl
@[simp] theorem encAdvance_cfgWidth (px : Pixel) (o : ChunkOut) (e : Encoder) :
    (encAdvance px o e).cfgWidth = e.cfgWidth := rfl
@[simp] theorem encAdvance_cfgHeight (px : Pixel) (o : ChunkOut) (e : Encoder) :
    (encAdvance px o e).cfgHeight = e.cfgHeight := rfl
@[simp] theorem encAdvance_grid (px : Pixel) (o : ChunkOut) (e : Encoder) :
    (encAdvance px o e).grid = e.grid := rfl
@[simp] theorem encAdvance_out (px : Pixel) (o : ChunkOut) (e : Encoder) :
    (encAdvance px o e).out = e.out := rfl
@[simp] theorem encAdvance_sinkFail (px : Pixel) (o : ChunkOut) (e : Encoder) :
    (encAdvance px o e).sinkFail = e.sinkFail := rfl
@[simp] theorem encAdvance_draws (px : Pixel) (o : ChunkOut) (e : Encoder) :
    (encAdvance px o e).draws = e.draws := rfl

/-! ### decAbort -/

@[simp] theorem decAbort_phase (c : Cause) (p : BitVec 64) (d : Decoder) :
    (decAbort c p d).phase = .idle := rfl
@[simp] theorem decAbort_mode (c : Cause) (p : BitVec 64) (d : Decoder) :
    (decAbort c p d).mode = d.mode := rfl
@[simp] theorem decAbort_width (c : Cause) (p : BitVec 64) (d : Decoder) :
    (decAbort c p d).width = Config.freeDecWidth d.draws := rfl
@[simp] theorem decAbort_height (c : Cause) (p : BitVec 64) (d : Decoder) :
    (decAbort c p d).height = Config.freeDecHeight d.draws := rfl
@[simp] theorem decAbort_n (c : Cause) (p : BitVec 64) (d : Decoder) :
    (decAbort c p d).n = Config.freeDecN d.draws := rfl
@[simp] theorem decAbort_k (c : Cause) (p : BitVec 64) (d : Decoder) :
    (decAbort c p d).k = Config.freeDecK d.draws := rfl
@[simp] theorem decAbort_pos (c : Cause) (p : BitVec 64) (d : Decoder) :
    (decAbort c p d).pos = Config.freeDecPos d.draws := rfl
@[simp] theorem decAbort_px (c : Cause) (p : BitVec 64) (d : Decoder) :
    (decAbort c p d).px = pixelOfWord (Config.freeDecPx d.draws) := rfl
@[simp] theorem decAbort_run (c : Cause) (p : BitVec 64) (d : Decoder) :
    (decAbort c p d).run = Config.freeDecRun d.draws := rfl
@[simp] theorem decAbort_cache (c : Cause) (p : BitVec 64) (d : Decoder) :
    (decAbort c p d).cache = Vector.ofFn (fun i => pixelOfWord (Config.freeDecSlot d.draws i)) := rfl
@[simp] theorem decAbort_status (c : Cause) (p : BitVec 64) (d : Decoder) :
    (decAbort c p d).status = statusErr c := rfl
@[simp] theorem decAbort_errPos (c : Cause) (p : BitVec 64) (d : Decoder) :
    (decAbort c p d).errPos = p := rfl
@[simp] theorem decAbort_cfgMode (c : Cause) (p : BitVec 64) (d : Decoder) :
    (decAbort c p d).cfgMode = d.cfgMode := rfl
@[simp] theorem decAbort_stream (c : Cause) (p : BitVec 64) (d : Decoder) :
    (decAbort c p d).stream = d.stream := rfl
@[simp] theorem decAbort_srcFail (c : Cause) (p : BitVec 64) (d : Decoder) :
    (decAbort c p d).srcFail = d.srcFail := rfl
@[simp] theorem decAbort_ended (c : Cause) (p : BitVec 64) (d : Decoder) :
    (decAbort c p d).ended = d.ended := rfl
@[simp] theorem decAbort_grid (c : Cause) (p : BitVec 64) (d : Decoder) :
    (decAbort c p d).grid = d.grid := rfl
@[simp] theorem decAbort_draws (c : Cause) (p : BitVec 64) (d : Decoder) :
    (decAbort c p d).draws = d.draws + 1 := rfl

/-! ### decInit -/

@[simp] theorem decInit_phase (d : Decoder) :
    (decInit d).phase = .hdr := rfl
@[simp] theorem decInit_mode (d : Decoder) :
    (decInit d).mode = if d.cfgMode = 0 then .full else .headerOnly := rfl
@[simp] theorem decInit_width (d : Decoder) :
    (decInit d).width = Config.freeDecWidth d.draws := rfl
@[simp] theorem decInit_height (d : Decoder) :
    (decInit d).height = Config.freeDecHeight d.draws := rfl
@[simp] theorem decInit_n (d : Decoder) :
    (decInit d).n = Config.freeDecN d.draws := rfl
@[simp] theorem decInit_k (d : Decoder) :
    (decInit d).k = 0 := rfl
@[simp] theorem decInit_pos (d : Decoder) :
    (decInit d).pos = 0 := rfl
@[simp] theorem decInit_px (d : Decoder) :
    (decInit d).px = seed := rfl
@[simp] theorem decInit_run (d : Decoder) :
    (decInit d).run = 0 := rfl
@[simp] theorem decInit_cache (d : Decoder) :
    (decInit d).cache = cacheInit := rfl
@[simp] theorem decInit_status (d : Decoder) :
    (decInit d).status = statusBusy := rfl
@[simp] theorem decInit_errPos (d : Decoder) :
    (decInit d).errPos = Config.freeDecErrPos d.draws := rfl
@[simp] theorem decInit_cfgMode (d : Decoder) :
    (decInit d).cfgMode = d.cfgMode := rfl
@[simp] theorem decInit_stream (d : Decoder) :
    (decInit d).stream = d.stream := rfl
@[simp] theorem decInit_srcFail (d : Decoder) :
    (decInit d).srcFail = d.srcFail := rfl
@[simp] theorem decInit_ended (d : Decoder) :
    (decInit d).ended = false := rfl
@[simp] theorem decInit_grid (d : Decoder) :
    (decInit d).grid = [] := rfl
@[simp] theorem decInit_draws (d : Decoder) :
    (decInit d).draws = d.draws + 1 := rfl

/-! ### decReset -/

@[simp] theorem decReset_phase (d : Decoder) :
    (decReset d).phase = Decoder.reset.phase := rfl
@[simp] theorem decReset_mode (d : Decoder) :
    (decReset d).mode = Decoder.reset.mode := rfl
@[simp] theorem decReset_width (d : Decoder) :
    (decReset d).width = Decoder.reset.width := rfl
@[simp] theorem decReset_height (d : Decoder) :
    (decReset d).height = Decoder.reset.height := rfl
@[simp] theorem decReset_n (d : Decoder) :
    (decReset d).n = Decoder.reset.n := rfl
@[simp] theorem decReset_k (d : Decoder) :
    (decReset d).k = Decoder.reset.k := rfl
@[simp] theorem decReset_pos (d : Decoder) :
    (decReset d).pos = Decoder.reset.pos := rfl
@[simp] theorem decReset_px (d : Decoder) :
    (decReset d).px = Decoder.reset.px := rfl
@[simp] theorem decReset_run (d : Decoder) :
    (decReset d).run = Decoder.reset.run := rfl
@[simp] theorem decReset_cache (d : Decoder) :
    (decReset d).cache = Decoder.reset.cache := rfl
@[simp] theorem decReset_status (d : Decoder) :
    (decReset d).status = Decoder.reset.status := rfl
@[simp] theorem decReset_errPos (d : Decoder) :
    (decReset d).errPos = Decoder.reset.errPos := rfl
@[simp] theorem decReset_cfgMode (d : Decoder) :
    (decReset d).cfgMode = d.cfgMode := rfl
@[simp] theorem decReset_stream (d : Decoder) :
    (decReset d).stream = d.stream := rfl
@[simp] theorem decReset_srcFail (d : Decoder) :
    (decReset d).srcFail = d.srcFail := rfl
@[simp] theorem decReset_ended (d : Decoder) :
    (decReset d).ended = d.ended := rfl
@[simp] theorem decReset_grid (d : Decoder) :
    (decReset d).grid = d.grid := rfl
@[simp] theorem decReset_draws (d : Decoder) :
    (decReset d).draws = d.draws := rfl

/-! ### decPlace -/

@[simp] theorem decPlace_phase (bytes : List Byte) (d : Decoder) :
    (decPlace bytes d).phase = .pix := rfl
@[simp] theorem decPlace_mode (bytes : List Byte) (d : Decoder) :
    (decPlace bytes d).mode = .full := rfl
@[simp] theorem decPlace_width (bytes : List Byte) (d : Decoder) :
    (decPlace bytes d).width = 2 := rfl
@[simp] theorem decPlace_height (bytes : List Byte) (d : Decoder) :
    (decPlace bytes d).height = 1 := rfl
@[simp] theorem decPlace_n (bytes : List Byte) (d : Decoder) :
    (decPlace bytes d).n = 2 := rfl
@[simp] theorem decPlace_k (bytes : List Byte) (d : Decoder) :
    (decPlace bytes d).k = 0 := rfl
@[simp] theorem decPlace_pos (bytes : List Byte) (d : Decoder) :
    (decPlace bytes d).pos = 0 := rfl
@[simp] theorem decPlace_px (bytes : List Byte) (d : Decoder) :
    (decPlace bytes d).px = d.px := rfl
@[simp] theorem decPlace_run (bytes : List Byte) (d : Decoder) :
    (decPlace bytes d).run = 0 := rfl
@[simp] theorem decPlace_cache (bytes : List Byte) (d : Decoder) :
    (decPlace bytes d).cache = d.cache := rfl
@[simp] theorem decPlace_status (bytes : List Byte) (d : Decoder) :
    (decPlace bytes d).status = statusBusy := rfl
@[simp] theorem decPlace_errPos (bytes : List Byte) (d : Decoder) :
    (decPlace bytes d).errPos = d.errPos := rfl
@[simp] theorem decPlace_cfgMode (bytes : List Byte) (d : Decoder) :
    (decPlace bytes d).cfgMode = d.cfgMode := rfl
@[simp] theorem decPlace_stream (bytes : List Byte) (d : Decoder) :
    (decPlace bytes d).stream = bytes := rfl
@[simp] theorem decPlace_srcFail (bytes : List Byte) (d : Decoder) :
    (decPlace bytes d).srcFail = none := rfl
@[simp] theorem decPlace_ended (bytes : List Byte) (d : Decoder) :
    (decPlace bytes d).ended = false := rfl
@[simp] theorem decPlace_grid (bytes : List Byte) (d : Decoder) :
    (decPlace bytes d).grid = [] := rfl
@[simp] theorem decPlace_draws (bytes : List Byte) (d : Decoder) :
    (decPlace bytes d).draws = d.draws := rfl

/-! ### completeIfDone: only the phase and STATUS can change (R152) -/

theorem completeIfDone_phase (d : Decoder) :
    (completeIfDone d).phase = if d.k = d.n then .idle else d.phase := by
  unfold completeIfDone; split <;> rfl
@[simp] theorem completeIfDone_mode (d : Decoder) : (completeIfDone d).mode = d.mode := by
  unfold completeIfDone; split <;> rfl
@[simp] theorem completeIfDone_width (d : Decoder) : (completeIfDone d).width = d.width := by
  unfold completeIfDone; split <;> rfl
@[simp] theorem completeIfDone_height (d : Decoder) : (completeIfDone d).height = d.height := by
  unfold completeIfDone; split <;> rfl
@[simp] theorem completeIfDone_n (d : Decoder) : (completeIfDone d).n = d.n := by
  unfold completeIfDone; split <;> rfl
@[simp] theorem completeIfDone_k (d : Decoder) : (completeIfDone d).k = d.k := by
  unfold completeIfDone; split <;> rfl
@[simp] theorem completeIfDone_pos (d : Decoder) : (completeIfDone d).pos = d.pos := by
  unfold completeIfDone; split <;> rfl
@[simp] theorem completeIfDone_px (d : Decoder) : (completeIfDone d).px = d.px := by
  unfold completeIfDone; split <;> rfl
@[simp] theorem completeIfDone_run (d : Decoder) : (completeIfDone d).run = d.run := by
  unfold completeIfDone; split <;> rfl
@[simp] theorem completeIfDone_cache (d : Decoder) : (completeIfDone d).cache = d.cache := by
  unfold completeIfDone; split <;> rfl
theorem completeIfDone_status (d : Decoder) :
    (completeIfDone d).status = if d.k = d.n then statusDone else d.status := by
  unfold completeIfDone; split <;> rfl
@[simp] theorem completeIfDone_errPos (d : Decoder) : (completeIfDone d).errPos = d.errPos := by
  unfold completeIfDone; split <;> rfl
@[simp] theorem completeIfDone_cfgMode (d : Decoder) : (completeIfDone d).cfgMode = d.cfgMode := by
  unfold completeIfDone; split <;> rfl
@[simp] theorem completeIfDone_stream (d : Decoder) : (completeIfDone d).stream = d.stream := by
  unfold completeIfDone; split <;> rfl
@[simp] theorem completeIfDone_srcFail (d : Decoder) : (completeIfDone d).srcFail = d.srcFail := by
  unfold completeIfDone; split <;> rfl
@[simp] theorem completeIfDone_ended (d : Decoder) : (completeIfDone d).ended = d.ended := by
  unfold completeIfDone; split <;> rfl
@[simp] theorem completeIfDone_grid (d : Decoder) : (completeIfDone d).grid = d.grid := by
  unfold completeIfDone; split <;> rfl
@[simp] theorem completeIfDone_draws (d : Decoder) : (completeIfDone d).draws = d.draws := by
  unfold completeIfDone; split <;> rfl

/-! ### decAcceptHeader (R150) -/

@[simp] theorem decAcceptHeader_mode (h : Header) (d : Decoder) :
    (decAcceptHeader h d).mode = d.mode := by
  unfold decAcceptHeader; dsimp only; split <;> rfl
@[simp] theorem decAcceptHeader_width (h : Header) (d : Decoder) :
    (decAcceptHeader h d).width = h.width := by
  unfold decAcceptHeader; dsimp only; split <;> rfl
@[simp] theorem decAcceptHeader_height (h : Header) (d : Decoder) :
    (decAcceptHeader h d).height = h.height := by
  unfold decAcceptHeader; dsimp only; split <;> rfl
@[simp] theorem decAcceptHeader_n (h : Header) (d : Decoder) :
    (decAcceptHeader h d).n = pixelCount h.width h.height := by
  unfold decAcceptHeader; dsimp only; split <;> rfl
@[simp] theorem decAcceptHeader_k (h : Header) (d : Decoder) :
    (decAcceptHeader h d).k = d.k := by
  unfold decAcceptHeader; dsimp only; split <;> rfl
@[simp] theorem decAcceptHeader_pos (h : Header) (d : Decoder) :
    (decAcceptHeader h d).pos = d.pos := by
  unfold decAcceptHeader; dsimp only; split <;> rfl
@[simp] theorem decAcceptHeader_px (h : Header) (d : Decoder) :
    (decAcceptHeader h d).px = d.px := by
  unfold decAcceptHeader; dsimp only; split <;> rfl
@[simp] theorem decAcceptHeader_run (h : Header) (d : Decoder) :
    (decAcceptHeader h d).run = d.run := by
  unfold decAcceptHeader; dsimp only; split <;> rfl
@[simp] theorem decAcceptHeader_cache (h : Header) (d : Decoder) :
    (decAcceptHeader h d).cache = d.cache := by
  unfold decAcceptHeader; dsimp only; split <;> rfl
@[simp] theorem decAcceptHeader_errPos (h : Header) (d : Decoder) :
    (decAcceptHeader h d).errPos = d.errPos := by
  unfold decAcceptHeader; dsimp only; split <;> rfl
@[simp] theorem decAcceptHeader_cfgMode (h : Header) (d : Decoder) :
    (decAcceptHeader h d).cfgMode = d.cfgMode := by
  unfold decAcceptHeader; dsimp only; split <;> rfl
@[simp] theorem decAcceptHeader_stream (h : Header) (d : Decoder) :
    (decAcceptHeader h d).stream = d.stream := by
  unfold decAcceptHeader; dsimp only; split <;> rfl
@[simp] theorem decAcceptHeader_srcFail (h : Header) (d : Decoder) :
    (decAcceptHeader h d).srcFail = d.srcFail := by
  unfold decAcceptHeader; dsimp only; split <;> rfl
@[simp] theorem decAcceptHeader_ended (h : Header) (d : Decoder) :
    (decAcceptHeader h d).ended = d.ended := by
  unfold decAcceptHeader; dsimp only; split <;> rfl
@[simp] theorem decAcceptHeader_grid (h : Header) (d : Decoder) :
    (decAcceptHeader h d).grid = d.grid := by
  unfold decAcceptHeader; dsimp only; split <;> rfl
@[simp] theorem decAcceptHeader_draws (h : Header) (d : Decoder) :
    (decAcceptHeader h d).draws = d.draws := by
  unfold decAcceptHeader; dsimp only; split <;> rfl

/-! ### placeChunk -/

@[simp] theorem placeChunk_enc (bytes : List Byte) (s : State) : (placeChunk bytes s).enc = s.enc := rfl
@[simp] theorem placeChunk_dec (bytes : List Byte) (s : State) : (placeChunk bytes s).dec = decPlace bytes s.dec := rfl
@[simp] theorem placeChunk_script (bytes : List Byte) (s : State) : (placeChunk bytes s).script = [] := rfl

/-! ### The status words in bits (R28) -/

@[simp] theorem statusBusy_eq : statusBusy = 0x01 := by decide
@[simp] theorem statusDone_eq : statusDone = 0x02 := by decide
@[simp] theorem statusErr_truncatedHeader : statusErr .truncatedHeader = 0x0C := by decide
@[simp] theorem statusErr_badMagic : statusErr .badMagic = 0x14 := by decide
@[simp] theorem statusErr_ioSource : statusErr .ioSource = 0x1C := by decide
@[simp] theorem statusErr_ioSink : statusErr .ioSink = 0x24 := by decide

end Sys2Proof.Machine
end

