-- ==== Sys2Proof/Laws/Ops.lean ====
section
/-! SUPPORT. One lemma per shared operation that says everything it can do: reads, writes, delivery, a chunk's step. -/

namespace Sys2Proof.Machine

/-! ### Reads -/

theorem inRead_of_byte {d : Decoder} {b : Byte} (h : sourceAnswer d = .byte b) (hp : d.pos ≠ lastPos) :
    inRead d = .byte b { d with pos := d.pos + 1 } := by
  simp [inRead, h, hp]

theorem inRead_of_eoi {d : Decoder} (h : sourceAnswer d = .eoi) : inRead d = .eoi { d with ended := true } := by
  simp [inRead, h]

theorem inRead_of_ioerr {d : Decoder} (h : sourceAnswer d = .ioerr) :
    inRead d = .aborted (decAbort .ioSource d.pos d) := by
  simp [inRead, h]

/-- Everything one read can do. -/
theorem inRead_cases (d : Decoder) :
    (∃ b, sourceAnswer d = .byte b ∧ d.pos ≠ lastPos ∧ inRead d = .byte b { d with pos := d.pos + 1 }) ∨
    (∃ b, sourceAnswer d = .byte b ∧ d.pos = lastPos ∧ inRead d = .tooLong) ∨
    (sourceAnswer d = .eoi ∧ inRead d = .eoi { d with ended := true }) ∨
    (sourceAnswer d = .ioerr ∧ inRead d = .aborted (decAbort .ioSource d.pos d)) := by
  cases h : sourceAnswer d with
  | byte b =>
    by_cases hp : d.pos = lastPos
    · exact .inr (.inl ⟨b, rfl, hp, by simp [inRead, h, hp]⟩)
    · exact .inl ⟨b, rfl, hp, inRead_of_byte h hp⟩
  | eoi => exact .inr (.inr (.inl ⟨rfl, inRead_of_eoi h⟩))
  | ioerr => exact .inr (.inr (.inr ⟨rfl, inRead_of_ioerr h⟩))

/-- The answer `byte b` is the stream's byte at D.pos (R149). -/
theorem sourceAnswer_byte_iff (d : Decoder) (b : Byte) :
    sourceAnswer d = .byte b ↔
      d.ended = false ∧ d.srcFail ≠ some d.pos.toNat ∧ d.stream[d.pos.toNat]? = some b := by
  unfold sourceAnswer
  cases d.ended
  · by_cases hf : d.srcFail = some d.pos.toNat
    · simp [hf]
    · cases hs : d.stream[d.pos.toNat]? <;> simp [hf]
  · simp

theorem sourceAnswer_eoi_iff (d : Decoder) :
    sourceAnswer d = .eoi ↔
      d.ended = true ∨ (d.srcFail ≠ some d.pos.toNat ∧ d.stream.length ≤ d.pos.toNat) := by
  unfold sourceAnswer
  cases d.ended
  · by_cases hf : d.srcFail = some d.pos.toNat
    · simp [hf]
    · cases hs : d.stream[d.pos.toNat]? with
      | none => simpa [hf] using hs
      | some b =>
        obtain ⟨hl, -⟩ := List.getElem?_eq_some_iff.mp hs
        simpa [hf] using hl
  · simp

theorem sourceAnswer_ioerr_iff (d : Decoder) :
    sourceAnswer d = .ioerr ↔ d.ended = false ∧ d.srcFail = some d.pos.toNat := by
  unfold sourceAnswer
  cases d.ended
  · by_cases hf : d.srcFail = some d.pos.toNat
    · simp [hf]
    · cases hs : d.stream[d.pos.toNat]? <;> simp [hf]
  · simp

/-- A byte at the last position stands in a stream of more than 2^64 - 1 bytes (R30). -/
theorem long_of_byte_at_lastPos {d : Decoder} {b : Byte} (h : sourceAnswer d = .byte b) (hp : d.pos = lastPos) :
    2 ^ 64 ≤ d.stream.length := by
  obtain ⟨hl, -⟩ := List.getElem?_eq_some_iff.mp ((sourceAnswer_byte_iff d b).mp h).2.2
  rw [hp, show lastPos.toNat = 2 ^ 64 - 1 from rfl] at hl
  omega

/-- D.pos moves by one at a read that is not refused. -/
theorem toNat_pos_succ {p : BitVec 64} (h : p ≠ lastPos) : (p + 1).toNat = p.toNat + 1 := by
  have : p.toNat ≠ 2 ^ 64 - 1 := fun hc => h (BitVec.eq_of_toNat_eq (by rw [hc]; rfl))
  have := p.isLt
  rw [BitVec.toNat_add, show (1 : BitVec 64).toNat = 1 from rfl]
  omega

/-- `d'` is `d` after some reads: only D.pos and the end-of-input mark have changed. -/
def ReadsOnly (d d' : Decoder) : Prop := d' = { d with pos := d'.pos, ended := d'.ended }

theorem ReadsOnly.refl (d : Decoder) : ReadsOnly d d := rfl

theorem ReadsOnly.trans {d d' d'' : Decoder} (h : ReadsOnly d d') (h' : ReadsOnly d' d'') : ReadsOnly d d'' := by
  unfold ReadsOnly at *
  rw [h', h]

/-- Everything `count` operand reads can do: all the bytes, with D.pos moved by at most `count`; an abort at one of
them; or a stream that is too long (R154). -/
theorem readOperands_cases (count : Nat) : ∀ d : Decoder,
    (∃ bytes d', readOperands count d = .ok bytes d' ∧ ReadsOnly d d' ∧ bytes.length = count ∧
      d.pos.toNat ≤ d'.pos.toNat ∧ d'.pos.toNat ≤ d.pos.toNat + count) ∨
    (∃ d', readOperands count d = .aborted (decAbort .ioSource d'.pos d') ∧ ReadsOnly d d' ∧
      d.pos.toNat ≤ d'.pos.toNat) ∨
    (2 ^ 64 ≤ d.stream.length ∧ readOperands count d = .tooLong) := by
  induction count with
  | zero => exact fun d => .inl ⟨[], d, rfl, .refl d, rfl, le_refl _, le_refl _⟩
  | succ count ih =>
    intro d
    rcases inRead_cases d with ⟨b, -, hp, hr⟩ | ⟨b, ha, hp, hr⟩ | ⟨-, hr⟩ | ⟨-, hr⟩
    · have hpos := toNat_pos_succ hp
      rcases ih { d with pos := d.pos + 1 } with ⟨bs, d', h, ho, hl, h1, h2⟩ | ⟨d', h, ho, h1⟩ | ⟨hl, h⟩
      · refine .inl ⟨b :: bs, d', by rw [readOperands, hr]; dsimp only; rw [h]; rfl, ?_, by simp [hl], ?_, ?_⟩
        · exact ReadsOnly.trans (d' := { d with pos := d.pos + 1 }) rfl ho
        · dsimp only at h1; omega
        · dsimp only at h2; omega
      · refine .inr (.inl ⟨d', by rw [readOperands, hr]; dsimp only; rw [h]; rfl, ?_, ?_⟩)
        · exact ReadsOnly.trans (d' := { d with pos := d.pos + 1 }) rfl ho
        · dsimp only at h1; omega
      · exact .inr (.inr ⟨hl, by rw [readOperands, hr]; dsimp only; rw [h]; rfl⟩)
    · exact .inr (.inr ⟨long_of_byte_at_lastPos ha hp, by simp [readOperands, hr]⟩)
    · rcases ih { d with ended := true } with ⟨bs, d', h, ho, hl, h1, h2⟩ | ⟨d', h, ho, h1⟩ | ⟨hl, h⟩
      · refine .inl ⟨0x00 :: bs, d', by rw [readOperands, hr]; dsimp only; rw [h]; rfl, ?_, by simp [hl], h1, ?_⟩
        · exact ReadsOnly.trans (d' := { d with ended := true }) rfl ho
        · dsimp only at h2; omega
      · exact .inr (.inl ⟨d', by rw [readOperands, hr]; dsimp only; rw [h]; rfl,
          ReadsOnly.trans (d' := { d with ended := true }) rfl ho, h1⟩)
      · exact .inr (.inr ⟨hl, by rw [readOperands, hr]; dsimp only; rw [h]; rfl⟩)
    · exact .inr (.inl ⟨d, by simp [readOperands, hr], .refl d, le_refl _⟩)

/-- Everything the reads of a header can do: all the bytes, with D.pos moved by exactly their number; an abort at the end
of the input or at an `IOERR`; or a stream that is too long (R106). -/
theorem readHeaderBytes_cases (count : Nat) : ∀ d : Decoder,
    (∃ bytes d', readHeaderBytes count d = .ok bytes d' ∧ ReadsOnly d d' ∧ bytes.length = count ∧
      d'.pos.toNat = d.pos.toNat + count) ∨
    (∃ c d', (c = .truncatedHeader ∨ c = .ioSource) ∧ readHeaderBytes count d = .aborted (decAbort c d'.pos d') ∧
      ReadsOnly d d') ∨
    (2 ^ 64 ≤ d.stream.length ∧ readHeaderBytes count d = .tooLong) := by
  induction count with
  | zero => exact fun d => .inl ⟨[], d, rfl, .refl d, rfl, rfl⟩
  | succ count ih =>
    intro d
    rcases inRead_cases d with ⟨b, -, hp, hr⟩ | ⟨b, ha, hp, hr⟩ | ⟨-, hr⟩ | ⟨-, hr⟩
    · have hpos := toNat_pos_succ hp
      rcases ih { d with pos := d.pos + 1 } with ⟨bs, d', h, ho, hl, h1⟩ | ⟨c, d', hc, h, ho⟩ | ⟨hl, h⟩
      · refine .inl ⟨b :: bs, d', by rw [readHeaderBytes, hr]; dsimp only; rw [h]; rfl, ?_, by simp [hl], ?_⟩
        · exact ReadsOnly.trans (d' := { d with pos := d.pos + 1 }) rfl ho
        · dsimp only at h1; omega
      · exact .inr (.inl ⟨c, d', hc, by rw [readHeaderBytes, hr]; dsimp only; rw [h]; rfl,
          ReadsOnly.trans (d' := { d with pos := d.pos + 1 }) rfl ho⟩)
      · exact .inr (.inr ⟨hl, by rw [readHeaderBytes, hr]; dsimp only; rw [h]; rfl⟩)
    · exact .inr (.inr ⟨long_of_byte_at_lastPos ha hp, by simp [readHeaderBytes, hr]⟩)
    · exact .inr (.inl ⟨.truncatedHeader, { d with ended := true }, .inl rfl, by simp [readHeaderBytes, hr], rfl⟩)
    · exact .inr (.inl ⟨.ioSource, d, .inr rfl, by simp [readHeaderBytes, hr], .refl d⟩)

/-! ### Writes -/

theorem outWrite_of_ok {e : Encoder} (b : Byte) (hf : e.sinkFail ≠ some e.outcount.toNat) (hp : e.outcount ≠ lastPos) :
    outWrite b e = .ok { e with out := e.out ++ [b], outcount := e.outcount + 1 } := by
  simp [outWrite, hf, hp]

/-- Everything one write can do. -/
theorem outWrite_cases (b : Byte) (e : Encoder) :
    (e.sinkFail ≠ some e.outcount.toNat ∧ e.outcount ≠ lastPos ∧
      outWrite b e = .ok { e with out := e.out ++ [b], outcount := e.outcount + 1 }) ∨
    (e.sinkFail = some e.outcount.toNat ∧ outWrite b e = .aborted (encAbort .ioSink e.outcount e)) ∨
    (e.sinkFail ≠ some e.outcount.toNat ∧ e.outcount = lastPos ∧ outWrite b e = .tooLong) := by
  by_cases hf : e.sinkFail = some e.outcount.toNat
  · exact .inr (.inl ⟨hf, by simp [outWrite, hf]⟩)
  · by_cases hp : e.outcount = lastPos
    · exact .inr (.inr ⟨hf, hp, by rw [outWrite, if_neg hf, if_pos hp]⟩)
    · exact .inl ⟨hf, hp, outWrite_of_ok b hf hp⟩

/-- `e` after the host has accepted `bytes`. -/
def accepted (bytes : List Byte) (e : Encoder) : Encoder :=
  { e with out := e.out ++ bytes, outcount := e.outcount + BitVec.ofNat 64 bytes.length }

theorem accepted_nil (e : Encoder) : accepted [] e = e := by simp [accepted]

theorem accepted_accepted (bs cs : List Byte) (e : Encoder) :
    accepted cs (accepted bs e) = accepted (bs ++ cs) e := by
  simp [accepted, BitVec.ofNat_add, BitVec.add_assoc]

/-- Everything several writes can do: all accepted; an abort after a part of them was accepted (R179); or a stream that
would be too long. -/
theorem writeAll_cases (bytes : List Byte) : ∀ e : Encoder,
    (writeAll bytes e = .ok (accepted bytes e) ∧ e.outcount.toNat + bytes.length < 2 ^ 64) ∨
    (∃ part rest, bytes = part ++ rest ∧ rest ≠ [] ∧ e.sinkFail = some (e.outcount.toNat + part.length) ∧
      writeAll bytes e = .aborted (encAbort .ioSink (accepted part e).outcount (accepted part e))) ∨
    (2 ^ 64 ≤ e.outcount.toNat + bytes.length ∧ writeAll bytes e = .tooLong) := by
  induction bytes with
  | nil => exact fun e => .inl ⟨by simp [writeAll, accepted_nil], by simpa using e.outcount.isLt⟩
  | cons b bs ih =>
    intro e
    rcases outWrite_cases b e with ⟨hf, hp, h⟩ | ⟨hf, h⟩ | ⟨-, hp, h⟩
    · have hw : writeAll (b :: bs) e = writeAll bs (accepted [b] e) := by simp [writeAll, h, accepted]
      have ho : (accepted [b] e).outcount.toNat = e.outcount.toNat + 1 := toNat_pos_succ hp
      rw [hw]
      rcases ih (accepted [b] e) with ⟨h', hl⟩ | ⟨part, rest, hb, hr, hs, h'⟩ | ⟨hl, h'⟩
      · refine .inl ⟨by rw [h', accepted_accepted]; rfl, ?_⟩
        rw [ho] at hl
        simp only [List.length_cons]
        omega
      · refine .inr (.inl ⟨b :: part, rest, by simp [hb], hr, ?_, by rw [h', accepted_accepted]; rfl⟩)
        have : (accepted [b] e).sinkFail = e.sinkFail := rfl
        rw [this, ho] at hs
        rw [hs]
        simp only [List.length_cons, Option.some.injEq]
        omega
      · refine .inr (.inr ⟨?_, h'⟩)
        rw [ho] at hl
        simp only [List.length_cons]
        omega
    · exact .inr (.inl ⟨[], b :: bs, rfl, by simp, by simpa using hf, by simp [writeAll, h, accepted_nil]⟩)
    · refine .inr (.inr ⟨?_, by simp [writeAll, h]⟩)
      rw [hp, show lastPos.toNat = 2 ^ 64 - 1 from rfl, List.length_cons]
      omega

/-- Where the host answers no write of the step `IOERR` and the stream stays below 2^64 - 1 bytes, every byte is
accepted. -/
theorem writeAll_of_ok (bytes : List Byte) : ∀ e : Encoder, e.outcount.toNat + bytes.length < 2 ^ 64 →
    (∀ j, j < bytes.length → e.sinkFail ≠ some (e.outcount.toNat + j)) →
    writeAll bytes e = .ok (accepted bytes e) := by
  induction bytes with
  | nil => exact fun e _ _ => by simp [writeAll, accepted_nil]
  | cons b bs ih =>
    intro e hl hf
    have hp : e.outcount ≠ lastPos := fun hc => by
      rw [hc] at hl
      simp [lastPos] at hl
      omega
    have h := outWrite_of_ok b (by simpa using hf 0 (by simp)) hp
    have hw : writeAll (b :: bs) e = writeAll bs (accepted [b] e) := by simp [writeAll, h, accepted]
    have ho : (accepted [b] e).outcount.toNat = e.outcount.toNat + 1 := toNat_pos_succ hp
    rw [hw, ih, accepted_accepted]
    · rfl
    · rw [ho]
      simp only [List.length_cons] at hl
      omega
    · intro j hj
      have hs : (accepted [b] e).sinkFail = e.sinkFail := rfl
      rw [ho, hs]
      have := hf (j + 1) (by simpa using hj)
      rwa [show e.outcount.toNat + 1 + j = e.outcount.toNat + (j + 1) by omega]

/-! ### Delivery and a chunk's step -/

/-- Everything the end of a pixel step can do (R151). -/
theorem deliver_cases (fromIndex : Bool) (d : Decoder) :
    (d.k.toNat < d.n.toNat ∧ deliver fromIndex d = .next (completeIfDone
      { d with
        cache := if fromIndex then d.cache else cacheStore d.cache (pixelHash d.px) d.px
        grid := writePixel d.grid d.k.toNat d.px
        k := d.k + 1 })) ∨
    (d.n.toNat ≤ d.k.toNat ∧ deliver fromIndex d = .fault .outputGridRange) := by
  by_cases h : d.k.toNat < d.n.toNat
  · exact .inl ⟨h, by simp [deliver, h]⟩
  · exact .inr ⟨by omega, by simp [deliver, h]⟩

@[simp] theorem onDecoder_next (s : State) (d : Decoder) : onDecoder s (.next d) = .next { s with dec := d } := rfl
@[simp] theorem onDecoder_fault (s : State) (f : Fault) : onDecoder s (.fault f) = .fault f := rfl
@[simp] theorem onDecoder_refused (s : State) (r : Refusal) : onDecoder s (.refused r) = .refused r := rfl
@[simp] theorem onEncoder_next (s : State) (e : Encoder) : onEncoder s (.next e) = .next { s with enc := e } := rfl
@[simp] theorem onEncoder_fault (s : State) (f : Fault) : onEncoder s (.fault f) = .fault f := rfl
@[simp] theorem onEncoder_refused (s : State) (r : Refusal) : onEncoder s (.refused r) = .refused r := rfl

/-- Everything a chunk's step can do: deliver, or stop for one of three reasons. -/
theorem chunkStep_cases (i : Instr) (fromIndex : Bool) (px : Pixel) (run : BitVec 14) (s : State) :
    (i.wf = true ∧ s.dec.phase = .pix ∧ s.dec.run = 0 ∧
      chunkStep i fromIndex px run s = onDecoder s (deliver fromIndex { s.dec with px := px, run := run })) ∨
    (i.wf = true ∧ ¬(s.dec.phase = .pix ∧ s.dec.run = 0) ∧ chunkStep i fromIndex px run s = .refused .chunkOutOfStream) ∨
    (i.wf = false ∧ chunkStep i fromIndex px run s = .refused .operandRange) := by
  by_cases hw : i.wf = true
  · by_cases hr : s.dec.phase = .pix ∧ s.dec.run = 0
    · exact .inl ⟨hw, hr.1, hr.2, by simp [chunkStep, hw, hr]⟩
    · exact .inr (.inl ⟨hw, hr, by rw [chunkStep, if_pos hw, if_neg hr]⟩)
  · exact .inr (.inr ⟨by simpa using hw, by simp [chunkStep, hw]⟩)

end Sys2Proof.Machine
end

