-- ==== Sys2Proof/Laws/Engines.lean ====
section
/-! SUPPORT. One lemma per engine operation that says everything it can do: a chunk's meaning, the fetch, a step with no
host action left, several steps. -/

namespace Sys2Proof.Machine

/-- Every meaning is a chunk's step: only INDEX skips the cache store, and a well-formed chunk leaves at most 8223 repeats
owed (R23, R163). -/
theorem exec_chunkStep (i : Instr) (s : State) :
    ∃ fromIndex px run, exec i s = chunkStep i fromIndex px run s ∧ (fromIndex = true ↔ ∃ slot, i = .index slot) ∧
      (i.wf = true → s.dec.run = 0 → run.toNat ≤ 8223) := by
  have kept : s.dec.run = 0 → s.dec.run.toNat ≤ 8223 := fun h => by rw [h]; decide
  have owed : ∀ count : Nat, count ≤ 8224 → (owedRepeats count).toNat ≤ 8223 := fun count h => by
    simp only [owedRepeats, BitVec.toNat_ofNat]
    omega
  cases i with
  | index => exact ⟨true, _, _, rfl, by simp, fun _ => kept⟩
  | runS =>
    refine ⟨false, _, _, rfl, by simp, fun h _ => owed _ ?_⟩
    simp only [Instr.wf, Bool.and_eq_true, decide_eq_true_eq] at h
    omega
  | runL =>
    refine ⟨false, _, _, rfl, by simp, fun h _ => owed _ ?_⟩
    simp only [Instr.wf, Bool.and_eq_true, decide_eq_true_eq] at h
    omega
  | diff1 => exact ⟨false, _, _, rfl, by simp, fun _ => kept⟩
  | diff2 => exact ⟨false, _, _, rfl, by simp, fun _ => kept⟩
  | diff3 => exact ⟨false, _, _, rfl, by simp, fun _ => kept⟩
  | lit => exact ⟨false, _, _, rfl, by simp, fun _ => kept⟩

/-- Everything the fetch of a chunk can do (R149, R153, R154): a chunk from a tag byte and all its operand bytes, with D.pos
moved by at most 5; the end of the input; an abort at one of the reads; or a stream that is too long. -/
theorem fetch_cases (d : Decoder) :
    (∃ b0 ops d', fetch d = .chunk (decodeChunk b0 ops) d' ∧ ops.length = operandCount b0 ∧ ReadsOnly d d' ∧
      d.pos.toNat ≤ d'.pos.toNat ∧ d'.pos.toNat ≤ d.pos.toNat + 5) ∨
    (fetch d = .endOfInput { d with ended := true } ∧ sourceAnswer d = .eoi) ∨
    (∃ d', fetch d = .aborted (decAbort .ioSource d'.pos d') ∧ ReadsOnly d d') ∨
    (2 ^ 64 ≤ d.stream.length ∧ fetch d = .tooLong) := by
  have few : ∀ b : Byte, operandCount b ≤ 4 := by decide
  rcases inRead_cases d with ⟨b, -, hp, hr⟩ | ⟨b, hb, hp, hr⟩ | ⟨ha, hr⟩ | ⟨-, hr⟩
  · have hpos := toNat_pos_succ hp
    have moved : ReadsOnly d { d with pos := d.pos + 1 } := rfl
    rcases readOperands_cases (operandCount b) { d with pos := d.pos + 1 } with
      ⟨bs, d', h, ho, hl, h1, h2⟩ | ⟨d', h, ho, -⟩ | ⟨hl, h⟩
    · refine .inl ⟨b, bs, d', by rw [fetch, hr]; dsimp only; rw [h], hl, moved.trans ho, ?_, ?_⟩
      · dsimp only at h1; omega
      · have := few b; dsimp only at h2; omega
    · exact .inr (.inr (.inl ⟨d', by rw [fetch, hr]; dsimp only; rw [h], moved.trans ho⟩))
    · exact .inr (.inr (.inr ⟨hl, by rw [fetch, hr]; dsimp only; rw [h]⟩))
  · exact .inr (.inr (.inr ⟨long_of_byte_at_lastPos hb hp, by rw [fetch, hr]⟩))
  · exact .inr (.inl ⟨by rw [fetch, hr], ha⟩)
  · exact .inr (.inr (.inl ⟨d, by rw [fetch, hr], .refl d⟩))

/-- With no host action left, the decoder moves if a pass of it runs, else the encoder (log 7). -/
theorem step_of_script_nil {s : State} (h : s.script = []) :
    step s = if s.dec.phase ≠ .idle then decoderStep s else encoderStep s := by
  rw [step, nextMove, h]
  rfl

/-- With a host action next, a step is that action. -/
theorem step_of_script_cons {s : State} {a : HostAction} {rest : List HostAction} (h : s.script = a :: rest) :
    step s = hostAction a { s with script := rest } := by
  rw [step, nextMove, h]

/-- A step that gives a next state is the first of `n + 1` steps. -/
theorem run_succ {n : Nat} {s t : State} (h : step s = .next t) :
    Host.Core.run Sys2Proof.core (n + 1) s = Host.Core.run Sys2Proof.core n t := by
  have first : Sys2Proof.core.step s = .next t := h
  simp only [Host.Core.run, first]

end Sys2Proof.Machine
end

