-- ==== Sys2Proof/Laws/PerInstr.lean ====
section
/-! SUPPORT. Statements for all instructions, one lemma per constructor. Family `Length`: the encoding of a chunk is its
tag byte and as many operand bytes as the tag byte asks for (R81, R94). -/

namespace Sys2Proof.Laws.Length

/-- The encoding of `i` has the length its tag byte gives (R94). -/
def Statement (i : Instr) : Prop := ∃ b0 ops, encode i = b0 :: ops ∧ ops.length = operandCount b0

theorem index (slot : Fin 64) : Statement (.index slot) :=
  ⟨_, _, rfl, by
    have : ∀ x : BitVec 6, operandCount (0b00#2 ++ x) = 0 := by decide
    exact (this _).symm⟩

theorem runS (count : Nat) : Statement (.runS count) :=
  ⟨_, _, rfl, by
    have : ∀ x : BitVec 5, operandCount (0b010#3 ++ x) = 0 := by decide
    exact (this _).symm⟩

theorem runL (count : Nat) : Statement (.runL count) :=
  ⟨_, _, rfl, by
    have : ∀ x : BitVec 5, operandCount (0b011#3 ++ x) = 1 := by decide
    exact (this _).symm⟩

theorem diff1 (dr dg db : Int) : Statement (.diff1 dr dg db) :=
  ⟨_, _, rfl, by
    have : ∀ x y z : BitVec 2, operandCount (0b10#2 ++ x ++ y ++ z) = 0 := by decide
    exact (this _ _ _).symm⟩

theorem diff2 (dr dg db : Int) : Statement (.diff2 dr dg db) :=
  ⟨_, _, rfl, by
    have : ∀ x : BitVec 5, operandCount (0b110#3 ++ x) = 1 := by decide
    exact (this _).symm⟩

theorem diff3 (dr dg db da : Int) : Statement (.diff3 dr dg db da) :=
  ⟨_, _, rfl, by
    have : ∀ x : BitVec 4, operandCount (0b1110#4 ++ x) = 2 := by decide
    exact (this _).symm⟩

theorem operandCount_lit : ∀ r g b a : Bool,
    operandCount (0b1111#4 ++ BitVec.ofBool r ++ BitVec.ofBool g ++ BitVec.ofBool b ++ BitVec.ofBool a) =
      r.toNat + g.toNat + b.toNat + a.toNat := by decide

theorem length_litByte (c : Option Byte) : (litByte c).length = c.isSome.toNat := by cases c <;> rfl

theorem lit (r g b a : Option Byte) : Statement (.lit r g b a) :=
  ⟨_, _, rfl, by simp [operandCount_lit, length_litByte, Nat.add_assoc]⟩

end Sys2Proof.Laws.Length
end

