-- ==== Sys2Proof/Tests/Slice0.lean ====
section
/-! SUPPORT. Tests with expected results from spec/95_test_vectors.md, and for every statement with hypotheses a witness
that meets them together. -/

namespace Sys2Proof.Tests

open Sys2Proof.Machine

/-! ### Helpers -/

/-- The outcome is a next state with the property `p`. -/
def nextIs (o : Host.Outcome State Fault Refusal) (p : State → Bool) : Bool :=
  match o with
  | .next t => p t
  | _ => false

/-- Pixel A of the test vectors. -/
def pixA : Pixel := ⟨10, 20, 30, 255⟩

/-- Pixel B of the test vectors. -/
def pixB : Pixel := ⟨11, 19, 30, 255⟩

/-- A decoder pass at its first pixel of two, with current pixel `px`, slot 63 holding `slot63`, and stream `bytes`. -/
def decAt (px slot63 : Pixel) (bytes : List Byte) : State :=
  let s := placeChunk bytes State.reset
  { s with dec := { s.dec with px := px, cache := cacheStore cacheInit 63 slot63 } }

/-- A decoder pass before its header, in mode `m`, with stream `bytes` and the read at `fail` answered IOERR. -/
def decHdr (m : Mode) (bytes : List Byte) (fail : Option Nat) : State :=
  { State.reset with dec := { decInit Decoder.reset with mode := m, stream := bytes, srcFail := fail } }

/-- An encoder pass over the 2x1 image `image`, in `phase`, at pixel `k` with previous pixel `prev` and pending run
`run`. -/
def encAt (phase : EncPhase) (image : List (BitVec 32)) (k : BitVec 64) (prev : Pixel) (run : BitVec 14) : State :=
  { State.reset with enc := { encInit { Encoder.reset with cfgWidth := 2, cfgHeight := 1, grid := gridOf 0 image } with
      phase := phase, k := k, prev := prev, run := run } }

/-- The image [A, B]. -/
def imageAB : List (BitVec 32) := [0x0A141EFF, 0x0B131EFF]

/-- The chunk bytes of one encoder pixel step that is not the last, with the cache of a pass start. -/
def emitted (prev px : Pixel) : List Byte := (chunkEnc prev px 0 false cacheInit).bytes

/-- A host script that starts the given engine. -/
def scripted (a : HostAction) (s : State) : State := { s with script := [a] }

theorem none_ne_some (j : Nat) : (none : Option Nat) ≠ some j := nofun

/-! ### Well-formedness: the range of each operand (R96) -/

theorem test_wf_runS : (Instr.runS 0).wf = false ∧ (Instr.runS 33).wf = false := by decide

theorem test_wf_runL : (Instr.runL 32).wf = false ∧ (Instr.runL 8225).wf = false := by decide

theorem test_wf_diff1 :
    (Instr.diff1 (-3) 0 0).wf = false ∧ (Instr.diff1 2 0 0).wf = false ∧ (Instr.diff1 0 (-3) 0).wf = false ∧
    (Instr.diff1 0 2 0).wf = false ∧ (Instr.diff1 0 0 (-3)).wf = false ∧ (Instr.diff1 0 0 2).wf = false := by decide

theorem test_wf_diff2 :
    (Instr.diff2 (-17) 0 0).wf = false ∧ (Instr.diff2 16 0 0).wf = false ∧ (Instr.diff2 0 (-9) 0).wf = false ∧
    (Instr.diff2 0 8 0).wf = false ∧ (Instr.diff2 0 0 (-9)).wf = false ∧ (Instr.diff2 0 0 8).wf = false := by decide

theorem test_wf_diff3 :
    (Instr.diff3 (-17) 0 0 0).wf = false ∧ (Instr.diff3 16 0 0 0).wf = false ∧ (Instr.diff3 0 (-17) 0 0).wf = false ∧
    (Instr.diff3 0 16 0 0).wf = false ∧ (Instr.diff3 0 0 (-17) 0).wf = false ∧ (Instr.diff3 0 0 16 0).wf = false ∧
    (Instr.diff3 0 0 0 (-17)).wf = false ∧ (Instr.diff3 0 0 0 16).wf = false := by decide

/-! ### Decoding: bytes written out from the formats of R82 to R88 -/

theorem test_decode_index : decode [0b00111111] = .ok (.index 63, []) := by decide

theorem test_decode_runS : decode [0b01000010] = .ok (.runS 3, []) := by decide

theorem test_decode_runL : decode [0b01100001, 0b00001011] = .ok (.runL 300, []) := by decide

/-- DIFF1 1, -1, 0: r field 11, g field 01, b field 10 (E3). -/
theorem test_decode_diff1 : decode [0b10110110] = .ok (.diff1 1 (-1) 0, []) := by decide

/-- DIFF2 5, 0, -3: r field 10101, g field 1000, b field 0101. -/
theorem test_decode_diff2 : decode [0b11010101, 0b10000101] = .ok (.diff2 5 0 (-3), []) := by decide

/-- DIFF3 1, -1, 3, -16: fields 10001, 01111, 10011, 00000 (E14). -/
theorem test_decode_diff3 : decode [0b11101000, 0b10111110, 0b01100000] = .ok (.diff3 1 (-1) 3 (-16), []) := by decide

/-- LIT g=20, a=200: presence bits 0101. -/
theorem test_decode_lit : decode [0b11110101, 20, 200] = .ok (.lit none (some 20) none (some 200), []) := by decide

/-! ### One step of the chunk decoder: vectors D1 to D18 and program P2 -/

/-- P2, k = 2: INDEX 63 gives A from the cache. -/
theorem test_step_index : nextIs (step (decAt pixB pixA [0x3F])) (fun t => t.dec.px = pixA ∧ t.dec.pos = 1) := by decide

/-- D11: RUN_S 3 leaves two repeats. -/
theorem test_step_runS : nextIs (step (decAt seed transparent [0x42]))
    (fun t => t.dec.px = seed ∧ t.dec.run = 2 ∧ t.dec.cache[63] = seed) := by decide

/-- D13: RUN_L 300 loads D.run with 299. -/
theorem test_step_runL : nextIs (step (decAt seed transparent [0x61, 0x0B]))
    (fun t => t.dec.px = seed ∧ t.dec.run = 299 ∧ t.dec.pos = 2) := by decide

/-- D2: DIFF1 -2, -2, -2 wraps. -/
theorem test_step_diff1 : nextIs (step (decAt seed transparent [0x80]))
    (fun t => t.dec.px = ⟨254, 254, 254, 255⟩ ∧ t.dec.cache[1] = ⟨254, 254, 254, 255⟩) := by decide

/-- D7: DIFF2 -16, -8, -8 wraps. -/
theorem test_step_diff2 : nextIs (step (decAt seed transparent [0xC0, 0x00]))
    (fun t => t.dec.px = ⟨240, 248, 248, 255⟩ ∧ t.dec.cache[15] = ⟨240, 248, 248, 255⟩) := by decide

/-- D9: DIFF3 15, 15, 15, 15 wraps alpha. -/
theorem test_step_diff3 : nextIs (step (decAt seed transparent [0xEF, 0xFF, 0xFF]))
    (fun t => t.dec.px = ⟨15, 15, 15, 14⟩ ∧ t.dec.cache[1] = ⟨15, 15, 15, 14⟩) := by decide

/-- D18: a literal with two operand bytes missing. -/
theorem test_step_lit : nextIs (step (decAt seed transparent [0xFE, 0x0A]))
    (fun t => t.dec.px = ⟨10, 0, 0, 255⟩ ∧ t.dec.pos = 2) := by decide

/-! ### One pixel step of the chunk encoder: vectors E1 to E28 and the run table -/

/-- E24: transparent black is in slot 0 from the pass start. -/
theorem test_emit_index : emitted seed ⟨0, 0, 0, 0⟩ = [0x00] := by decide

/-- Run table: 32 is the longest short run. -/
theorem test_emit_runS : (chunkEnc pixA pixA 31 true cacheInit).bytes = [0x5F] := by decide

/-- Run table: a run of 8224 is flushed in the step that reaches it. -/
theorem test_emit_runL : (chunkEnc pixA pixA 8223 false cacheInit).bytes = [0x7F, 0xFF] := by decide

/-- E3. -/
theorem test_emit_diff1 : emitted pixA pixB = [0xB6] := by decide

/-- E4: dr = 2 is outside DIFF1. -/
theorem test_emit_diff2 : emitted pixA ⟨12, 20, 30, 255⟩ = [0xD2, 0x88] := by decide

/-- E11: an alpha change that wraps. -/
theorem test_emit_diff3 : emitted pixA ⟨10, 20, 30, 14⟩ = [0xE8, 0x42, 0x1F] := by decide

/-- E15: dr = -17. -/
theorem test_emit_lit : emitted pixA ⟨249, 20, 30, 255⟩ = [0xF8, 0xF9] := by decide

/-! ### Engine steps -/

/-- H1. -/
theorem test_header_bytes : headerBytes 3 2 = be32 Config.magic ++ [0, 0, 0, 3, 0, 0, 0, 2, 4, 0] := by rfl

/-- H7: a short input with any first bytes is TRUNCATED_HEADER. -/
theorem test_truncated_header :
    nextIs (step (decHdr .full [0, 0, 0, 0, 0, 0, 0, 1, 0, 0, 0] none))
      (fun t => t.dec.status = 0x0C ∧ t.dec.errPos = 11) := by decide

/-- H9: IOERR to the sixth read. -/
theorem test_header_ioerr :
    nextIs (step (decHdr .full [0, 0, 0, 0, 0, 0, 0, 1, 0, 0, 0] (some 5)))
      (fun t => t.dec.status = 0x1C ∧ t.dec.errPos = 5) := by decide

/-- L1.3: a cache hit wins over a DIFF1 that would fit. -/
theorem test_hit_before_diff : (encodePixel pixA pixB (cacheStore cacheInit 63 pixA)).1 = .index 63 := by decide

/-- A table word runs as the first instruction: DIFF3 0, 0, 0, -16 (L1.7). -/
theorem test_table_word : decodeTableWord 24 0x0042E8 = some (.diff3 0 0 0 (-16)) ∧
    nextIs (step (State.reset.withFetchWord 24 0x0042E8)) (fun t => t.dec.px.a = 240 ∧ t.dec.pos = 3) := by decide

/-- Program P3's lines: a run of 35, and the spec's run table at 8257. -/
theorem test_spell_run : spellLine (.run 35) = some [0x60, 0x02] ∧ spellLine (.run 8257) = some [0x7F, 0xFF, 0x60, 0x00] := by
  decide

/-- E6 and E12 by the pseudo-instruction, and E16, which no tier holds. -/
theorem test_spell_diff : spellLine (.diff (-16) (-8) (-8) 0) = some [0xC0, 0x00] ∧
    spellLine (.diff (-16) (-16) (-16) (-16)) = some [0xE0, 0x00, 0x00] ∧ spellLine (.diff 16 0 0 0) = none := by decide

/-- The assembler refuses an operand out of range. -/
theorem test_spell_refused : spellProgram [.chunk (.runS 3), .chunk (.runS 33)] = none := by decide

/-! ### Witnesses: encoding -/

/-- Each constructor at the ends of its ranges. -/
theorem witness_DecodeOfEncode :
    (Instr.index 63).wf ∧ (Instr.runS 1).wf ∧ (Instr.runS 32).wf ∧ (Instr.runL 33).wf ∧ (Instr.runL 8224).wf ∧
    (Instr.diff1 (-2) (-2) (-2)).wf ∧ (Instr.diff1 1 1 1).wf ∧ (Instr.diff2 (-16) (-8) (-8)).wf ∧
    (Instr.diff2 15 7 7).wf ∧ (Instr.diff3 (-16) (-16) (-16) (-16)).wf ∧ (Instr.diff3 15 15 15 15).wf ∧
    (Instr.lit none none none none).wf := by decide

theorem witness_EncodeOfDecode : decode [0x7F, 0xFF, 0x40] = .ok (.runL 8224, [0x40]) := by decide

/-- The first and the last tag byte of each kind. -/
theorem witness_TagBytePartition :
    kindOf 0x00 = .index ∧ kindOf 0x3F = .index ∧ kindOf 0x40 = .runS ∧ kindOf 0x5F = .runS ∧ kindOf 0x60 = .runL ∧
    kindOf 0x7F = .runL ∧ kindOf 0x80 = .diff1 ∧ kindOf 0xBF = .diff1 ∧ kindOf 0xC0 = .diff2 ∧ kindOf 0xDF = .diff2 ∧
    kindOf 0xE0 = .diff3 ∧ kindOf 0xEF = .diff3 ∧ kindOf 0xF0 = .lit ∧ kindOf 0xFF = .lit := by decide

/-- Exactly enough bytes for the longest chunk, and one too few. -/
theorem witness_ChunkLengthFromTag :
    tagLength 0xFF ≤ ([0xFF, 1, 2, 3, 4] : List Byte).length ∧ ([0xFF, 1, 2, 3] : List Byte).length < tagLength 0xFF := by
  decide

theorem witness_FixedFieldLayout :
    kindOf 0x3F = .index ∧ kindOf 0x5F = .runS ∧ kindOf 0x7F = .runL ∧ kindOf 0xBF = .diff1 ∧ kindOf 0xDF = .diff2 ∧
    kindOf 0xEF = .diff3 ∧ (0xEF8421 : Nat) = (0xEF : Byte).toNat * 65536 + (0x84 : Byte).toNat * 256 + (0x21 : Byte).toNat := by
  decide

theorem witness_LiteralFieldLayout : kindOf 0xF0 = .lit ∧ kindOf 0xF5 = .lit ∧ kindOf 0xFF = .lit := by decide

/-- The counts at which the split changes. -/
theorem witness_PseudoRunCovers : 1 ≤ 1 ∧ 1 ≤ 8224 ∧ 1 ≤ 8225 ∧ 1 ≤ 8257 := by decide

/-- A pixel for each case: a tier is spelled, and none is. -/
theorem witness_PseudoDiffIsEncoderTier :
    expandDiff (sdelta 11 10) (sdelta 19 20) 0 0 = some (.diff1 1 (-1) 0) ∧ expandDiff (sdelta 26 10) 0 0 0 = none := by
  decide

/-! ### Witnesses: the chunk decoder -/

theorem witness_IndexTakesSlotPixel : ChunkReady (decAt pixB pixA []).dec := by decide

theorem witness_ShortRunRepeatsPixel : 1 ≤ 1 ∧ 1 ≤ 32 ∧ 1 ≤ 32 ∧ 32 ≤ 32 ∧ ChunkReady (decAt pixB pixA []).dec := by decide

theorem witness_LongRunRepeatsPixel : 33 ≤ 33 ∧ 33 ≤ 8224 ∧ 33 ≤ 8224 ∧ 8224 ≤ 8224 ∧ ChunkReady (decAt pixB pixA []).dec := by
  decide

theorem witness_Diff1AddsDeltas : (Instr.diff1 (-2) 1 0).wf = true ∧ ChunkReady (decAt pixB pixA []).dec := by decide

theorem witness_Diff2AddsDeltas : (Instr.diff2 (-16) 7 (-8)).wf = true ∧ ChunkReady (decAt pixB pixA []).dec := by decide

theorem witness_Diff3AddsDeltas : (Instr.diff3 (-16) 15 0 (-16)).wf = true ∧ ChunkReady (decAt pixB pixA []).dec := by decide

theorem witness_LiteralReplacesChannels : ChunkReady (decAt pixB pixA []).dec := by decide

/-- INDEX leaves every slot, a run the pixel, a literal every slot but its pixel's; none is at the last pixel. -/
theorem witness_ChunkFrame :
    (∃ t, exec (.index 63) (decAt pixB pixA []) = .next t) ∧ (∃ t, exec (.runL 33) (decAt pixB pixA []) = .next t) ∧
    (decAt pixB pixA []).dec.k + 1 ≠ (decAt pixB pixA []).dec.n ∧
    ∃ t, exec (.lit (some 1) none none none) (decAt pixB pixA []) = .next t ∧ (0 : Fin 64) ≠ pixelHash t.dec.px :=
  ⟨⟨_, rfl⟩, ⟨_, rfl⟩, by decide, _, rfl, by decide⟩

/-- One state for each of the three clauses. -/
theorem witness_ChunkStops :
    (Instr.runS 33).wf = false ∧
    ((Instr.runS 32).wf = true ∧ ¬(State.reset.dec.phase = .pix ∧ State.reset.dec.run = 0)) ∧
    (let s := decAt pixB pixA []
     let full : State := { s with dec := { s.dec with k := 2 } }
     (Instr.runS 32).wf = true ∧ full.dec.phase = .pix ∧ full.dec.run = 0 ∧ full.dec.n.toNat ≤ full.dec.k.toNat) := by
  decide

/-! ### Witnesses: the stream decoder -/

theorem witness_StepRunsDecodedChunk :
    let s := decAt pixB pixA [0xFE, 1, 2, 3, 0x40]
    DecoderMoves s ∧ s.dec.run = 0 ∧ s.dec.ended = false ∧
      decode (s.dec.stream.drop s.dec.pos.toNat) = .ok (.lit (some 1) (some 2) (some 3) none, [0x40]) ∧
      s.dec.pos.toNat + (encode (.lit (some 1) (some 2) (some 3) none)).length < 2 ^ 64 ∧
      ∀ j, j < (encode (.lit (some 1) (some 2) (some 3) none)).length → s.dec.srcFail ≠ some (s.dec.pos.toNat + j) := by
  decide

theorem witness_MissingOperandsReadZero :
    let s := decAt seed transparent [0xFE, 0x0A]
    DecoderMoves s ∧ s.dec.run = 0 ∧ s.dec.ended = false ∧ s.dec.stream.drop s.dec.pos.toNat = 0xFE :: [0x0A] ∧
      [(0x0A : Byte)].length + 1 < tagLength 0xFE ∧ s.dec.pos.toNat + [(0x0A : Byte)].length + 1 < 2 ^ 64 ∧
      ∀ j, j ≤ [(0x0A : Byte)].length + 1 → s.dec.srcFail ≠ some (s.dec.pos.toNat + j) := by
  refine ⟨by decide, by decide, by decide, by decide, by decide, by decide, fun j _ => ?_⟩
  exact none_ne_some _

theorem witness_RunContinuation :
    let s := decAt pixA pixA []
    let owed : State := { s with dec := { s.dec with run := 8223 } }
    DecoderMoves owed ∧ owed.dec.run ≠ 0 ∧ owed.dec.k.toNat < owed.dec.n.toNat := by decide

/-- The end of the stream, reached now or before. -/
theorem witness_EndOfInputRepeatsPixel :
    (let s := decAt pixA pixA []
     DecoderMoves s ∧ s.dec.run = 0 ∧ s.dec.k.toNat < s.dec.n.toNat ∧ s.dec.stream.length ≤ s.dec.pos.toNat ∧
       s.dec.srcFail ≠ some s.dec.pos.toNat) ∧
    (let s := decAt pixA pixA []
     let past : State := { s with dec := { s.dec with ended := true } }
     DecoderMoves past ∧ past.dec.run = 0 ∧ past.dec.k.toNat < past.dec.n.toNat ∧ past.dec.ended = true) := by decide

/-- IOERR at the tag byte, and at the last operand byte of a literal. -/
theorem witness_SourceErrorAborts :
    (let s := decAt pixA pixA []
     let bad : State := { s with dec := { s.dec with srcFail := some 0 } }
     DecoderMoves bad ∧ bad.dec.run = 0 ∧ bad.dec.ended = false ∧ bad.dec.srcFail = some (bad.dec.pos.toNat + 0) ∧
       bad.dec.pos.toNat + 0 < 2 ^ 64) ∧
    (let s := decAt pixA pixA [0xFE, 0x0A, 0x14]
     let bad : State := { s with dec := { s.dec with srcFail := some 3 } }
     DecoderMoves bad ∧ bad.dec.run = 0 ∧ bad.dec.ended = false ∧ bad.dec.srcFail = some (bad.dec.pos.toNat + 3) ∧
       bad.dec.pos.toNat + 3 < 2 ^ 64 ∧ bad.dec.stream.drop bad.dec.pos.toNat = 0xFE :: [0x0A, 0x14] ∧
       3 < tagLength 0xFE ∧ 3 ≤ [(0x0A : Byte), 0x14].length + 1) := by decide

/-- An IDLE decoder and a busy one. -/
theorem witness_DecoderStart :
    ((scripted .startDecoder State.reset).script = [.startDecoder] ∧
      (scripted .startDecoder State.reset).dec.phase = .idle) ∧
    (scripted .startDecoder (decAt pixA pixA [])).script = [.startDecoder] ∧
      (scripted .startDecoder (decAt pixA pixA [])).dec.phase ≠ .idle := by decide

/-- The header bytes of MAGIC, whatever it is. -/
def magicBytes : List Byte := [magicByte 0, magicByte 1, magicByte 2, magicByte 3]

/-- The hypotheses of HeaderAccepted for a pass in mode `m` over a header of the given width and height 1. -/
def HeaderCase (m : Mode) (width : Byte) : Prop :=
  let s := decHdr m (magicBytes ++ [0, 0, 0, width, 0, 0, 0, 1, 3, 1] ++ [0x40]) none
  DecoderReadsHeader s ∧ (∀ j, j < 14 → s.dec.srcFail ≠ some j) ∧ s.dec.mode = m ∧
    s.dec.stream = [magicByte 0, magicByte 1, magicByte 2, magicByte 3, 0, 0, 0, width, 0, 0, 0, 1, 3, 1] ++ [0x40]

theorem headerCase (m : Mode) (width : Byte) : HeaderCase m width :=
  ⟨⟨rfl, rfl, rfl, rfl⟩, fun _ _ => none_ne_some _, rfl, rfl⟩

/-- A full pass with pixels, a full pass without, and a header-only pass. -/
theorem witness_HeaderAccepted : HeaderCase .full 1 ∧ HeaderCase .full 0 ∧ HeaderCase .headerOnly 1 :=
  ⟨headerCase _ _, headerCase _ _, headerCase _ _⟩

/-- No byte at all, and one byte too few. -/
theorem witness_TruncatedHeaderAborts :
    (DecoderReadsHeader (decHdr .full [] none) ∧ (decHdr .full [] none).dec.stream.length < 14) ∧
    DecoderReadsHeader (decHdr .full (List.replicate 13 0) none) ∧
      (decHdr .full (List.replicate 13 0) none).dec.stream.length < 14 ∧
      ∀ j, j ≤ 13 → (decHdr .full (List.replicate 13 0) none).dec.srcFail ≠ some j :=
  ⟨⟨⟨rfl, rfl, rfl, rfl⟩, by decide⟩, ⟨rfl, rfl, rfl, rfl⟩, by decide, fun _ _ => none_ne_some _⟩

theorem witness_BadMagicAborts :
    let s := decHdr .full (~~~magicByte 0 :: List.replicate 13 0) none
    DecoderReadsHeader s ∧ 14 ≤ s.dec.stream.length ∧ (∀ j, j < 14 → s.dec.srcFail ≠ some j) ∧
      s.dec.stream[0]? ≠ some (magicByte 0) := by
  have differs : ∀ b : Byte, some (~~~b) ≠ some b := by decide
  exact ⟨⟨rfl, rfl, rfl, rfl⟩, by decide, fun _ _ => none_ne_some _, differs _⟩

/-- The read that fails is the first, or the one at the end of a short stream. -/
theorem witness_HeaderSourceErrorAborts :
    (DecoderReadsHeader (decHdr .full [] (some 0)) ∧ (decHdr .full [] (some 0)).dec.srcFail = some 0) ∧
    DecoderReadsHeader (decHdr .full [0, 0, 0] (some 3)) ∧ 3 ≤ (decHdr .full [0, 0, 0] (some 3)).dec.stream.length :=
  ⟨⟨⟨rfl, rfl, rfl, rfl⟩, rfl⟩, ⟨rfl, rfl, rfl, rfl⟩, by decide⟩

/-- A step that aborts and one that does not. -/
theorem witness_PositionAdvances :
    ((decAt pixA pixA [0x40]).script = [] ∧ (decAt pixA pixA [0x40]).dec.phase ≠ .idle ∧
      ∃ t, step (decAt pixA pixA [0x40]) = .next t) ∧
    ∃ t, step (decHdr .full [] none) = .next t :=
  ⟨⟨rfl, by decide, _, rfl⟩, _, rfl⟩

/-! ### Witnesses: the stream encoder -/

/-- An IDLE encoder with its two pixels supplied, one with two pixels for a width of 3, and a busy one. -/
theorem witness_EncoderStart :
    (let s := scripted .startEncoder (encAt .idle imageAB 0 seed 0)
     s.script = [.startEncoder] ∧ s.enc.phase = .idle ∧
       holdsPixels s.enc.grid (s.enc.cfgWidth.toNat * s.enc.cfgHeight.toNat) = true) ∧
    (let two := scripted .startEncoder (encAt .idle imageAB 0 seed 0)
     let s : State := { two with enc := { two.enc with cfgWidth := 3 } }
     s.script = [.startEncoder] ∧ s.enc.phase = .idle ∧
       holdsPixels s.enc.grid (s.enc.cfgWidth.toNat * s.enc.cfgHeight.toNat) = false) ∧
    (let s := scripted .startEncoder (encAt .pad imageAB 0 seed 0)
     s.script = [.startEncoder] ∧ s.enc.phase ≠ .idle) := by decide

theorem witness_EncoderWritesHeader :
    SinkAccepts (encAt .hdr imageAB 0 seed 0).enc 14 ∧ (encAt .hdr imageAB 0 seed 0).enc.phase = .hdr := by decide

/-- The last pixel, after a run of 8223: a long run chunk and the pixel's own chunk. -/
theorem witness_EncoderPixelStep :
    let s := encAt .pix imageAB 1 pixA 8223
    SinkAccepts s.enc 7 ∧ s.enc.phase = .pix ∧ s.enc.run.toNat ≤ 8223 ∧ s.enc.k.toNat < s.enc.n.toNat ∧
      readPixel s.enc.grid s.enc.k.toNat = some pixB := by decide

/-- One pixel for each tier after A: E2, E7, E13, and E16 at the first value outside all of them. -/
theorem witness_SmallestTier :
    (Instr.diff1 (sdelta 11 10) (sdelta 21 20) (sdelta 31 30)).wf = true ∧
    ((Instr.diff1 (sdelta 25 10) (sdelta 27 20) (sdelta 37 30)).wf = false ∧
      (Instr.diff2 (sdelta 25 10) (sdelta 27 20) (sdelta 37 30)).wf = true) ∧
    ((Instr.diff2 (sdelta 25 10) (sdelta 35 20) (sdelta 45 30)).wf = false ∧
      (Instr.diff3 (sdelta 25 10) (sdelta 35 20) (sdelta 45 30) (sdelta 14 255)).wf = true) ∧
    ((Instr.diff1 (sdelta 26 10) 0 0).wf = false ∧ (Instr.diff2 (sdelta 26 10) 0 0).wf = false ∧
      (Instr.diff3 (sdelta 26 10) 0 0 0).wf = false) := by decide

theorem witness_EncoderWritesPadding :
    SinkAccepts (encAt .pad imageAB 2 pixB 0).enc 4 ∧ (encAt .pad imageAB 2 pixB 0).enc.phase = .pad := by decide

/-- The sink's error at the third byte of a literal (E30), and at the first byte of the padding. -/
theorem witness_SinkErrorAborts :
    (let s := encAt .pix imageAB 0 seed 0
     let bad : State := { s with enc := { s.enc with sinkFail := some 2 } }
     bad.enc.phase ≠ .idle ∧ (pixIn bad.enc).isSome = true ∧
       2 < (stepBytes bad.enc).length ∧ bad.enc.outcount.toNat + 2 < 2 ^ 64 ∧
       bad.enc.sinkFail = some (bad.enc.outcount.toNat + 2)) ∧
    (let s := encAt .pad imageAB 2 pixB 0
     let bad : State := { s with enc := { s.enc with sinkFail := some 0 } }
     bad.enc.phase ≠ .idle ∧ bad.enc.phase ≠ .pix ∧ 0 < (stepBytes bad.enc).length ∧ bad.enc.sinkFail = some (bad.enc.outcount.toNat + 0)) := by
  decide

theorem witness_PixelStepBytesBounded : (8223 : BitVec 14).toNat ≤ 8223 := by decide

/-- A step of each engine, the decoder's with a pixel already delivered. -/
theorem witness_OutputsAreFinal :
    (∃ t, engineTurn .encoder (encAt .pix imageAB 0 seed 0) = .next t) ∧
    (let s := decAt pixA pixA [0x40]
     let later : State := { s with dec := { s.dec with k := 1, grid := gridOf 0 [0x0A141EFF] } }
     0 < later.dec.k.toNat ∧ ∃ t, engineTurn .decoder later = .next t) :=
  ⟨⟨_, rfl⟩, by decide, _, rfl⟩

/-! ### Witnesses: encoder and decoder together -/

theorem cachesAgree_refl (c : Cache) : CachesAgree c c := ⟨fun _ _ => rfl, .inl rfl⟩

/-- A miss and a hit, with equal caches and with the caches that differ at slot 63. -/
theorem witness_PixelChunkRoundTrip :
    let s := decAt pixB seed []
    ChunkReady s.dec ∧ pixA ≠ s.dec.px ∧ CachesAgree s.dec.cache s.dec.cache ∧ CachesAgree cacheInit s.dec.cache := by
  refine ⟨by decide, by decide, cachesAgree_refl _, ?_⟩
  exact ⟨by decide, .inr ⟨by decide, by decide⟩⟩

theorem witness_PassRoundTrip :
    let s : State := { State.reset with enc := { Encoder.reset with cfgWidth := 2, cfgHeight := 1, grid := gridOf 0 imageAB } }
    s.script = [] ∧ s.enc.phase = .idle ∧ s.dec.phase = .idle ∧ s.enc.sinkFail = none ∧ s.dec.srcFail = none ∧
      s.dec.cfgMode = 0 ∧ s.enc.grid = gridOf 0 imageAB ∧
      imageAB.length = s.enc.cfgWidth.toNat * s.enc.cfgHeight.toNat ∧ 5 * imageAB.length + 18 < 2 ^ 64 := by decide

theorem witness_EngineStepsCommute :
    let s : State := { encAt .pix imageAB 0 seed 0 with dec := (decAt pixA pixA [0x40]).dec }
    (∃ t, encoderStep s = .next t) ∧ ∃ u, decoderStep s = .next u := ⟨⟨_, rfl⟩, _, rfl⟩

/-! ### Witnesses: invariants, reset, the host -/

theorem cacheOk_init : CacheOk cacheInit := by
  intro i
  exact .inl (by simp [cacheInit])

theorem encInv_reset : EncInv Encoder.reset where
  gridWf := by decide
  busy := by decide
  rest := by decide
  count := by decide
  atStart := by decide
  pixels := by decide
  padding := by decide
  runBound := by decide
  slots := fun h => absurd rfl h
  written := by decide
  supplied := fun h => absurd rfl h

theorem decInv_reset : DecInv Decoder.reset where
  gridWf := by decide
  busy := by decide
  rest := by decide
  atStart := by decide
  count := by decide
  pixels := by decide
  runBound := by decide
  slots := fun h => absurd rfl h
  delivered := by decide
  complete := by decide

/-- A decoder pass at its first pixel meets its invariant. -/
theorem decInv_pix : DecInv (decAt seed transparent [0x42]).dec where
  gridWf := by decide
  busy := by decide
  rest := nofun
  atStart := nofun
  count := by decide
  pixels := by decide
  runBound := by decide
  slots := fun _ => by unfold CacheOk; decide
  delivered := by decide
  complete := nofun

/-- The same with a read that is answered IOERR. -/
theorem decInv_pix_fail (fail : Option Nat) : DecInv { (decAt seed transparent [0x42]).dec with srcFail := fail } :=
  let h := decInv_pix
  ⟨h.gridWf, h.busy, h.rest, h.atStart, h.count, h.pixels, h.runBound, h.slots, h.delivered, h.complete⟩

theorem witness_DecoderPassEnds :
    let s := decAt seed transparent [0x42]
    Inv s ∧ DecoderMoves s ∧ s.dec.srcFail = none ∧ s.dec.stream.length < 2 ^ 64 :=
  ⟨⟨encInv_reset, decInv_pix⟩, by decide, by decide, by decide⟩

theorem encInv_start : EncInv (encAt .hdr imageAB 0 seed 0).enc where
  gridWf := by decide
  busy := by decide
  rest := by decide
  count := by decide
  atStart := by decide
  pixels := by decide
  padding := by decide
  runBound := by decide
  slots := fun _ => cacheOk_init
  written := by decide
  supplied := fun _ => by
    have below : ∀ j, j < 2 → (readPixel (gridOf 0 imageAB) j).isSome := by decide
    exact fun j _ hj => below j hj

/-- A state with the encoder of one and the running decoder pass of another. -/
def bothRun (e : State) : State := { e with dec := (decAt pixA pixA [0x40]).dec }

/-- The encoder moves because the decoder is IDLE, or by four turns while a decoder pass runs. -/
theorem witness_EncoderPassEnds :
    let s := encAt .hdr imageAB 0 seed 0
    let given : State := { bothRun s with script := List.replicate 4 (.turn .encoder) ++ [.turn .decoder] }
    EncInv s.enc ∧ EncoderMoves s (s.enc.n.toNat + 2) [] ∧ s.enc.phase = .hdr ∧ s.enc.sinkFail = none ∧
      5 * s.enc.n.toNat + 18 < 2 ^ 64 ∧ EncoderMoves given (given.enc.n.toNat + 2) [.turn .decoder] :=
  ⟨encInv_start, .inl ⟨rfl, rfl, rfl⟩, by decide, by decide, by decide, .inr rfl⟩

/-- A reset between two steps, and one after three of the four bytes of a step, all accepted or refused at the second. -/
theorem witness_HardwareReset :
    (let s := scripted (.reset 0) (encAt .pix imageAB 0 seed 0)
     s.script = [.reset 0] ∧ s.enc.outcount.toNat + ((stepBytes s.enc).take 0).length < 2 ^ 64) ∧
    (let s := scripted (.reset 3) (encAt .pad imageAB 2 pixB 0)
     let bad : State := { s with enc := { s.enc with sinkFail := some 1 } }
     ((stepBytes s.enc).take 3).length = 3 ∧ s.enc.outcount.toNat + ((stepBytes s.enc).take 3).length < 2 ^ 64 ∧
       (∀ j, j < ((stepBytes s.enc).take 3).length → s.enc.sinkFail ≠ some (s.enc.outcount.toNat + j)) ∧
       bad.enc.sinkFail = some (bad.enc.outcount.toNat + 1)) := by decide

/-- The reset after three bytes: they are the last of the output stream. -/
theorem test_reset_inside_step :
    nextIs (step (scripted (.reset 3) (encAt .pad imageAB 2 pixB 0)))
      (fun t => t.enc.phase = .idle ∧ t.enc.status = 0x00 ∧ t.enc.out = [0, 0, 0]) := by decide

theorem witness_ConfigurationSampledAtStart :
    (scripted (.setWidth 7) State.reset).script = [.setWidth 7] ∧
    (scripted (.setHeight 7) State.reset).script = [.setHeight 7] ∧
    (scripted (.setMode 1) State.reset).script = [.setMode 1] ∧
    (∃ t, encStep { (encAt .pix imageAB 0 seed 0).enc with cfgWidth := 7, cfgHeight := 7 } = .next t) ∧
    ∃ t, decoderStep { decAt pixA pixA [0x40] with dec := { (decAt pixA pixA [0x40]).dec with cfgMode := 1 } } = .next t :=
  ⟨by decide, by decide, by decide, ⟨_, rfl⟩, _, rfl⟩

/-- An unread byte changes, a read byte changes, an unread pixel changes, a read pixel changes. -/
theorem witness_UnreadInputIsFixed :
    (let s := decAt pixA pixA [0x40, 0x41]
     s.dec.phase ≠ .idle ∧ ([0x40, 0x42] : List Byte).drop s.dec.pos.toNat ≠ s.dec.stream.drop s.dec.pos.toNat) ∧
    (let s := decAt pixA pixA [0x40, 0x41]
     let later : State := { s with dec := { s.dec with pos := 1 } }
     later.dec.phase ≠ .idle ∧
       ([0xFF, 0x41] : List Byte).drop later.dec.pos.toNat = later.dec.stream.drop later.dec.pos.toNat) ∧
    (let s := encAt .pix imageAB 1 pixA 0
     s.enc.phase ≠ .idle ∧ Memory.wf s.enc.grid ∧ UnreadPixelChanged s.enc [0x0A141EFF, 0]) ∧
    (let s := encAt .pix imageAB 1 pixA 0
     ¬UnreadPixelChanged s.enc [0, 0x0B131EFF]) := by
  refine ⟨by decide, by decide, ⟨by decide, by decide, 4, by decide, by decide⟩, ?_⟩
  rintro s ⟨a, ha, hne⟩
  have same : unreadGrid (gridOf 0 [0, 0x0B131EFF]) s.enc.k.toNat = unreadGrid s.enc.grid s.enc.k.toNat := by decide
  exact hne (by rw [← memRead_unreadGrid _ ha, same, memRead_unreadGrid _ ha])

theorem witness_StepKeepsInv : Inv State.reset ∧ step State.reset = .next State.reset :=
  ⟨⟨encInv_reset, decInv_reset⟩, rfl⟩

/-- From an invariant state the host can cause each of the two faults, and a refusal. -/
theorem witness_StopsHaveNamedCauses :
    (Inv (scripted .startEncoder { State.reset with enc := { Encoder.reset with cfgWidth := 1, cfgHeight := 1 } }) ∧
      step (scripted .startEncoder { State.reset with enc := { Encoder.reset with cfgWidth := 1, cfgHeight := 1 } }) =
        .fault .hostPixelCount) ∧
    (Inv (scripted (.supplyGrid [0, 0]) (encAt .hdr imageAB 0 seed 0)) ∧
      step (scripted (.supplyGrid [0, 0]) (encAt .hdr imageAB 0 seed 0)) = .fault .hostChangedInput) ∧
    (Inv (scripted .startEncoder (encAt .hdr imageAB 0 seed 0)) ∧
      step (scripted .startEncoder (encAt .hdr imageAB 0 seed 0)) = .refused .startWhileBusy) := by
  refine ⟨⟨⟨?_, decInv_reset⟩, rfl⟩, ⟨⟨encInv_start, decInv_reset⟩, rfl⟩, ⟨encInv_start, decInv_reset⟩, rfl⟩
  exact { gridWf := by decide, busy := by decide, rest := by decide, count := by decide, atStart := by decide,
          pixels := by decide, padding := by decide, runBound := by decide, slots := fun h => absurd rfl h,
          written := by decide, supplied := fun h => absurd rfl h }

/-- Each engine by its turn while both run, and each by default. -/
theorem witness_TurnRunsEngine :
    let both := bothRun (encAt .pix imageAB 0 seed 0)
    (scripted (.turn .encoder) both).script = [.turn .encoder] ∧
    (scripted (.turn .decoder) both).script = [.turn .decoder] ∧
    (both.script = [] ∧ both.dec.phase ≠ .idle) ∧
    (encAt .pix imageAB 0 seed 0).script = [] ∧ (encAt .pix imageAB 0 seed 0).dec.phase = .idle := by decide

/-- The encoder waits while the decoder steps and its ports are driven, the decoder while the encoder steps. -/
theorem witness_IdleEnginesWait :
    (State.reset.script = [] ∧ State.reset.enc.phase = .idle ∧ State.reset.dec.phase = .idle) ∧
    ((decAt pixA pixA [0x40]).enc.phase = .idle ∧ (decAt pixA pixA [0x40]).script = [] ∧
      ∃ t, step (decAt pixA pixA [0x40]) = .next t) ∧
    ((encAt .pix imageAB 0 seed 0).dec.phase = .idle ∧ (encAt .pix imageAB 0 seed 0).script = [] ∧
      ∃ t, step (encAt .pix imageAB 0 seed 0) = .next t) ∧
    ∃ t, step (scripted (.setWidth 7) State.reset) = .next t :=
  ⟨⟨rfl, rfl, rfl⟩, ⟨rfl, rfl, _, rfl⟩, ⟨rfl, rfl, _, rfl⟩, _, rfl⟩

/-- A step that delivers a word and one that aborts. -/
theorem witness_OutputWords :
    let s := decAt seed transparent [0x42]
    let bad : State := { s with dec := { s.dec with srcFail := some 0 } }
    (DecInv s.dec ∧ s.dec.phase = .pix ∧ ∃ t, decoderStep s = .next t) ∧
    (DecInv bad.dec ∧ bad.dec.phase = .pix ∧ ∃ t, decoderStep bad = .next t) :=
  ⟨⟨decInv_pix, rfl, _, rfl⟩, decInv_pix_fail (some 0), rfl, _, rfl⟩

/-- R64: the pixel 1, 2, 3, 4 travels as 0x01020304. -/
theorem test_pixel_port :
    nextIs (step (decAt ⟨1, 2, 3, 4⟩ transparent [0x40])) (fun t => pixOut t = [0x01020304]) := by decide

end Sys2Proof.Tests
end

section
/-! PROOFS. The decoder engine on its own: its step is a function of the decoder alone, so nothing outside it matters or
changes (R14, R70). -/

namespace Sys2Proof.Machine

/-! ### What a chunk gives (R170) -/

/-- The current pixel after the chunk (R155 to R161). -/
def chunkPixel (d : Decoder) : Instr → Pixel
  | .index slot => cacheLookup d.cache slot
  | .runS _ | .runL _ => d.px
  | .diff1 dr dg db | .diff2 dr dg db => { addDeltas d.px dr dg db 0 with a := d.px.a }
  | .diff3 dr dg db da => addDeltas d.px dr dg db da
  | .lit r g b a => replaceChannels d.px r g b a

/-- The repeats owed after the chunk (R156, R157). -/
def chunkRepeats (d : Decoder) : Instr → BitVec 14
  | .runS count | .runL count => owedRepeats count
  | _ => d.run

/-- Whether the chunk leaves the cache alone (R163). -/
def skipsStore : Instr → Bool
  | .index _ => true
  | _ => false

theorem exec_eq_chunkStep (i : Instr) (s : State) :
    exec i s = chunkStep i (skipsStore i) (chunkPixel s.dec i) (chunkRepeats s.dec i) s := by
  cases i <;> rfl

/-! ### The engine's step as a function of the decoder -/

/-- `exec` as the decoder sees it. -/
def runChunk (i : Instr) (d : Decoder) : Host.Outcome Decoder Fault Refusal :=
  if i.wf then
    if d.phase = .pix ∧ d.run = 0 then
      deliver (skipsStore i) { d with px := chunkPixel d i, run := chunkRepeats d i }
    else .refused .chunkOutOfStream
  else .refused .operandRange

theorem exec_eq_onDecoder (i : Instr) (s : State) : exec i s = onDecoder s (runChunk i s.dec) := by
  rw [exec_eq_chunkStep, chunkStep, runChunk]
  split
  · split <;> rfl
  · rfl

theorem runChunk_of_ready {i : Instr} {d : Decoder} (hi : i.wf = true) (hp : d.phase = .pix) (hr : d.run = 0) :
    runChunk i d = deliver (skipsStore i) { d with px := chunkPixel d i, run := chunkRepeats d i } := by
  simp [runChunk, hi, hp, hr]

/-- `decPixelStep` as the decoder sees it (R151). -/
def decPixel (d : Decoder) : Host.Outcome Decoder Fault Refusal :=
  if d.run ≠ 0 then deliver false { d with run := d.run - 1 }
  else match fetch d with
    | .chunk i d1 => runChunk i d1
    | .endOfInput d1 => deliver false d1
    | .aborted d1 => .next d1
    | .tooLong => .refused .streamTooLong

theorem decPixelStep_eq_onDecoder (s : State) : decPixelStep s = onDecoder s (decPixel s.dec) := by
  rw [decPixelStep, decPixel]
  split
  · rfl
  · cases fetch s.dec with
    | chunk i d => exact exec_eq_onDecoder i { s with dec := d }
    | endOfInput => rfl
    | aborted => rfl
    | tooLong => rfl

/-- `decoderStep` as the decoder sees it. -/
def decStep (d : Decoder) : Host.Outcome Decoder Fault Refusal :=
  match d.phase with
  | .idle => .next d
  | .hdr => decHeaderStep d
  | .pix => decPixel d

theorem decoderStep_eq_onDecoder (s : State) : decoderStep s = onDecoder s (decStep s.dec) := by
  rw [decoderStep, decStep]
  cases s.dec.phase with
  | idle => rfl
  | hdr => rfl
  | pix => exact decPixelStep_eq_onDecoder s

theorem decStep_of_pix {d : Decoder} (h : d.phase = .pix) : decStep d = decPixel d := by
  rw [decStep, h]

theorem decStep_of_hdr {d : Decoder} (h : d.phase = .hdr) : decStep d = decHeaderStep d := by
  rw [decStep, h]

/-! ### Each engine inside the machine -/

theorem onEncoder_eq_mapNext (s : State) (dec : Decoder) (script : List HostAction)
    (o : Host.Outcome Encoder Fault Refusal) :
    onEncoder { s with dec := dec, script := script } o =
      mapNext (fun t => { t with dec := dec, script := script }) (onEncoder s o) := by
  cases o <;> rfl

theorem onDecoder_eq_mapNext (s : State) (enc : Encoder) (script : List HostAction)
    (o : Host.Outcome Decoder Fault Refusal) :
    onDecoder { s with enc := enc, script := script } o =
      mapNext (fun t => { t with enc := enc, script := script }) (onDecoder s o) := by
  cases o <;> rfl

theorem onEncoder_next_iff (s t : State) (o : Host.Outcome Encoder Fault Refusal) :
    onEncoder s o = .next t ↔ ∃ e, o = .next e ∧ t = { s with enc := e } := by
  cases o <;> simp [eq_comm]

theorem onDecoder_next_iff (s t : State) (o : Host.Outcome Decoder Fault Refusal) :
    onDecoder s o = .next t ↔ ∃ d, o = .next d ∧ t = { s with dec := d } := by
  cases o <;> simp [eq_comm]

/-- Settles O55: each engine's step is a function of that engine alone, put back into the machine. -/
theorem engineStepsAreLocal : Obligations.EngineStepsAreLocal := by
  intro s enc dec script
  constructor
  · exact onEncoder_eq_mapNext s dec script (encStep s.enc)
  · rw [decoderStep_eq_onDecoder, decoderStep_eq_onDecoder s]
    exact onDecoder_eq_mapNext s enc script (decStep s.dec)

/-- Settles O46: either order leaves the encoder its own step's outcome and the decoder its own. -/
theorem engineStepsCommute : Obligations.EngineStepsCommute := by
  intro s t u ht hu
  obtain ⟨e, he, rfl⟩ := (onEncoder_next_iff s t _).mp ht
  obtain ⟨d, hd, rfl⟩ := (onDecoder_next_iff s u _).mp (decoderStep_eq_onDecoder s ▸ hu)
  refine ⟨{ s with enc := e, dec := d }, ?_, ?_, rfl, rfl⟩
  · rw [decoderStep_eq_onDecoder, hd, onDecoder_next]
  · rw [encoderStep, he, onEncoder_next]

/-- Settles O54, from what a step is with and without a host action next. -/
theorem turnRunsEngine : Obligations.TurnRunsEngine := by
  refine fun s rest => ⟨step_of_script_cons, step_of_script_cons, fun hs hp => ?_, fun hs hp => ?_⟩
  · rw [step_of_script_nil hs, if_pos hp]
  · rw [step_of_script_nil hs, if_neg (not_not_intro hp)]

/-! ### Passes: several steps of one engine -/

/-- `n` steps of one engine lead from `a` to `b`, a pass running before each of them. -/
inductive PassRun {σ : Type} (engineStep : σ → Host.Outcome σ Fault Refusal) (running : σ → Prop) :
    Nat → σ → σ → Prop
  | refl (a : σ) : PassRun engineStep running 0 a a
  | head {n : Nat} {a b c : σ} : running a → engineStep a = .next b → PassRun engineStep running n b c →
      PassRun engineStep running (n + 1) a c

/-- `n` steps of a running encoder pass. -/
abbrev EncRun : Nat → Encoder → Encoder → Prop := PassRun encStep (fun e => e.phase ≠ .idle)

/-- `n` steps of a running decoder pass. -/
abbrev DecRun : Nat → Decoder → Decoder → Prop := PassRun decStep (fun d => d.phase ≠ .idle)

section
variable {σ : Type} {engineStep : σ → Host.Outcome σ Fault Refusal} {running : σ → Prop}

theorem PassRun.single {a b : σ} (hr : running a) (h : engineStep a = .next b) : PassRun engineStep running 1 a b :=
  .head hr h (.refl b)

theorem PassRun.trans {m n : Nat} {a b c : σ} (h : PassRun engineStep running m a b)
    (h' : PassRun engineStep running n b c) : PassRun engineStep running (m + n) a c := by
  induction h with
  | refl => simpa using h'
  | head hr hs _ ih => exact Nat.succ_add _ _ ▸ .head hr hs (ih h')

end

/-- With no host action left, the machine's steps are those of a running decoder pass. -/
theorem run_of_decRun {n : Nat} {d : Decoder} {s : State} (hs : s.script = []) (h : DecRun n s.dec d) :
    Host.Core.run Sys2Proof.core n s = .next { s with dec := d } := by
  generalize ha : s.dec = a at h
  induction h generalizing s with
  | refl => subst ha; rfl
  | @head n a b c hr hb _ ih =>
    subst ha
    have first : step s = .next { s with dec := b } := by
      rw [step_of_script_nil hs, if_pos hr, decoderStep_eq_onDecoder, hb, onDecoder_next]
    rw [run_succ first]
    exact ih (s := { s with dec := b }) hs rfl

/-- Where the encoder takes the next `n + 1` steps, the first of them is its own, and it takes the `n` after it. -/
theorem step_of_encoderMoves {n : Nat} {s : State} {rest : List HostAction} {e : Encoder}
    (hm : EncoderMoves s (n + 1) rest) (he : encStep s.enc = .next e) :
    ∃ t, step s = .next t ∧ t.enc = e ∧ t.dec = s.dec ∧ EncoderMoves t n rest := by
  rcases hm with ⟨hs, hd, hr⟩ | hs
  · refine ⟨{ s with enc := e }, ?_, rfl, rfl, .inl ⟨hs, hd, hr⟩⟩
    rw [step_of_script_nil hs, if_neg (not_not_intro hd), encoderStep, he, onEncoder_next]
  · refine ⟨{ s with enc := e, script := List.replicate n (.turn .encoder) ++ rest }, ?_, rfl, rfl, .inr rfl⟩
    rw [step_of_script_cons hs]
    change onEncoder _ (encStep s.enc) = _
    rw [he]
    rfl

/-- Where the encoder takes the next `n` steps, the machine's steps are those of its running pass. -/
theorem run_of_encRun {n : Nat} {e : Encoder} {s : State} {rest : List HostAction} (hm : EncoderMoves s n rest)
    (h : EncRun n s.enc e) :
    Host.Core.run Sys2Proof.core n s = .next { s with enc := e, script := rest } := by
  generalize ha : s.enc = a at h
  induction h generalizing s with
  | refl =>
    subst ha
    have hs : s.script = rest := by
      rcases hm with ⟨hs, -, hr⟩ | hs
      · rw [hs, hr]
      · exact hs
    subst hs
    rfl
  | @head n a b c _ hb _ ih =>
    subst ha
    obtain ⟨t, first, rfl, hd, hm'⟩ := step_of_encoderMoves hm hb
    rw [run_succ first, ih hm' rfl, hd]

end Sys2Proof.Machine
end

section
/-! PROOFS. The arithmetic of deltas (R10), and the encoding of a chunk read back (R99). -/

namespace Sys2Proof.Machine

/-! ### Deltas -/

theorem sdelta_bounds (x y : Byte) : -128 ≤ sdelta x y ∧ sdelta x y ≤ 127 := by
  have := (wrap8 ((x.toNat : Int) - y.toNat)).isLt
  unfold sdelta sext8
  split <;> omega

/-- The delta is the difference of the two values, modulo 256. -/
theorem sdelta_emod (x y : Byte) : sdelta x y % 256 = ((x.toNat : Int) - y.toNat) % 256 := by
  have hw : ((wrap8 ((x.toNat : Int) - y.toNat)).toNat : Int) = ((x.toNat : Int) - y.toNat) % 256 := by
    rw [wrap8, BitVec.toNat_ofInt]
    omega
  unfold sdelta sext8
  split <;> omega

@[simp] theorem addDelta_sdelta (x y : Byte) : addDelta y (sdelta x y) = x := by
  have := sdelta_emod x y
  have := x.isLt
  apply BitVec.eq_of_toNat_eq
  rw [addDelta, wrap8, BitVec.toNat_ofInt]
  omega

theorem eq_of_sdelta_eq_zero {x y : Byte} (h : sdelta x y = 0) : x = y := by
  have := sdelta_emod x y
  apply BitVec.eq_of_toNat_eq
  omega

/-- Settles O33, from the wrapped difference modulo 256. -/
theorem deltaRecomposes : Obligations.DeltaRecomposes := fun x y =>
  ⟨(sdelta_bounds x y).1, (sdelta_bounds x y).2, addDelta_sdelta x y⟩

end Sys2Proof.Machine
end

section
/-! PROOFS. A decoded chunk is well formed (R92), and the encoding of a well-formed chunk decodes to it (R99). -/

namespace Sys2Proof.Machine

/-! ### Every decoded chunk is well formed -/

theorem inRange_iff (lo hi d : Int) : inRange lo hi d = true ↔ lo ≤ d ∧ d ≤ hi := by
  simp [inRange]

/-- A field of `w` bits less its bias lies in the range of the signed delta. -/
theorem inRange_unbias {w : Nat} {bias hi : Int} (field : BitVec w) (h : (2 : Int) ^ w - bias - 1 ≤ hi) :
    inRange (-bias) hi (unbias bias field) = true := by
  have : (field.toNat : Int) < 2 ^ w := by exact_mod_cast field.isLt
  rw [inRange_iff, unbias]
  omega

theorem decodeChunk_wf (b0 : Byte) (ops : List Byte) : (decodeChunk b0 ops).wf = true := by
  rw [decodeChunk]
  cases kindOf b0 with
  | index => rfl
  | runS =>
    have := (b0.extractLsb' 0 5).isLt
    simp only [Instr.wf, Bool.and_eq_true, decide_eq_true_eq]
    omega
  | runL =>
    have := (b0.extractLsb' 0 5 ++ ops.getD 0 0).isLt
    simp only [Instr.wf, Bool.and_eq_true, decide_eq_true_eq]
    omega
  | diff1 => simp [Instr.wf, inRange_unbias]
  | diff2 => simp [Instr.wf, inRange_unbias]
  | diff3 => simp [Instr.wf, inRange_unbias]
  | lit => rfl

/-! ### The encoding of a chunk, read back -/

theorem toNat_rebias {w : Nat} {bias d : Int} (h0 : 0 ≤ d + bias) (h1 : d + bias < 2 ^ w) :
    ((rebias w bias d).toNat : Int) = d + bias := by
  have hmod : (d + bias) % (2 ^ w : Int) = d + bias := Int.emod_eq_of_lt h0 h1
  rw [rebias, BitVec.toNat_ofInt, Int.toNat_of_nonneg]
  · exact_mod_cast hmod
  · rw [Nat.cast_pow, Nat.cast_ofNat, hmod]
    exact h0

theorem unbias_rebias {w : Nat} {bias hi d : Int} (h : inRange (-bias) hi d = true) (hw : hi + bias < 2 ^ w) :
    unbias bias (rebias w bias d) = d := by
  obtain ⟨h0, h1⟩ := (inRange_iff _ _ _).mp h
  rw [unbias, toNat_rebias (by omega) (by omega)]
  omega

/-- INDEX read back (R82). -/
theorem decodeChunk_index (slot : Fin 64) : decodeChunk (0b00#2 ++ BitVec.ofNat 6 slot.val) [] = .index slot := by
  decide +revert

/-- RUN_S read back (R83). -/
theorem decodeChunk_runS {count : Nat} (h : (Instr.runS count).wf = true) :
    decodeChunk (0b010#3 ++ BitVec.ofNat 5 (count - 1)) [] = .runS count := by
  have field : ∀ x : BitVec 5, decodeChunk (0b010#3 ++ x) [] = .runS (x.toNat + 1) := by decide
  simp only [Instr.wf, Bool.and_eq_true, decide_eq_true_eq] at h
  rw [field, BitVec.toNat_ofNat]
  congr
  omega

/-- RUN_L read back (R84). -/
theorem decodeChunk_runL {count : Nat} (h : (Instr.runL count).wf = true) :
    let v := BitVec.ofNat 13 (count - 33)
    decodeChunk (0b011#3 ++ v.extractLsb' 8 5) [v.extractLsb' 0 8] = .runL count := by
  intro v
  have kind : ∀ x : BitVec 5, kindOf (0b011#3 ++ x) = .runL := by decide
  have high : ∀ x : BitVec 5, BitVec.extractLsb' 0 5 (0b011#3 ++ x : Byte) = x := by decide
  have join : v.extractLsb' 8 5 ++ v.extractLsb' 0 8 = v :=
    (BitVec.extractLsb'_append_extractLsb'_eq_extractLsb' (start₁ := 0) rfl).trans BitVec.extractLsb'_eq_self
  simp only [Instr.wf, Bool.and_eq_true, decide_eq_true_eq] at h
  simp only [decodeChunk, kind, high, List.getD_cons_zero, join]
  rw [BitVec.toNat_ofNat]
  congr
  omega

/-- DIFF1 read back (R85). -/
theorem decodeChunk_diff1 {dr dg db : Int} (h : (Instr.diff1 dr dg db).wf = true) :
    decodeChunk (0b10#2 ++ rebias 2 2 dr ++ rebias 2 2 dg ++ rebias 2 2 db) [] = .diff1 dr dg db := by
  have fields : ∀ x y z : BitVec 2,
      decodeChunk (0b10#2 ++ x ++ y ++ z) [] = .diff1 (unbias 2 x) (unbias 2 y) (unbias 2 z) := by decide
  simp only [Instr.wf, Bool.and_eq_true] at h
  obtain ⟨⟨hr, hg⟩, hb⟩ := h
  rw [fields, unbias_rebias hr (by decide), unbias_rebias hg (by decide), unbias_rebias hb (by decide)]

/-- DIFF2 read back (R86). -/
theorem decodeChunk_diff2 {dr dg db : Int} (h : (Instr.diff2 dr dg db).wf = true) :
    decodeChunk (0b110#3 ++ rebias 5 16 dr) [rebias 4 8 dg ++ rebias 4 8 db] = .diff2 dr dg db := by
  have kind : ∀ x : BitVec 5, kindOf (0b110#3 ++ x) = .diff2 := by decide
  have field : ∀ x : BitVec 5, BitVec.extractLsb' 0 5 (0b110#3 ++ x : Byte) = x := by decide
  have fields : ∀ x y : BitVec 4,
      BitVec.extractLsb' 4 4 (x ++ y : Byte) = x ∧ BitVec.extractLsb' 0 4 (x ++ y : Byte) = y := by decide
  simp only [Instr.wf, Bool.and_eq_true] at h
  obtain ⟨⟨hr, hg⟩, hb⟩ := h
  simp only [decodeChunk, kind, field, List.getD_cons_zero, fields]
  rw [unbias_rebias hr (by decide), unbias_rebias hg (by decide), unbias_rebias hb (by decide)]

/-- The 24 bits of a DIFF3 chunk are its tag over its 20 bits of fields (R87). -/
theorem diff3_word (w : BitVec 20) :
    ((0b1110#4 ++ w.extractLsb' 16 4 : Byte) ++ w.extractLsb' 8 8 ++ w.extractLsb' 0 8 : BitVec 24).toNat =
      14 * 2 ^ 20 + w.toNat := by
  simp only [toNat_append, BitVec.extractLsb'_toNat, Nat.shiftRight_eq_div_pow, BitVec.toNat_ofNat]
  omega

/-- DIFF3 read back (R87). -/
theorem decodeChunk_diff3 {dr dg db da : Int} (h : (Instr.diff3 dr dg db da).wf = true) :
    let w : BitVec 20 := rebias 5 16 dr ++ rebias 5 16 dg ++ rebias 5 16 db ++ rebias 5 16 da
    decodeChunk (0b1110#4 ++ w.extractLsb' 16 4) [w.extractLsb' 8 8, w.extractLsb' 0 8] = .diff3 dr dg db da := by
  intro w
  have kind : ∀ x : BitVec 4, kindOf (0b1110#4 ++ x) = .diff3 := by decide
  have word : w.toNat = (rebias 5 16 dr).toNat * 2 ^ 15 + (rebias 5 16 dg).toNat * 2 ^ 10 +
      (rebias 5 16 db).toNat * 2 ^ 5 + (rebias 5 16 da).toNat := by
    simp only [w, toNat_append]
    omega
  have field : ∀ (j : Nat) (x : BitVec 5), (14 * 2 ^ 20 + w.toNat) / 2 ^ j % 2 ^ 5 = x.toNat →
      ((0b1110#4 ++ w.extractLsb' 16 4 : Byte) ++ w.extractLsb' 8 8 ++ w.extractLsb' 0 8 : BitVec 24).extractLsb' j 5
        = x := fun j x hx => by
    apply BitVec.eq_of_toNat_eq
    rw [BitVec.extractLsb'_toNat, diff3_word, Nat.shiftRight_eq_div_pow, hx]
  simp only [Instr.wf, Bool.and_eq_true] at h
  obtain ⟨⟨⟨hr, hg⟩, hb⟩, ha⟩ := h
  simp only [decodeChunk, kind, List.getD_cons_zero, List.getD_cons_succ]
  rw [field 15 (rebias 5 16 dr) (by omega), field 10 (rebias 5 16 dg) (by omega),
    field 5 (rebias 5 16 db) (by omega), field 0 (rebias 5 16 da) (by omega),
    unbias_rebias hr (by decide), unbias_rebias hg (by decide), unbias_rebias hb (by decide),
    unbias_rebias ha (by decide)]

/-- One channel of a literal read back (R88). -/
theorem takeOperand_litByte (c : Option Byte) (rest : List Byte) :
    takeOperand c.isSome (litByte c ++ rest) = (c, rest) := by
  cases c <;> rfl

/-- LIT read back (R88). -/
theorem decodeChunk_lit (r g b a : Option Byte) :
    decodeChunk
      (0b1111#4 ++ BitVec.ofBool r.isSome ++ BitVec.ofBool g.isSome ++ BitVec.ofBool b.isSome ++ BitVec.ofBool a.isSome)
      (litByte r ++ litByte g ++ litByte b ++ litByte a) = .lit r g b a := by
  have tag : ∀ r g b a : Bool,
      let b0 : Byte := 0b1111#4 ++ BitVec.ofBool r ++ BitVec.ofBool g ++ BitVec.ofBool b ++ BitVec.ofBool a
      kindOf b0 = .lit ∧ present b0 3 = r ∧ present b0 2 = g ∧ present b0 1 = b ∧ present b0 0 = a := by decide
  obtain ⟨kind, h3, h2, h1, h0⟩ := tag r.isSome g.isSome b.isSome a.isSome
  have last := takeOperand_litByte a []
  rw [List.append_nil] at last
  simp only [decodeChunk, kind, decodeLit, h3, h2, h1, h0, List.append_assoc, takeOperand_litByte, last]

/-- The encoding of a well-formed chunk decodes to the chunk (R99). -/
theorem decodeChunk_of_encode {i : Instr} (h : i.wf = true) {b0 : Byte} {ops : List Byte}
    (he : encode i = b0 :: ops) : decodeChunk b0 ops = i := by
  cases i <;> obtain ⟨rfl, rfl⟩ := List.cons.inj he
  case index slot => exact decodeChunk_index slot
  case runS => exact decodeChunk_runS h
  case runL => exact decodeChunk_runL h
  case diff1 => exact decodeChunk_diff1 h
  case diff2 => exact decodeChunk_diff2 h
  case diff3 => exact decodeChunk_diff3 h
  case lit r g b a => exact decodeChunk_lit r g b a

/-- The encoding of every chunk is its tag byte and as many operand bytes as that asks for (R94). -/
theorem encode_lengthStatement (i : Instr) : Laws.Length.Statement i := by
  cases i with
  | index slot => exact Laws.Length.index slot
  | runS count => exact Laws.Length.runS count
  | runL count => exact Laws.Length.runL count
  | diff1 dr dg db => exact Laws.Length.diff1 dr dg db
  | diff2 dr dg db => exact Laws.Length.diff2 dr dg db
  | diff3 dr dg db da => exact Laws.Length.diff3 dr dg db da
  | lit r g b a => exact Laws.Length.lit r g b a

/-- No chunk is longer than five bytes (R94). -/
theorem length_encode_le (i : Instr) : (encode i).length ≤ 5 := by
  have channel : ∀ c : Option Byte, (litByte c).length ≤ 1 := fun c => Laws.Length.length_litByte c ▸ Bool.toNat_le _
  cases i with
  | lit r g b a =>
    have := channel r
    have := channel g
    have := channel b
    have := channel a
    simp only [encode, List.length_cons, List.length_append]
    omega
  | _ => simp [encode]

end Sys2Proof.Machine
end

section
/-! PROOFS. A decoder pass over a source that never answers IOERR: every pixel step delivers one pixel, so the pass ends
after the pixels left (R16, R168, R169). -/

namespace Sys2Proof.Machine

/-! ### Delivery (R151, R152) -/

/-- The decoder after the end of a pixel step: `deliver`, where a pixel is left. -/
def afterDelivery (fromIndex : Bool) (d : Decoder) : Decoder :=
  completeIfDone
    { d with
      cache := if fromIndex then d.cache else cacheStore d.cache (pixelHash d.px) d.px
      grid := writePixel d.grid d.k.toNat d.px
      k := d.k + 1 }

theorem deliver_of_lt (fromIndex : Bool) {d : Decoder} (h : d.k.toNat < d.n.toNat) :
    deliver fromIndex d = .next (afterDelivery fromIndex d) := by
  rw [deliver, if_pos h, afterDelivery]

section
variable (fromIndex : Bool) (d : Decoder)

@[simp] theorem afterDelivery_k : (afterDelivery fromIndex d).k = d.k + 1 := completeIfDone_k _
@[simp] theorem afterDelivery_n : (afterDelivery fromIndex d).n = d.n := completeIfDone_n _
@[simp] theorem afterDelivery_px : (afterDelivery fromIndex d).px = d.px := completeIfDone_px _
@[simp] theorem afterDelivery_run : (afterDelivery fromIndex d).run = d.run := completeIfDone_run _
@[simp] theorem afterDelivery_pos : (afterDelivery fromIndex d).pos = d.pos := completeIfDone_pos _
@[simp] theorem afterDelivery_stream : (afterDelivery fromIndex d).stream = d.stream := completeIfDone_stream _
@[simp] theorem afterDelivery_srcFail : (afterDelivery fromIndex d).srcFail = d.srcFail := completeIfDone_srcFail _
@[simp] theorem afterDelivery_ended : (afterDelivery fromIndex d).ended = d.ended := completeIfDone_ended _
@[simp] theorem afterDelivery_grid : (afterDelivery fromIndex d).grid = writePixel d.grid d.k.toNat d.px :=
  completeIfDone_grid _
@[simp] theorem afterDelivery_cache : (afterDelivery fromIndex d).cache =
    if fromIndex then d.cache else cacheStore d.cache (pixelHash d.px) d.px := completeIfDone_cache _

end

/-- A full pass that has still to deliver `left` pixels: in its pixel phase, or successfully ended if there are none. -/
structure PixelsLeft (d : Decoder) (left : Nat) : Prop where
  count : d.k.toNat + left = d.n.toNat
  running : left ≠ 0 → d.phase = .pix
  complete : left = 0 → d.phase = .idle ∧ d.status = 0x02

theorem PixelsLeft.lt {d : Decoder} {left : Nat} (h : PixelsLeft d (left + 1)) : d.k.toNat < d.n.toNat := by
  have := h.count
  omega

theorem toNat_succ_of_lt {k n : BitVec 64} (h : k.toNat < n.toNat) : (k + 1).toNat = k.toNat + 1 := by
  bv_omega

/-- A delivery takes one of the pixels left; the last one ends the pass (R152). -/
theorem PixelsLeft.afterDelivery {d : Decoder} {left : Nat} (fromIndex : Bool) (h : PixelsLeft d (left + 1)) :
    PixelsLeft (afterDelivery fromIndex d) left := by
  have hk := toNat_succ_of_lt h.lt
  have hc := h.count
  have last : d.k + 1 = d.n ↔ left = 0 := by
    rw [← BitVec.toNat_inj, hk]
    omega
  refine ⟨?_, fun hl => ?_, fun hl => ?_⟩
  · rw [afterDelivery_k, afterDelivery_n, hk]
    omega
  · rw [Machine.afterDelivery, completeIfDone_phase, if_neg (mt last.mp hl)]
    exact h.running (by omega)
  · rw [Machine.afterDelivery, completeIfDone_phase, completeIfDone_status, if_pos (last.mpr hl), if_pos (last.mpr hl)]
    exact ⟨rfl, statusDone_eq⟩

/-- A step that delivers a pixel is a step of a running pass. -/
theorem PixelsLeft.decRun {d d' : Decoder} {left : Nat} (h : PixelsLeft d (left + 1)) (hd : decPixel d = .next d') :
    DecRun 1 d d' := by
  have hp := h.running (Nat.succ_ne_zero left)
  exact .single (by rw [hp]; decide) (by rw [decStep_of_pix hp, hd])

/-! ### A source that never answers IOERR -/

theorem inRead_ne_aborted {d : Decoder} (h : d.srcFail = none) (d' : Decoder) : inRead d ≠ .aborted d' := by
  rcases inRead_cases d with ⟨b, -, -, hr⟩ | ⟨b, -, -, hr⟩ | ⟨-, hr⟩ | ⟨ha, -⟩
  · simp [hr]
  · simp [hr]
  · simp [hr]
  · simp [sourceAnswer_ioerr_iff, h] at ha

theorem cons_ne_aborted {r : ReadMany} {d' : Decoder} (b : Byte) (h : r ≠ .aborted d') : r.cons b ≠ .aborted d' := by
  cases r with
  | ok => simp [ReadMany.cons]
  | aborted => exact h
  | tooLong => simp [ReadMany.cons]

theorem readOperands_ne_aborted (count : Nat) :
    ∀ {d : Decoder}, d.srcFail = none → ∀ d', readOperands count d ≠ .aborted d' := by
  induction count with
  | zero => simp [readOperands]
  | succ count ih =>
    intro d h d'
    rcases inRead_cases d with ⟨b, -, -, hr⟩ | ⟨b, -, -, hr⟩ | ⟨-, hr⟩ | ⟨-, hr⟩
    · rw [readOperands, hr]
      exact cons_ne_aborted b (ih (d := { d with pos := d.pos + 1 }) h d')
    · simp [readOperands, hr]
    · rw [readOperands, hr]
      exact cons_ne_aborted _ (ih (d := { d with ended := true }) h d')
    · exact absurd hr (inRead_ne_aborted h _)

theorem fetch_ne_aborted {d : Decoder} (h : d.srcFail = none) (d' : Decoder) : fetch d ≠ .aborted d' := by
  rcases inRead_cases d with ⟨b, -, -, hr⟩ | ⟨b, -, -, hr⟩ | ⟨-, hr⟩ | ⟨-, hr⟩
  · have hn := readOperands_ne_aborted (operandCount b) (d := { d with pos := d.pos + 1 }) h d'
    rw [fetch, hr]
    dsimp only
    generalize readOperands (operandCount b) { d with pos := d.pos + 1 } = r at hn ⊢
    cases r with
    | ok => simp
    | aborted d2 => simpa using hn
    | tooLong => simp
  · simp [fetch, hr]
  · simp [fetch, hr]
  · exact absurd hr (inRead_ne_aborted h _)

/-- `d'` is `d` in a pixel step before its delivery: only the stream position, the end-of-input mark, the current pixel
and the repeats owed have changed. -/
def PixelChosen (d d' : Decoder) : Prop :=
  d' = { d with pos := d'.pos, ended := d'.ended, px := d'.px, run := d'.run }

theorem ReadsOnly.pixelChosen {d d' : Decoder} (h : ReadsOnly d d') (px : Pixel) (run : BitVec 14) :
    PixelChosen d { d' with px := px, run := run } := by
  unfold ReadsOnly at h
  rw [PixelChosen, h]

/-- A pixel step that fetches a well-formed chunk delivers the chunk's pixel (R151, R153). -/
theorem decPixel_of_chunk {d d' : Decoder} {i : Instr} (hr : d.run = 0) (hc : fetch d = .chunk i d')
    (ready : ChunkReady d') (hi : i.wf = true) :
    decPixel d =
      .next (afterDelivery (skipsStore i) { d' with px := chunkPixel d' i, run := chunkRepeats d' i }) := by
  obtain ⟨hp', hr', hlt⟩ := ready
  rw [decPixel, if_neg (not_not_intro hr), hc]
  exact (runChunk_of_ready hi hp' hr').trans (deliver_of_lt _ hlt)

/-- A pixel step with repeats owed delivers the current pixel again (R165). -/
theorem decPixel_of_owed {d : Decoder} (hr : d.run ≠ 0) (hlt : d.k.toNat < d.n.toNat) :
    decPixel d = .next (afterDelivery false { d with run := d.run - 1 }) := by
  rw [decPixel, if_pos hr]
  exact deliver_of_lt _ hlt

/-- Whatever the bytes are, a pixel step over such a source delivers a pixel (R154, R164, R165). -/
theorem decPixel_delivers {d : Decoder} {left : Nat} (h : PixelsLeft d (left + 1)) (hf : d.srcFail = none)
    (hs : d.stream.length < 2 ^ 64) :
    ∃ fromIndex d', decPixel d = .next (afterDelivery fromIndex d') ∧ PixelChosen d d' := by
  by_cases hr : d.run = 0
  · rcases fetch_cases d with ⟨b0, ops, d', hc, -, ho, -⟩ | ⟨he, -⟩ | ⟨d', ha, -⟩ | ⟨hl, -⟩
    · have ready : ChunkReady d' := by
        rw [ho]
        exact ⟨h.running (Nat.succ_ne_zero left), hr, h.lt⟩
      exact ⟨_, _, decPixel_of_chunk hr hc ready (decodeChunk_wf b0 ops), ho.pixelChosen _ _⟩
    · refine ⟨false, { d with ended := true }, ?_, rfl⟩
      rw [decPixel, if_neg (not_not_intro hr), he]
      exact deliver_of_lt _ h.lt
    · exact absurd ha (fetch_ne_aborted hf _)
    · omega
  · exact ⟨false, _, decPixel_of_owed hr h.lt, rfl⟩

/-- Over such a source the pass ends after the pixels left, with a grid of exactly the pixels counted. -/
theorem decRun_of_unfailing (left : Nat) : ∀ {d : Decoder}, PixelsLeft d left → d.srcFail = none →
    d.stream.length < 2 ^ 64 → holdsPixels d.grid d.k.toNat = true →
    ∃ d', DecRun left d d' ∧ PixelsLeft d' 0 ∧ holdsPixels d'.grid d'.k.toNat = true := by
  induction left with
  | zero => exact fun {d} h _ _ hg => ⟨d, .refl d, h, hg⟩
  | succ left ih =>
    intro d h hf hs hg
    obtain ⟨fromIndex, d1, hstep, chosen⟩ := decPixel_delivers h hf hs
    have h1 : PixelsLeft d1 (left + 1) := by
      rw [chosen]
      exact ⟨h.count, h.running, h.complete⟩
    have kept : d1.srcFail = d.srcFail ∧ d1.stream = d.stream ∧ d1.grid = d.grid ∧ d1.k = d.k := by
      rw [chosen]
      exact ⟨rfl, rfl, rfl, rfl⟩
    obtain ⟨hf1, hs1, hg1, hk1⟩ := kept
    have hg2 : holdsPixels (afterDelivery fromIndex d1).grid (afterDelivery fromIndex d1).k.toNat = true := by
      rw [afterDelivery_grid, afterDelivery_k, toNat_succ_of_lt h1.lt]
      exact holdsPixels_writePixel _ (by rw [hg1, hk1]; exact hg)
    obtain ⟨d', hrun, hend, hgrid⟩ :=
      ih (h1.afterDelivery fromIndex) (by simpa [hf1] using hf) (by simpa [hs1] using hs) hg2
    exact ⟨d', Nat.add_comm 1 left ▸ (h.decRun hstep).trans hrun, hend, hgrid⟩

/-- Settles O30, by induction on the pixels left: each pixel step delivers one. -/
theorem decoderPassEnds : Obligations.DecoderPassEnds := by
  intro s hinv ⟨hscript, hphase⟩ hf hs
  obtain ⟨-, hlt⟩ := hinv.dec.pixels hphase
  have left : PixelsLeft s.dec (s.dec.n.toNat - s.dec.k.toNat) :=
    ⟨by omega, fun _ => hphase, fun h => by omega⟩
  obtain ⟨d, hrun, hend, hgrid⟩ := decRun_of_unfailing _ left hf hs (hinv.dec.delivered hphase)
  obtain ⟨hidle, hstatus⟩ := hend.complete rfl
  have hk : d.k.toNat = d.n.toNat := hend.count
  exact ⟨{ s with dec := d }, run_of_decRun hscript hrun, hidle, hstatus, BitVec.eq_of_toNat_eq hk, hk ▸ hgrid⟩

end Sys2Proof.Machine
end

section
/-! PROOFS. An encoder pass without an error: the bytes it writes are a function of the image alone, at most five for
each pixel (R125, R141, R143). -/

namespace Sys2Proof.Machine

/-! ### The chunks of one pixel step (R125, R127) -/

/-- A repeated pixel emits nothing until the run is full or the image ends. -/
theorem chunkEnc_same (px : Pixel) {run : BitVec 14} (last : Bool) (cache : Cache) (h : run.toNat ≤ 8223) :
    chunkEnc px px run last cache =
      if run.toNat + 1 = 8224 ∨ last = true then ⟨[emitRun (run.toNat + 1)], 0, cache⟩
      else ⟨[], run + 1, cache⟩ := by
  have grown : (run + 1).toNat = run.toNat + 1 := by bv_omega
  have pending : run + 1 ≠ 0 := by bv_omega
  have flush : flushes px px (run + 1) last = true ↔ run.toNat + 1 = 8224 ∨ last = true := by
    rw [flushes, grown, decide_eq_true pending]
    simp [runCap]
  simp only [chunkEnc, grownRun, if_true, grown, flush]
  split <;> rfl

/-- The chunk that flushes the run `run`, if one is pending (R127). -/
def pendingChunks (run : BitVec 14) : List Instr := if run = 0 then [] else [emitRun run.toNat]

/-- Another pixel flushes the pending run, if any, and emits its own chunk. -/
theorem chunkEnc_other {prev px : Pixel} (run : BitVec 14) (last : Bool) (cache : Cache) (h : px ≠ prev) :
    chunkEnc prev px run last cache =
      ⟨pendingChunks run ++ [(encodePixel px prev cache).1], 0, (encodePixel px prev cache).2⟩ := by
  by_cases hr : run = 0 <;> simp [chunkEnc, grownRun, flushes, pendingChunks, h, hr]

/-! ### The chunks of a pass -/

/-- The chunks that a pass emits for its remaining pixels, from its previous pixel, pending run and cache (R125). -/
def passChunks (prev : Pixel) (run : BitVec 14) (cache : Cache) : List Pixel → List Instr
  | [] => []
  | px :: rest =>
    let o := chunkEnc prev px run rest.isEmpty cache
    o.chunks ++ passChunks px o.run o.cache rest

/-- The bytes of these chunks. -/
def passBytes (prev : Pixel) (run : BitVec 14) (cache : Cache) (pixels : List Pixel) : List Byte :=
  (passChunks prev run cache pixels).flatMap encode

theorem passBytes_cons (prev : Pixel) (run : BitVec 14) (cache : Cache) (px : Pixel) (rest : List Pixel) :
    passBytes prev run cache (px :: rest) =
      (chunkEnc prev px run rest.isEmpty cache).bytes ++
        passBytes px (chunkEnc prev px run rest.isEmpty cache).run (chunkEnc prev px run rest.isEmpty cache).cache
          rest := by
  simp [passBytes, passChunks, ChunkOut.bytes]

theorem length_encode_emitRun (c : Nat) : (encode (emitRun c)).length ≤ 2 := by
  unfold emitRun
  split <;> simp [encode]

/-- The bytes a pending run will take at most. -/
def pendingBytes (run : BitVec 14) : Nat := if run = 0 then 0 else 2

theorem pendingBytes_le (run : BitVec 14) : pendingBytes run ≤ 2 := by
  unfold pendingBytes
  split <;> decide

theorem length_pendingChunks_le (run : BitVec 14) : ((pendingChunks run).flatMap encode).length ≤ pendingBytes run := by
  unfold pendingChunks pendingBytes
  split
  · exact Nat.le_refl 0
  · simpa using length_encode_emitRun run.toNat

/-- Five bytes a pixel are enough: a pixel that joins a run emits nothing yet, or only the run's chunk, and another
pixel emits at most five bytes behind the pending run (R141). The run stays within R21. -/
theorem chunkEnc_bounds (prev px : Pixel) {run : BitVec 14} (last : Bool) (cache : Cache) (h : run.toNat ≤ 8223) :
    (chunkEnc prev px run last cache).bytes.length + pendingBytes (chunkEnc prev px run last cache).run ≤
        pendingBytes run + 5 ∧
      (chunkEnc prev px run last cache).run.toNat ≤ 8223 := by
  have none_pending : pendingBytes 0 = 0 := rfl
  by_cases hpx : px = prev
  · subst hpx
    rw [chunkEnc_same px last cache h]
    split
    next =>
      have := length_encode_emitRun (run.toNat + 1)
      simp only [ChunkOut.bytes, List.flatMap_singleton, none_pending]
      exact ⟨by omega, by decide⟩
    next hfull =>
      have := pendingBytes_le (run + 1)
      simp only [ChunkOut.bytes, List.flatMap_nil, List.length_nil]
      exact ⟨by omega, by bv_omega⟩
  · rw [chunkEnc_other run last cache hpx]
    have := length_pendingChunks_le run
    have := length_encode_le (encodePixel px prev cache).1
    simp only [ChunkOut.bytes, List.flatMap_append, List.flatMap_singleton, List.length_append, none_pending]
    exact ⟨by omega, by decide⟩

/-- The chunks of a pass take at most five bytes a pixel, beside those of the run pending before it (R141). -/
theorem length_passBytes_le (pixels : List Pixel) : ∀ (prev : Pixel) (run : BitVec 14) (cache : Cache),
    run.toNat ≤ 8223 → (passBytes prev run cache pixels).length ≤ 5 * pixels.length + pendingBytes run := by
  induction pixels with
  | nil => simp [passBytes, passChunks]
  | cons px rest ih =>
    intro prev run cache hrun
    obtain ⟨bound, hrun'⟩ := chunkEnc_bounds prev px rest.isEmpty cache hrun
    have := ih px _ (chunkEnc prev px run rest.isEmpty cache).cache hrun'
    rw [passBytes_cons, List.length_append, List.length_cons]
    omega

/-! ### Writes that are accepted -/

theorem wrote_accepted {e : Encoder} {bytes : List Byte} (h : e.outcount.toNat + bytes.length < 2 ^ 64) :
    Wrote e (accepted bytes e) bytes :=
  ⟨rfl, by
    rw [accepted, BitVec.toNat_add, BitVec.toNat_ofNat]
    omega⟩

theorem wrote_trans {e e' e'' : Encoder} {bytes bytes' : List Byte} (h : Wrote e e' bytes) (h' : Wrote e' e'' bytes') :
    Wrote e e'' (bytes ++ bytes') :=
  ⟨by rw [h'.out_eq, h.out_eq, List.append_assoc], by
    rw [h'.outcount_eq, h.outcount_eq, List.length_append, Nat.add_assoc]⟩

/-- A step over a sink that never answers IOERR goes on after its bytes. -/
theorem afterWrites_writeAll {e : Encoder} {bytes : List Byte} (f : Encoder → Encoder) (hf : e.sinkFail = none)
    (h : e.outcount.toNat + bytes.length < 2 ^ 64) :
    afterWrites f (writeAll bytes e) = .next (f (accepted bytes e)) := by
  rw [writeAll_of_ok bytes e h (fun j _ => by rw [hf]; nofun)]
  rfl

/-! ### The pixel phase (R125) -/

/-- The encoder between two steps of its pixel phase, with `pixels` still to be read, over a sink that never answers
IOERR; with none left it is in its padding phase. -/
structure PixelsAhead (e : Encoder) (pixels : List Pixel) : Prop where
  phase_eq : e.phase = if pixels = [] then .pad else .pix
  count : e.k.toNat + pixels.length = e.n.toNat
  held : ∀ j px, pixels[j]? = some px → readPixel e.grid (e.k.toNat + j) = some px
  accepts : e.sinkFail = none

section
variable {e : Encoder} {px : Pixel} {rest : List Pixel}

theorem PixelsAhead.lt (h : PixelsAhead e (px :: rest)) : e.k.toNat < e.n.toNat := by
  have := h.count
  rw [List.length_cons] at this
  omega

/-- The pixel being read is the last one where no other follows. -/
theorem PixelsAhead.last_iff (h : PixelsAhead e (px :: rest)) : e.k + 1 = e.n ↔ rest = [] := by
  have := h.count
  rw [List.length_cons] at this
  rw [← BitVec.toNat_inj, toNat_succ_of_lt h.lt, ← List.length_eq_zero_iff]
  omega

theorem PixelsAhead.nextChunks_eq (h : PixelsAhead e (px :: rest)) :
    nextChunks e = some (px, chunkEnc e.prev px e.run rest.isEmpty e.cache) := by
  have read : pixIn e = some px := by
    rw [pixIn, if_pos h.lt]
    exact h.held 0 px rfl
  have last : isLastPixel e = rest.isEmpty := by
    rw [Bool.eq_iff_iff, isLastPixel, decide_eq_true_iff, h.last_iff, List.isEmpty_iff]
  rw [nextChunks, read, last]

/-- A pixel step writes its chunks and goes on to the pixels after it. -/
theorem PixelsAhead.encStep_eq (h : PixelsAhead e (px :: rest)) {o : ChunkOut}
    (ho : o = chunkEnc e.prev px e.run rest.isEmpty e.cache) (hl : e.outcount.toNat + o.bytes.length < 2 ^ 64) :
    encStep e = .next (encAdvance px o (accepted o.bytes e)) := by
  have hp : e.phase = .pix := by simpa using h.phase_eq
  rw [encStep, hp]
  dsimp only
  rw [encPixelStep, h.nextChunks_eq, ← ho]
  exact afterWrites_writeAll _ h.accepts hl

theorem PixelsAhead.advance (h : PixelsAhead e (px :: rest)) (o : ChunkOut) :
    PixelsAhead (encAdvance px o (accepted o.bytes e)) rest := by
  have hp : e.phase = .pix := by simpa using h.phase_eq
  have hk := toNat_succ_of_lt h.lt
  have hc := h.count
  rw [List.length_cons] at hc
  refine ⟨?_, ?_, fun j p hj => ?_, h.accepts⟩
  · change (if e.k + 1 = e.n then EncPhase.pad else e.phase) = _
    rw [hp]
    exact if_congr h.last_iff rfl rfl
  · change (e.k + 1).toNat + rest.length = e.n.toNat
    omega
  · change readPixel e.grid ((e.k + 1).toNat + j) = some p
    rw [hk, Nat.add_assoc, Nat.add_comm 1 j]
    exact h.held (j + 1) p (by simpa using hj)

end

/-- The pixel steps of a pass write the chunks of its pixels. -/
theorem encRun_pixels (pixels : List Pixel) : ∀ {e : Encoder}, PixelsAhead e pixels →
    e.outcount.toNat + (passBytes e.prev e.run e.cache pixels).length < 2 ^ 64 →
    ∃ e', EncRun pixels.length e e' ∧ PixelsAhead e' [] ∧ Wrote e e' (passBytes e.prev e.run e.cache pixels) := by
  induction pixels with
  | nil => exact fun {e} h _ => ⟨e, .refl e, h, by simp [passBytes, passChunks], by simp [passBytes, passChunks]⟩
  | cons px rest ih =>
    intro e h hl
    have hp : e.phase = .pix := by simpa using h.phase_eq
    generalize ho : chunkEnc e.prev px e.run rest.isEmpty e.cache = o
    rw [passBytes_cons, ho] at hl ⊢
    rw [List.length_append] at hl
    have step_eq := h.encStep_eq ho.symm (by omega)
    have wrote : Wrote e (encAdvance px o (accepted o.bytes e)) o.bytes :=
      ⟨rfl, (wrote_accepted (e := e) (bytes := o.bytes) (by omega)).outcount_eq⟩
    obtain ⟨e', hrun, hend, hw⟩ := ih (h.advance o) (by
      rw [wrote.outcount_eq]
      exact Nat.add_assoc _ _ _ ▸ hl)
    exact ⟨e', .head (by rw [hp]; decide) step_eq hrun, hend, wrote_trans wrote hw⟩

/-! ### The whole pass (R123, R126) -/

/-- An encoder about to write its header, at the values of a pass start (R122), with `pixels` as its input, over a sink
that never answers IOERR. -/
structure PassAhead (e : Encoder) (pixels : List Pixel) : Prop where
  phase_eq : e.phase = .hdr
  k_eq : e.k = 0
  run_eq : e.run = 0
  prev_eq : e.prev = seed
  cache_eq : e.cache = cacheInit
  outcount_eq : e.outcount = 0
  count : pixels.length = e.n.toNat
  held : ∀ j px, pixels[j]? = some px → readPixel e.grid j = some px
  accepts : e.sinkFail = none

/-- The chunk bytes of a whole pass. -/
abbrev imageBytes (pixels : List Pixel) : List Byte := passBytes seed 0 cacheInit pixels

theorem length_imageBytes_le (pixels : List Pixel) : (imageBytes pixels).length ≤ 5 * pixels.length :=
  length_passBytes_le pixels seed 0 cacheInit (by decide)

@[simp] theorem length_headerBytes (w h : BitVec 32) : (headerBytes w h).length = 14 := rfl

/-- The header step of a pass. -/
theorem PassAhead.header {e : Encoder} {pixels : List Pixel} (h : PassAhead e pixels) :
    ∃ e', EncRun 1 e e' ∧ PixelsAhead e' pixels ∧ Wrote e e' (headerBytes e.width e.height) ∧
      e'.prev = e.prev ∧ e'.run = e.run ∧ e'.cache = e.cache := by
  have room : e.outcount.toNat + (headerBytes e.width e.height).length < 2 ^ 64 := by
    rw [h.outcount_eq, length_headerBytes]
    decide
  have none_left : e.n = 0 ↔ pixels = [] := by
    rw [← BitVec.toNat_inj, ← h.count, ← List.length_eq_zero_iff]
    rfl
  have step_eq : encStep e = encHeaderStep e := by rw [encStep, h.phase_eq]
  refine ⟨_, .single (by rw [h.phase_eq]; decide) (step_eq.trans (afterWrites_writeAll _ h.accepts room)),
    ⟨?_, ?_, ?_, h.accepts⟩, ⟨rfl, (wrote_accepted room).outcount_eq⟩, rfl, rfl, rfl⟩
  · exact if_congr none_left rfl rfl
  · change e.k.toNat + pixels.length = e.n.toNat
    rw [h.k_eq, h.count]
    exact Nat.zero_add _
  · intro j px hj
    change readPixel e.grid (e.k.toNat + j) = some px
    rw [h.k_eq]
    exact (Nat.zero_add j).symm ▸ h.held j px hj

/-- The padding step of a pass. -/
theorem PixelsAhead.padding {e : Encoder} (h : PixelsAhead e []) (hl : e.outcount.toNat + 4 < 2 ^ 64) :
    ∃ e', EncRun 1 e e' ∧ e'.phase = .idle ∧ e'.status = 0x02 ∧ e'.k = e'.n ∧ Wrote e e' Machine.padding := by
  have hp : e.phase = .pad := h.phase_eq
  have step_eq : encStep e = encPaddingStep e := by rw [encStep, hp]
  exact ⟨_, .single (by rw [hp]; decide) (step_eq.trans (afterWrites_writeAll _ h.accepts hl)), rfl, statusDone_eq,
    BitVec.eq_of_toNat_eq h.count, rfl, (wrote_accepted (bytes := Machine.padding) hl).outcount_eq⟩

/-- A pass without an error writes the header, the chunks of the image and the padding (R143). -/
theorem PassAhead.encRun {e : Encoder} {pixels : List Pixel} (h : PassAhead e pixels)
    (hl : 5 * pixels.length + 18 < 2 ^ 64) :
    ∃ e', EncRun (pixels.length + 2) e e' ∧ e'.phase = .idle ∧ e'.status = 0x02 ∧ e'.k = e'.n ∧
      Wrote e e' (headerBytes e.width e.height ++ imageBytes pixels ++ padding) := by
  have hb := length_imageBytes_le pixels
  have h0 : e.outcount.toNat = 0 := by rw [h.outcount_eq]; rfl
  obtain ⟨e1, hrun1, h1, hw1, hprev, hrun, hcache⟩ := h.header
  have start : passBytes e1.prev e1.run e1.cache pixels = imageBytes pixels := by
    rw [hprev, hrun, hcache, h.prev_eq, h.run_eq, h.cache_eq]
  have c1 := hw1.outcount_eq
  rw [length_headerBytes] at c1
  obtain ⟨e2, hrun2, h2, hw2⟩ := encRun_pixels pixels h1 (by rw [start]; omega)
  rw [start] at hw2
  have c2 := hw2.outcount_eq
  obtain ⟨e3, hrun3, hidle, hstatus, hk, hw3⟩ := h2.padding (by omega)
  refine ⟨e3, ?_, hidle, hstatus, hk, wrote_trans (wrote_trans hw1 hw2) hw3⟩
  rw [show pixels.length + 2 = 1 + pixels.length + 1 by omega]
  exact (hrun1.trans hrun2).trans hrun3

/-- The pixels of the first `n` numbers of a grid that holds them. -/
theorem exists_pixels {m : Memory} {n : Nat} (h : ∀ j, j < n → (readPixel m j).isSome = true) :
    ∃ pixels : List Pixel, pixels.length = n ∧ ∀ j px, pixels[j]? = some px → readPixel m j = some px := by
  refine ⟨List.ofFn fun j : Fin n => (readPixel m j).get (h j j.isLt), List.length_ofFn, fun j px hj => ?_⟩
  obtain ⟨hlt, rfl⟩ := List.getElem?_eq_some_iff.mp hj
  simp

/-- Settles O43: the pass writes the header, the chunks of the image, and the padding. -/
theorem encoderPassEnds : Obligations.EncoderPassEnds := by
  intro s rest hinv hm hp hf hl
  obtain ⟨hk, hrun, hprev, hcache, hcount⟩ := hinv.atStart hp
  have busy : s.enc.phase ≠ .idle := by rw [hp]; decide
  obtain ⟨pixels, hlen, held⟩ := exists_pixels fun j hj => hinv.supplied busy j (by rw [hk]; exact Nat.zero_le j) hj
  have ahead : PassAhead s.enc pixels := ⟨hp, hk, hrun, hprev, hcache, hcount, hlen, held, hf⟩
  rw [← hlen] at hm hl ⊢
  obtain ⟨e, hpass, hidle, hstatus, hend, hw⟩ := ahead.encRun hl
  refine ⟨{ s with enc := e, script := rest }, imageBytes pixels, run_of_encRun hm hpass, rfl, rfl, hidle, hstatus,
    hend, ?_, length_imageBytes_le pixels, ?_⟩
  · simpa [padding] using hw.out_eq
  · have := hw.outcount_eq
    rw [hcount] at this
    simp only [List.length_append, length_headerBytes, padding, List.length_cons, List.length_nil] at this
    change e.outcount.toNat = _
    change _ = 0 + _ at this
    omega

end Sys2Proof.Machine
end

section
/-! PROOFS. Grids written pixel by pixel are the grids of port words (R60, R61, R64). -/

namespace Sys2Proof.Machine

theorem memWrite_append {m : Memory} {a : Nat} (v : Byte) (h : ∀ c ∈ m, c.1 < a) : memWrite m a v = m ++ [(a, v)] := by
  induction m with
  | nil => rfl
  | cons c cs ih =>
    have hc := h c (by simp)
    rw [memWrite, if_neg (Nat.lt_asymm hc), if_neg (Nat.ne_of_gt hc), ih fun d hd => h d (List.mem_cons_of_mem _ hd),
      List.cons_append]

/-- A pixel written behind all the bytes of a memory is appended to it. -/
theorem writePixel_append {m : Memory} {j : Nat} (p : Pixel) (h : ∀ c ∈ m, c.1 < 4 * j) :
    writePixel m j p = m ++ gridOf j [pixelWord p] := by
  have below : ∀ {a b : Nat} {v : Byte} {m : Memory}, (∀ c ∈ m, c.1 < a) → b = a + 1 →
      ∀ c ∈ m ++ [(a, v)], c.1 < b := by
    intro a b v m hm hb c hc
    rcases List.mem_append.mp hc with hc | hc
    · have := hm c hc
      omega
    · obtain rfl := List.mem_singleton.mp hc
      exact hb ▸ Nat.lt_succ_self a
  have h1 := below (v := p.r) h rfl
  have h2 := below (v := p.g) h1 rfl
  have h3 := below (v := p.b) h2 rfl
  rw [writePixel, memWrite_append _ h, memWrite_append _ h1, memWrite_append _ h2, memWrite_append _ h3]
  simp [gridOf]

theorem gridOf_append (ws vs : List (BitVec 32)) :
    ∀ j, gridOf j (ws ++ vs) = gridOf j ws ++ gridOf (j + ws.length) vs := by
  induction ws with
  | nil => simp [gridOf]
  | cons w ws ih =>
    intro j
    simp [gridOf, ih, Nat.add_assoc, Nat.add_comm 1]

/-- The grid of the pixels delivered so far, one pixel later. -/
theorem writePixel_gridOf (pixels : List Pixel) (p : Pixel) :
    writePixel (gridOf 0 (pixels.map pixelWord)) pixels.length p = gridOf 0 ((pixels ++ [p]).map pixelWord) := by
  rw [List.map_append, gridOf_append, writePixel_append]
  · simp
  · intro c hc
    simpa using (gridOf_bounds _ 0 c hc).2

theorem length_gridOf (ws : List (BitVec 32)) : ∀ j, (gridOf j ws).length = 4 * ws.length := by
  induction ws with
  | nil => simp [gridOf]
  | cons w ws ih =>
    intro j
    simp only [gridOf, List.length_cons, ih]
    omega

/-- The grid the host supplies holds its pixels and no more (R200). -/
theorem holdsPixels_gridOf (ws : List (BitVec 32)) : holdsPixels (gridOf 0 ws) ws.length = true :=
  (holdsPixels_iff _ _).mpr ⟨length_gridOf ws 0, fun c hc => by simpa using (gridOf_bounds ws 0 c hc).2⟩

/-- A pixel with a larger number is read behind the first word. -/
theorem readPixel_gridOf_cons (w : BitVec 32) (ws : List (BitVec 32)) {i j : Nat} (h : i < j) :
    readPixel (gridOf i (w :: ws)) j = readPixel (gridOf (i + 1) ws) j := by
  have skip : ∀ a, 4 * i + 3 < a → memRead (gridOf i (w :: ws)) a = memRead (gridOf (i + 1) ws) a := fun a ha => by
    simp only [gridOf, memRead]
    rw [if_neg (by omega), if_neg (by omega), if_neg (by omega), if_neg (by omega)]
  unfold readPixel
  rw [skip _ (by omega), skip _ (by omega), skip _ (by omega), skip _ (by omega)]

/-- Pixel number `i + j` of the grid that holds `ws` from pixel `i` on is the `j`-th word's (R60, R64). -/
theorem readPixel_gridOf (ws : List (BitVec 32)) :
    ∀ i j, readPixel (gridOf i ws) (i + j) = (ws[j]?).map pixelOfWord := by
  induction ws with
  | nil => simp [gridOf, readPixel, memRead]
  | cons w ws ih =>
    intro i j
    cases j with
    | zero => simp [gridOf, readPixel, memRead]
    | succ j =>
      rw [readPixel_gridOf_cons w ws (by omega), show i + (j + 1) = i + 1 + j by omega, ih]
      rfl

end Sys2Proof.Machine
end

section
/-! PROOFS. What the decoder reads from a stream that holds given bytes at D.pos (R149, R153). -/

namespace Sys2Proof.Machine

/-- The host answers the decoder's next reads with the bytes of `unread`, then with EOI. -/
structure Reading (d : Decoder) (unread : List Byte) : Prop where
  answers : d.srcFail = none
  going : d.ended = false
  short : d.stream.length < 2 ^ 64
  unread_eq : d.stream.drop d.pos.toNat = unread

/-- The decoder with `count` more bytes consumed. -/
def consumed (count : Nat) (d : Decoder) : Decoder := { d with pos := d.pos + BitVec.ofNat 64 count }

theorem consumed_zero (d : Decoder) : consumed 0 d = d := by simp [consumed]

theorem consumed_consumed (m n : Nat) (d : Decoder) : consumed n (consumed m d) = consumed (m + n) d := by
  simp [consumed, BitVec.ofNat_add, BitVec.add_assoc]

section
variable {d : Decoder} {bytes rest : List Byte}

theorem Reading.consume (h : Reading d (bytes ++ rest)) : Reading (consumed bytes.length d) rest := by
  refine ⟨h.answers, h.going, h.short, ?_⟩
  have hu := h.unread_eq
  have hs := h.short
  have hl := congrArg List.length hu
  rw [List.length_drop, List.length_append] at hl
  rcases Nat.eq_zero_or_pos bytes.length with h0 | hpos
  · rw [List.eq_nil_of_length_eq_zero h0] at hu ⊢
    rwa [List.length_nil, consumed_zero]
  · have hp : (consumed bytes.length d).pos.toNat = d.pos.toNat + bytes.length := by
      rw [consumed, BitVec.toNat_add, BitVec.toNat_ofNat]
      omega
    rw [hp, consumed, ← List.drop_drop, hu, List.drop_left]

theorem Reading.inRead_eq {b : Byte} (h : Reading d (b :: rest)) : inRead d = .byte b (consumed 1 d) := by
  have hb : d.stream[d.pos.toNat]? = some b := by
    rw [← List.head?_drop, h.unread_eq, List.head?_cons]
  refine inRead_of_byte ((sourceAnswer_byte_iff d b).mpr ⟨h.going, by simp [h.answers], hb⟩) fun hp => ?_
  obtain ⟨hlt, -⟩ := List.getElem?_eq_some_iff.mp hb
  have := h.short
  rw [hp, show lastPos.toNat = 2 ^ 64 - 1 from rfl] at hlt
  omega

theorem Reading.consume_one {b : Byte} (h : Reading d (b :: rest)) : Reading (consumed 1 d) rest :=
  Reading.consume (bytes := [b]) h

end

theorem readOperands_of_reading (bytes : List Byte) {rest : List Byte} : ∀ {d : Decoder}, Reading d (bytes ++ rest) →
    readOperands bytes.length d = .ok bytes (consumed bytes.length d) := by
  induction bytes with
  | nil => exact fun {d} _ => by rw [List.length_nil, consumed_zero, readOperands]
  | cons b bytes ih =>
    intro d h
    rw [List.length_cons, readOperands, Reading.inRead_eq h]
    dsimp only
    rw [ih (Reading.consume_one h), consumed_consumed, Nat.add_comm 1]
    rfl

theorem readHeaderBytes_of_reading (bytes : List Byte) {rest : List Byte} : ∀ {d : Decoder},
    Reading d (bytes ++ rest) → readHeaderBytes bytes.length d = .ok bytes (consumed bytes.length d) := by
  induction bytes with
  | nil => exact fun {d} _ => by rw [List.length_nil, consumed_zero, readHeaderBytes]
  | cons b bytes ih =>
    intro d h
    rw [List.length_cons, readHeaderBytes, Reading.inRead_eq h]
    dsimp only
    rw [ih (Reading.consume_one h), consumed_consumed, Nat.add_comm 1]
    rfl

/-- Where the stream holds the encoding of a chunk, the fetch gives that chunk (R99, R153). -/
theorem fetch_of_encode {d : Decoder} {i : Instr} {rest : List Byte} (hi : i.wf = true)
    (h : Reading d (encode i ++ rest)) : fetch d = .chunk i (consumed (encode i).length d) := by
  obtain ⟨b0, ops, he, hl⟩ := encode_lengthStatement i
  rw [he, List.cons_append] at h
  rw [fetch, h.inRead_eq]
  dsimp only
  rw [← hl, readOperands_of_reading ops h.consume_one]
  dsimp only
  rw [decodeChunk_of_encode hi he, consumed_consumed, he, List.length_cons, Nat.add_comm 1]

/-! ### The header (R105, R106) -/

/-- The fields of a written header (R62, R79). -/
theorem field32_headerBytes (w h : BitVec 32) :
    field32 (headerBytes w h) 0 = Config.magic ∧ field32 (headerBytes w h) 4 = w ∧ field32 (headerBytes w h) 8 = h :=
  ⟨pixelWord_pixelOfWord Config.magic, pixelWord_pixelOfWord w, pixelWord_pixelOfWord h⟩

/-- The decoder accepts the header that the encoder writes (R105, R106). -/
theorem readHeader_of_headerBytes {d : Decoder} {w h : BitVec 32} {rest : List Byte}
    (hr : Reading d (headerBytes w h ++ rest)) :
    readHeader d = .ok ⟨w, h, .fourChannelNonPremultiplied⟩ (consumed headerLen d) := by
  obtain ⟨magic, width, height⟩ := field32_headerBytes w h
  have read : readHeaderBytes headerLen d = .ok (headerBytes w h) (consumed headerLen d) :=
    readHeaderBytes_of_reading (headerBytes w h) hr
  rw [readHeader, read]
  dsimp only
  rw [if_pos magic, parseHeader, width, height]

end Sys2Proof.Machine
end

section
/-! PROOFS. The decoder over the encoder's own output: it delivers the encoder's pixels, and the two caches stay as R121
says. -/

namespace Sys2Proof.Machine

/-! ### The two caches (R121) -/

@[simp] theorem cacheLookup_cacheStore (c : Cache) (i j : Fin 64) (p : Pixel) :
    cacheLookup (cacheStore c i p) j = if j = i then p else cacheLookup c j := by
  simp [cacheLookup, cacheStore, Vector.getElem_set, Fin.ext_iff, eq_comm]

theorem cachesAgree_iff (enc dec : Cache) :
    CachesAgree enc dec ↔
      (∀ i : Fin 64, i ≠ 63 → cacheLookup enc i = cacheLookup dec i) ∧
        (cacheLookup enc 63 = cacheLookup dec 63 ∨ (cacheLookup enc 63 = transparent ∧ cacheLookup dec 63 = seed)) := by
  refine and_congr_left fun _ => forall_congr' fun i => ?_
  rw [Ne, Ne, Fin.ext_iff]
  rfl

/-- The same store in both caches keeps their agreement. -/
theorem CachesAgree.store {enc dec : Cache} (h : CachesAgree enc dec) (i : Fin 64) (p : Pixel) :
    CachesAgree (cacheStore enc i p) (cacheStore dec i p) := by
  rw [cachesAgree_iff] at h ⊢
  obtain ⟨others, last⟩ := h
  refine ⟨fun j hj => ?_, ?_⟩
  · simp [others j hj]
  · by_cases hi : 63 = i
    · simp [hi]
    · simpa [hi] using last

/-- The encoder's previous pixel stands in its slot of the encoder's cache, unless it is the SEED that no pixel has
displaced (R116, R148). -/
def PrevCached (prev : Pixel) (cache : Cache) : Prop :=
  cacheLookup cache (pixelHash prev) = prev ∨ (prev = seed ∧ cacheLookup cache 63 = transparent)

/-- The decoder stores a repeated pixel where the encoder does not: the caches still agree. -/
theorem CachesAgree.store_prev {enc dec : Cache} {prev : Pixel} (h : CachesAgree enc dec) (hp : PrevCached prev enc) :
    CachesAgree enc (cacheStore dec (pixelHash prev) prev) := by
  have hash_seed : pixelHash seed = 63 := by decide
  rw [cachesAgree_iff] at h ⊢
  obtain ⟨others, last⟩ := h
  rcases hp with hp | ⟨rfl, hp⟩
  · refine ⟨fun j hj => ?_, ?_⟩
    · by_cases hji : j = pixelHash prev
      · simp [hji, hp]
      · simpa [hji] using others j hj
    · by_cases hi : 63 = pixelHash prev
      · simp [← hi, hi ▸ hp]
      · simpa [hi] using last
  · exact ⟨fun j hj => by simpa [hash_seed, hj] using others j hj, .inr ⟨hp, by simp [hash_seed]⟩⟩

/-- A hit in the encoder's cache is a hit in the decoder's: slot 63 is no hit where the two differ (R121). -/
theorem CachesAgree.hit {enc dec : Cache} {px : Pixel} (h : CachesAgree enc dec)
    (hit : cacheLookup enc (pixelHash px) = px) : cacheLookup dec (pixelHash px) = px := by
  obtain ⟨others, last⟩ := (cachesAgree_iff enc dec).mp h
  by_cases hi : pixelHash px = 63
  · rcases last with same | ⟨clear, -⟩
    · rw [hi, ← same, ← hi, hit]
    · have px_eq : px = transparent := by rw [← hit, hi, clear]
      rw [px_eq] at hi
      exact absurd hi (by decide)
  · rw [← others _ hi, hit]

/-! ### What the encoder's chunks give the decoder -/

/-- A run chunk is well formed, repeats the current pixel, and leaves one repeat fewer than its count (R156, R157). -/
theorem emitRun_spec {c : Nat} (h1 : 1 ≤ c) (h2 : c ≤ 8224) (d : Decoder) :
    (emitRun c).wf = true ∧ skipsStore (emitRun c) = false ∧ chunkPixel d (emitRun c) = d.px ∧
      (chunkRepeats d (emitRun c)).toNat = c - 1 := by
  have owed : (owedRepeats c).toNat = c - 1 := by
    rw [owedRepeats, BitVec.toNat_ofNat]
    omega
  unfold emitRun
  split
  next hs =>
    refine ⟨?_, rfl, rfl, owed⟩
    rw [shortRunMax] at hs
    simp only [Instr.wf, Bool.and_eq_true, decide_eq_true_eq]
    omega
  next hs =>
    refine ⟨?_, rfl, rfl, owed⟩
    rw [shortRunMax] at hs
    simp only [Instr.wf, Bool.and_eq_true, decide_eq_true_eq]
    omega

theorem addDeltas_sdelta (px prev : Pixel) :
    addDeltas prev (sdelta px.r prev.r) (sdelta px.g prev.g) (sdelta px.b prev.b) (sdelta px.a prev.a) = px := by
  simp [addDeltas]

/-- The same for a chunk that keeps alpha, where alpha has not changed. -/
theorem addDeltas_sdelta_alpha {px prev : Pixel} (h : sdelta px.a prev.a = 0) :
    { addDeltas prev (sdelta px.r prev.r) (sdelta px.g prev.g) (sdelta px.b prev.b) 0 with a := prev.a } = px := by
  simp [addDeltas, ← eq_of_sdelta_eq_zero h]

/-- A literal channel replaces the old value only where it has changed. -/
theorem getD_of_sdelta (x y : Byte) : (if sdelta x y ≠ 0 then some x else none).getD y = x := by
  by_cases h : sdelta x y = 0
  · rw [if_neg (not_not_intro h)]
    exact (eq_of_sdelta_eq_zero h).symm
  · rw [if_pos h]
    rfl

/-- The tier's chunk gives the pixel back to a decoder at the pixel before it, in every tier (R131, R158 to R161). -/
theorem tierFor_spec (px : Pixel) (d : Decoder) :
    (tierFor px d.px).wf = true ∧ skipsStore (tierFor px d.px) = false ∧ chunkPixel d (tierFor px d.px) = px ∧
      chunkRepeats d (tierFor px d.px) = d.run := by
  unfold tierFor selectTier
  split
  next h =>
    obtain ⟨ha, hr, hg, hb⟩ := h
    exact ⟨by simp [Instr.wf, hr, hg, hb], rfl, addDeltas_sdelta_alpha ha, rfl⟩
  next =>
    split
    next h =>
      obtain ⟨ha, hr, hg, hb⟩ := h
      exact ⟨by simp [Instr.wf, hr, hg, hb], rfl, addDeltas_sdelta_alpha ha, rfl⟩
    next =>
      split
      next h =>
        obtain ⟨hr, hg, hb, ha⟩ := h
        exact ⟨by simp [Instr.wf, hr, hg, hb, ha], rfl, addDeltas_sdelta px d.px, rfl⟩
      next =>
        refine ⟨rfl, rfl, ?_, rfl⟩
        simp only [emitLit, chunkPixel, replaceChannels, getD_of_sdelta]

/-- The chunk of a differing pixel gives that pixel to a decoder whose cache agrees, and both caches then hold it in its
slot (R121, R129, R163). -/
theorem encodePixel_spec {px : Pixel} {cache : Cache} {d : Decoder} (agree : CachesAgree cache d.cache) :
    (encodePixel px d.px cache).1.wf = true ∧ chunkPixel d (encodePixel px d.px cache).1 = px ∧
      chunkRepeats d (encodePixel px d.px cache).1 = d.run ∧
      CachesAgree (encodePixel px d.px cache).2
        (if skipsStore (encodePixel px d.px cache).1 then d.cache else cacheStore d.cache (pixelHash px) px) ∧
      PrevCached px (encodePixel px d.px cache).2 := by
  by_cases hit : cacheLookup cache (pixelHash px) = px
  · rw [encodePixel, if_pos hit]
    exact ⟨rfl, agree.hit hit, rfl, agree, .inl hit⟩
  · rw [encodePixel, if_neg hit]
    obtain ⟨hwf, hstore, hpx, hrun⟩ := tierFor_spec px d
    refine ⟨hwf, hpx, hrun, ?_, .inl (by simp)⟩
    simpa [hstore] using agree.store (pixelHash px) px

/-! ### One step of the decoder -/

/-- A full decoder pass over a stream with `unread` still to be read: it has delivered the pixels `done`, and `left`
more are to come. -/
structure Progress (d : Decoder) (done : List Pixel) (left : Nat) (unread : List Byte) : Prop where
  reading : Reading d unread
  ahead : PixelsLeft d left
  grid_eq : d.grid = gridOf 0 (done.map pixelWord)
  k_eq : d.k.toNat = done.length

section
variable {d : Decoder} {done : List Pixel} {left : Nat} {unread : List Byte}

theorem Progress.choose (h : Progress d done left unread) (px : Pixel) (run : BitVec 14) :
    Progress { d with px := px, run := run } done left unread :=
  ⟨⟨h.reading.answers, h.reading.going, h.reading.short, h.reading.unread_eq⟩,
    ⟨h.ahead.count, h.ahead.running, h.ahead.complete⟩, h.grid_eq, h.k_eq⟩

theorem Progress.consume {bytes : List Byte} (h : Progress d done left (bytes ++ unread)) :
    Progress (consumed bytes.length d) done left unread :=
  ⟨h.reading.consume, ⟨h.ahead.count, h.ahead.running, h.ahead.complete⟩, h.grid_eq, h.k_eq⟩

theorem Progress.deliver (fromIndex : Bool) (h : Progress d done (left + 1) unread) :
    Progress (afterDelivery fromIndex d) (done ++ [d.px]) left unread := by
  refine ⟨⟨?_, ?_, ?_, ?_⟩, h.ahead.afterDelivery fromIndex, ?_, ?_⟩
  · simpa using h.reading.answers
  · simpa using h.reading.going
  · simpa using h.reading.short
  · simpa using h.reading.unread_eq
  · rw [afterDelivery_grid, h.grid_eq, h.k_eq, writePixel_gridOf]
  · rw [afterDelivery_k, toNat_succ_of_lt h.ahead.lt, h.k_eq, List.length_append]
    rfl

/-- The decoder after the step of the chunk `i`, which stands next in its stream. -/
def afterChunk (i : Instr) (d : Decoder) : Decoder :=
  afterDelivery (skipsStore i)
    { consumed (encode i).length d with px := chunkPixel d i, run := chunkRepeats d i }

@[simp] theorem afterChunk_px (i : Instr) (d : Decoder) : (afterChunk i d).px = chunkPixel d i := afterDelivery_px _ _
@[simp] theorem afterChunk_run (i : Instr) (d : Decoder) : (afterChunk i d).run = chunkRepeats d i :=
  afterDelivery_run _ _
@[simp] theorem afterChunk_cache (i : Instr) (d : Decoder) : (afterChunk i d).cache =
    if skipsStore i then d.cache else cacheStore d.cache (pixelHash (chunkPixel d i)) (chunkPixel d i) :=
  afterDelivery_cache _ _

theorem Progress.chunk {i : Instr} (h : Progress d done (left + 1) (encode i ++ unread)) (hr : d.run = 0)
    (hi : i.wf = true) :
    DecRun 1 d (afterChunk i d) ∧ Progress (afterChunk i d) (done ++ [chunkPixel d i]) left unread := by
  have ready : ChunkReady (consumed (encode i).length d) := ⟨h.ahead.running (Nat.succ_ne_zero left), hr, h.ahead.lt⟩
  have same : chunkPixel (consumed (encode i).length d) i = chunkPixel d i ∧
      chunkRepeats (consumed (encode i).length d) i = chunkRepeats d i := by
    cases i <;> exact ⟨rfl, rfl⟩
  have step_eq := decPixel_of_chunk hr (fetch_of_encode hi h.reading) ready hi
  rw [same.1, same.2] at step_eq
  exact ⟨h.ahead.decRun step_eq, (h.consume.choose (chunkPixel d i) (chunkRepeats d i)).deliver (skipsStore i)⟩

end

/-! ### The decoder follows the encoder -/

/-- The decoder has delivered the pixels `done`, the last of them `prev`, owes it `owed` more times, and its cache
agrees with the encoder's `cache`. -/
structure Follows (d : Decoder) (done : List Pixel) (prev : Pixel) (owed : Nat) (cache : Cache) (unread : List Byte)
    (left : Nat) : Prop where
  progress : Progress d done left unread
  px_eq : d.px = prev
  owed_eq : d.run.toNat = owed
  agree : CachesAgree cache d.cache
  cached : PrevCached prev cache

section
variable {prev : Pixel} {cache : Cache} {unread : List Byte} {left : Nat}

theorem Follows.run_eq_zero {d : Decoder} {done : List Pixel} (h : Follows d done prev 0 cache unread left) :
    d.run = 0 :=
  BitVec.eq_of_toNat_eq h.owed_eq

/-- The repeats owed are delivered without a read (R165). -/
theorem Follows.repeats (owed : Nat) : ∀ {d : Decoder} {done : List Pixel},
    Follows d done prev owed cache unread (owed + left) →
    ∃ d', DecRun owed d d' ∧ Follows d' (done ++ List.replicate owed prev) prev 0 cache unread left := by
  induction owed with
  | zero => exact fun {d done} h => ⟨d, .refl d, by simpa using h⟩
  | succ owed ih =>
    intro d done ⟨progress, hpx, howed, agree, cached⟩
    subst hpx
    rw [Nat.add_right_comm] at progress
    have hrun : (d.run - 1).toNat = owed := by bv_omega
    have hne : d.run ≠ 0 := fun h => by simp [h] at howed
    have first := progress.ahead.decRun (decPixel_of_owed hne progress.ahead.lt)
    have next : Follows (afterDelivery false { d with run := d.run - 1 }) (done ++ [d.px]) d.px owed cache unread
        (owed + left) :=
      ⟨(progress.choose d.px (d.run - 1)).deliver false, by simp, by rw [afterDelivery_run, hrun],
        by simpa using agree.store_prev cached, cached⟩
    obtain ⟨d', more, hd'⟩ := ih next
    refine ⟨d', Nat.add_comm 1 owed ▸ first.trans more, ?_⟩
    rwa [List.append_assoc, List.singleton_append, ← List.replicate_succ] at hd'

/-- A run chunk delivers as many pixels as it counts (R156, R157, R165). -/
theorem Follows.run {d : Decoder} {done : List Pixel} {c : Nat} (h1 : 1 ≤ c) (h2 : c ≤ 8224)
    (h : Follows d done prev 0 cache (encode (emitRun c) ++ unread) (c + left)) :
    ∃ d', DecRun c d d' ∧ Follows d' (done ++ List.replicate c prev) prev 0 cache unread left := by
  obtain ⟨c, rfl⟩ := Nat.exists_eq_add_of_le' h1
  have hr := h.run_eq_zero
  obtain ⟨progress, hpx, -, agree, cached⟩ := h
  subst hpx
  rw [Nat.add_right_comm] at progress
  obtain ⟨hwf, hstore, hpx, hrun⟩ := emitRun_spec h1 h2 d
  obtain ⟨first, progress⟩ := progress.chunk hr hwf
  rw [hpx] at progress
  have next : Follows (afterChunk (emitRun (c + 1)) d) (done ++ [d.px]) d.px c cache unread (c + left) :=
    ⟨progress, by simp [hpx], by simpa using hrun,
      by simpa [hstore, hpx] using agree.store_prev cached, cached⟩
  obtain ⟨d', more, hd'⟩ := next.repeats
  refine ⟨d', Nat.add_comm 1 c ▸ first.trans more, ?_⟩
  rwa [List.append_assoc, List.singleton_append, ← List.replicate_succ] at hd'

/-- The run that the encoder flushes before another pixel, if one is pending. -/
theorem Follows.pending {d : Decoder} {done : List Pixel} {run : BitVec 14} (hrun : run.toNat ≤ 8223)
    (h : Follows d done prev 0 cache ((pendingChunks run).flatMap encode ++ unread) (run.toNat + left)) :
    ∃ d', DecRun run.toNat d d' ∧ Follows d' (done ++ List.replicate run.toNat prev) prev 0 cache unread left := by
  by_cases hr : run = 0
  · subst hr
    exact Follows.repeats 0 h
  · have pos : run.toNat ≠ 0 := fun h => hr (BitVec.eq_of_toNat_eq h)
    rw [pendingChunks, if_neg hr, List.flatMap_singleton] at h
    exact h.run (by omega) (by omega)

/-- The chunk of another pixel delivers that pixel. -/
theorem Follows.pixel {d : Decoder} {done : List Pixel} {px : Pixel}
    (h : Follows d done prev 0 cache (encode (encodePixel px prev cache).1 ++ unread) (left + 1)) :
    ∃ d', DecRun 1 d d' ∧ Follows d' (done ++ [px]) px 0 (encodePixel px prev cache).2 unread left := by
  have hr := h.run_eq_zero
  obtain ⟨progress, rfl, -, agree, -⟩ := h
  obtain ⟨hwf, hpx, hrun, agree', cached⟩ := encodePixel_spec (px := px) agree
  obtain ⟨first, progress⟩ := progress.chunk hr hwf
  rw [hpx] at progress
  exact ⟨_, first, progress, by simp [hpx], by simp [hrun, hr],
    by simpa [hpx] using agree', cached⟩

end

/-- Over the chunks of a pass, the decoder delivers the pending run and the pass's pixels, and ends. -/
theorem decRun_passBytes (pixels : List Pixel) :
    ∀ {d : Decoder} {done : List Pixel} {prev : Pixel} {run : BitVec 14} {cache : Cache} {rest : List Byte},
    run.toNat ≤ 8223 → (pixels = [] → run = 0) →
    Follows d done prev 0 cache (passBytes prev run cache pixels ++ rest) (run.toNat + pixels.length) →
    ∃ d', DecRun (run.toNat + pixels.length) d d' ∧ PixelsLeft d' 0 ∧
      d'.grid = gridOf 0 ((done ++ List.replicate run.toNat prev ++ pixels).map pixelWord) := by
  induction pixels with
  | nil =>
    intro d done prev run cache rest _ hnone h
    obtain rfl := hnone rfl
    exact ⟨d, .refl d, h.progress.ahead, by simpa using h.progress.grid_eq⟩
  | cons px pixels ih =>
    intro d done prev run cache rest hrun _ h
    rw [passBytes_cons, List.append_assoc] at h
    rw [List.length_cons] at h ⊢
    by_cases hpx : px = prev
    · subst hpx
      have pixels_eq : done ++ List.replicate run.toNat px ++ px :: pixels =
          done ++ List.replicate (run.toNat + 1) px ++ pixels := by
        simp [List.replicate_succ']
      rw [chunkEnc_same px _ cache hrun] at h
      rw [← Nat.add_assoc, Nat.add_right_comm] at h ⊢
      rw [pixels_eq]
      split at h
      next =>
        simp only [ChunkOut.bytes, List.flatMap_singleton] at h
        obtain ⟨d1, first, h1⟩ := h.run (by omega) (by omega)
        obtain ⟨d', more, hd'⟩ := ih (run := 0) (by decide) (fun _ => rfl) (by simpa using h1)
        exact ⟨d', first.trans (by simpa using more), by simpa using hd'⟩
      next hfull =>
        have grown : (run + 1).toNat = run.toNat + 1 := by bv_omega
        obtain ⟨hne, hlast⟩ := not_or.mp hfull
        rw [← grown] at h ⊢
        exact ih (by omega) (fun hnil => absurd (by simp [hnil]) hlast) h
    · rw [chunkEnc_other run _ cache hpx] at h
      simp only [ChunkOut.bytes, List.flatMap_append, List.flatMap_singleton, List.append_assoc] at h
      obtain ⟨d1, first, h1⟩ := h.pending hrun
      obtain ⟨d2, second, h2⟩ := h1.pixel
      obtain ⟨d', more, hd'⟩ := ih (run := 0) (by decide) (fun _ => rfl) (by simpa using h2)
      refine ⟨d', ?_, by simpa using hd'⟩
      simpa [Nat.add_assoc, Nat.add_comm 1] using (first.trans second).trans more

end Sys2Proof.Machine
end

section
/-! PROOFS. The round trip of a whole pass (R17): the host starts the encoder over an image, and the decoder over the
encoder's output. -/

namespace Sys2Proof.Machine

/-- The pixel count does not wrap: two 32-bit numbers multiply in 64 bits (R122, R150). -/
theorem toNat_pixelCount (w h : BitVec 32) : (pixelCount w h).toNat = w.toNat * h.toNat := by
  have : w.toNat * h.toNat < 2 ^ 32 * 2 ^ 32 := Nat.mul_lt_mul'' w.isLt h.isLt
  rw [pixelCount, BitVec.toNat_mul, BitVec.toNat_setWidth_of_le (by decide), BitVec.toNat_setWidth_of_le (by decide)]
  exact Nat.mod_eq_of_lt this

/-! ### The encoder's pass -/

/-- E.start over the grid of an image of `N` words is accepted (R122, R200). -/
theorem encStart_of_image {e : Encoder} {image : List (BitVec 32)} (hp : e.phase = .idle) (hg : e.grid = gridOf 0 image)
    (hn : image.length = e.cfgWidth.toNat * e.cfgHeight.toNat) : encStart e = .next (encInit e) := by
  have holds : holdsPixels e.grid (pixelCount e.cfgWidth e.cfgHeight).toNat = true := by
    rw [hg, toNat_pixelCount, ← hn]
    exact holdsPixels_gridOf image
  rw [encStart, if_pos hp, if_pos holds]

/-- It puts the pass before the image's pixels. -/
theorem passAhead_encInit {e : Encoder} {image : List (BitVec 32)} (hg : e.grid = gridOf 0 image)
    (hn : image.length = e.cfgWidth.toNat * e.cfgHeight.toNat) (hf : e.sinkFail = none) :
    PassAhead (encInit e) (image.map pixelOfWord) where
  phase_eq := rfl
  k_eq := rfl
  run_eq := rfl
  prev_eq := rfl
  cache_eq := rfl
  outcount_eq := rfl
  count := by rw [List.length_map, encInit_n, toNat_pixelCount, hn]
  held j px hj := by
    have read := readPixel_gridOf image 0 j
    rw [Nat.zero_add, ← List.getElem?_map, hj] at read
    rw [encInit_grid, hg, read]
  accepts := hf

/-- From an IDLE encoder to which an image is supplied, E.start and a pass over the image. -/
theorem run_encoder_pass {s : State} {image : List (BitVec 32)} (hd : s.dec.phase = .idle) (hp : s.enc.phase = .idle)
    (hg : s.enc.grid = gridOf 0 image) (hn : image.length = s.enc.cfgWidth.toNat * s.enc.cfgHeight.toNat)
    (hf : s.enc.sinkFail = none) (hl : 5 * image.length + 18 < 2 ^ 64) :
    ∃ e, Host.Core.run Sys2Proof.core (image.length + 3) { s with script := [.startEncoder] } =
        .next { s with enc := e, script := [] } ∧
      e.phase = .idle ∧ e.status = 0x02 ∧
      e.out = headerBytes s.enc.cfgWidth s.enc.cfgHeight ++ imageBytes (image.map pixelOfWord) ++ padding := by
  have start : step { s with script := [.startEncoder] } = .next { s with enc := encInit s.enc, script := [] } := by
    rw [step_of_script_cons rfl]
    change onEncoder _ (encStart s.enc) = _
    rw [encStart_of_image hp hg hn]
    rfl
  obtain ⟨e, hrun, hidle, hstatus, -, hw⟩ := (passAhead_encInit hg hn hf).encRun (by rwa [List.length_map])
  rw [List.length_map] at hrun
  refine ⟨e, ?_, hidle, hstatus, by simpa using hw.out_eq⟩
  rw [run_succ start]
  exact run_of_encRun (s := { s with enc := encInit s.enc, script := [] }) (.inl ⟨rfl, hd, rfl⟩) hrun

/-! ### The decoder's pass -/

/-- An accepted header leaves a full pass as many pixels as it says; with none the pass is done (R150). -/
theorem pixelsLeft_decAcceptHeader {d : Decoder} (header : Header) (hm : d.mode = .full) (hk : d.k = 0) :
    PixelsLeft (decAcceptHeader header d) (pixelCount header.width header.height).toNat := by
  refine ⟨?_, fun hn => ?_, fun hn => ?_⟩
  · rw [decAcceptHeader_k, decAcceptHeader_n, hk]
    exact Nat.zero_add _
  · have some_left : ¬(d.mode = .headerOnly ∨ pixelCount header.width header.height = 0) := by
      rintro (h | h)
      · rw [hm] at h
        cases h
      · rw [h] at hn
        exact hn rfl
    rw [decAcceptHeader, if_neg some_left]
  · rw [decAcceptHeader, if_pos (.inr (BitVec.eq_of_toNat_eq hn))]
    exact ⟨rfl, statusDone_eq⟩

/-- The header step over a written header accepts it (R105, R150). -/
theorem decRun_header {d : Decoder} {w h : BitVec 32} {rest : List Byte} (hp : d.phase = .hdr)
    (hr : Reading d (headerBytes w h ++ rest)) :
    DecRun 1 d (decAcceptHeader ⟨w, h, .fourChannelNonPremultiplied⟩ (consumed headerLen d)) := by
  refine .single (by rw [hp]; decide) ?_
  rw [decStep_of_hdr hp, decHeaderStep, readHeader_of_headerBytes hr]

/-- After the header of an encoder pass, a full decoder pass stands where the encoder stood: at SEED, with the same
cache. -/
theorem follows_decAcceptHeader {d : Decoder} {w h : BitVec 32} {rest : List Byte} (hm : d.cfgMode = 0)
    (hr : Reading (decInit d) (headerBytes w h ++ rest)) :
    Follows (decAcceptHeader ⟨w, h, .fourChannelNonPremultiplied⟩ (consumed headerLen (decInit d))) [] seed 0 cacheInit
      rest (pixelCount w h).toNat where
  progress := by
    have read : Reading (consumed headerLen (decInit d)) rest := hr.consume
    have full : (consumed headerLen (decInit d)).mode = .full := if_pos hm
    refine ⟨⟨?_, ?_, ?_, ?_⟩, pixelsLeft_decAcceptHeader _ full rfl, ?_, ?_⟩
    · simpa using read.answers
    · simpa using read.going
    · simpa using read.short
    · simpa using read.unread_eq
    · rw [decAcceptHeader_grid]
      rfl
    · rw [decAcceptHeader_k]
      rfl
  px_eq := decAcceptHeader_px _ _
  owed_eq := congrArg BitVec.toNat (decAcceptHeader_run _ _)
  agree := by
    rw [decAcceptHeader_cache]
    exact ⟨fun _ _ => rfl, .inl rfl⟩
  cached := .inr ⟨rfl, by decide⟩

/-- A full decoder pass over the bytes of an encoder pass delivers the encoder's pixels. -/
theorem decRun_image {d : Decoder} {w h : BitVec 32} {pixels : List Pixel} {rest : List Byte} (hm : d.cfgMode = 0)
    (hn : pixels.length = w.toNat * h.toNat)
    (hr : Reading (decInit d) (headerBytes w h ++ (imageBytes pixels ++ rest))) :
    ∃ d', DecRun (pixels.length + 1) (decInit d) d' ∧ PixelsLeft d' 0 ∧ d'.grid = gridOf 0 (pixels.map pixelWord) := by
  have start := follows_decAcceptHeader hm hr
  rw [toNat_pixelCount, ← hn] at start
  obtain ⟨d', hrun, hend, hgrid⟩ :=
    decRun_passBytes pixels (run := 0) (by decide) (fun _ => rfl) (by simpa [imageBytes] using start)
  refine ⟨d', ?_, hend, by simpa using hgrid⟩
  rw [Nat.add_comm]
  exact (decRun_header rfl hr).trans (by simpa using hrun)

/-- From an IDLE decoder, the supply of a stream, D.start, and a pass over the stream. -/
theorem run_decoder_pass {s : State} {bytes : List Byte} {n : Nat} {d' : Decoder} (hp : s.dec.phase = .idle)
    (hrun : DecRun n (decInit { s.dec with stream := bytes }) d') :
    Host.Core.run Sys2Proof.core (n + 2) { s with script := [.supplyStream bytes, .startDecoder] } =
      .next { s with dec := d', script := [] } := by
  have supply : step { s with script := [.supplyStream bytes, .startDecoder] } =
      .next { s with dec := { s.dec with stream := bytes }, script := [.startDecoder] } := by
    rw [step_of_script_cons rfl]
    change onDecoder _ (decSupply bytes s.dec) = _
    rw [decSupply, if_pos (.inl hp)]
    rfl
  have start : step { s with dec := { s.dec with stream := bytes }, script := [.startDecoder] } =
      .next { s with dec := decInit { s.dec with stream := bytes }, script := [] } := by
    rw [step_of_script_cons rfl]
    change onDecoder _ (decStart { s.dec with stream := bytes }) = _
    rw [decStart, if_pos hp]
    rfl
  rw [run_succ supply, run_succ start]
  exact run_of_decRun (s := { s with dec := decInit { s.dec with stream := bytes }, script := [] }) rfl hrun

/-- Settles O45: the encoder's output is the header, the chunks of the image and the padding, and the decoder follows
the encoder through them. -/
theorem passRoundTrip : Obligations.PassRoundTrip := by
  intro s image _ hpe hpd hfe hfd hmode hgrid hcount hlen
  obtain ⟨e, hrun, hidle, hstatus, hout⟩ := run_encoder_pass hpd hpe hgrid hcount hfe hlen
  refine ⟨_, hrun, hstatus, ?_⟩
  have short : e.out.length < 2 ^ 64 := by
    have := length_imageBytes_le (image.map pixelOfWord)
    rw [List.length_map] at this
    rw [hout]
    simp only [List.length_append, length_headerBytes, padding, List.length_cons, List.length_nil]
    omega
  have reading : Reading (decInit { s.dec with stream := e.out })
      (headerBytes s.enc.cfgWidth s.enc.cfgHeight ++ (imageBytes (image.map pixelOfWord) ++ padding)) :=
    ⟨hfd, rfl, short, by rw [← List.append_assoc, ← hout]; rfl⟩
  obtain ⟨d, hdec, hend, hg⟩ :=
    decRun_image (d := { s.dec with stream := e.out }) hmode (by rw [List.length_map, hcount]) reading
  rw [List.length_map] at hdec
  obtain ⟨-, hdone⟩ := hend.complete rfl
  refine ⟨_, run_decoder_pass (s := { s with enc := e, script := [] }) hpd hdec, hdone, ?_⟩
  simpa [Function.comp_def] using hg

end Sys2Proof.Machine
end

section
/-! PROOFS. The encoder's invariant: every step of the engine and every host action on it keeps it (R20, R21, R28, R120,
R124), and a step stops only where its bytes would pass 2^64 - 1 (R30). -/

namespace Sys2Proof.Machine

/-! ### Outcomes -/

/-- What holds of each of the three outcomes of an operation. -/
def Meets {σ : Type} (next : σ → Prop) (fault : Fault → Prop) (refused : Refusal → Prop) :
    Host.Outcome σ Fault Refusal → Prop
  | .next t => next t
  | .fault f => fault f
  | .refused r => refused r

/-- The fault of an operation that has none. -/
abbrev NoFault (_ : Fault) : Prop := False

/-- The refusal of a stream of `size` bytes, which is more than 2^64 - 1 (R30). -/
abbrev TooLong (size : Nat) (r : Refusal) : Prop := r = .streamTooLong ∧ 2 ^ 64 ≤ size

/-! ### The slot invariant (R120) -/

theorem cacheOk_iff (cache : Cache) :
    CacheOk cache ↔ ∀ i, cacheLookup cache i = transparent ∨ pixelHash (cacheLookup cache i) = i := Iff.rfl

theorem cacheOk_cacheInit : CacheOk cacheInit := fun i => .inl (by simp [cacheInit])

/-- A pixel stored in the slot of its hash keeps the slot invariant. -/
theorem CacheOk.store {cache : Cache} (h : CacheOk cache) (px : Pixel) :
    CacheOk (cacheStore cache (pixelHash px) px) := by
  rw [cacheOk_iff]
  intro i
  rw [cacheLookup_cacheStore]
  split
  next hi => exact .inr hi.symm
  next => exact h i

theorem CacheOk.encodePixel {cache : Cache} (h : CacheOk cache) (px prev : Pixel) :
    CacheOk (encodePixel px prev cache).2 := by
  unfold Machine.encodePixel
  split
  · exact h
  · exact h.store px

theorem CacheOk.chunkEnc {cache : Cache} (h : CacheOk cache) (prev px : Pixel) (run : BitVec 14) (last : Bool) :
    CacheOk (chunkEnc prev px run last cache).cache := by
  unfold Machine.chunkEnc
  dsimp only
  split
  · exact h
  · exact h.encodePixel px prev

/-- No run is pending after the last pixel (R125, R127). -/
theorem chunkEnc_last_run (prev px : Pixel) {run : BitVec 14} (cache : Cache) (h : run.toNat ≤ 8223) :
    (chunkEnc prev px run true cache).run = 0 := by
  by_cases hpx : px = prev
  · subst hpx
    rw [chunkEnc_same px true cache h, if_pos (.inr rfl)]
  · rw [chunkEnc_other run true cache hpx]

/-! ### States that meet the encoder's invariant -/

/-- Of an IDLE encoder the invariant asks a canonical grid, a legal STATUS word, and after a successful pass the count of
its bytes. -/
theorem EncInv.of_idle {e : Encoder} (hp : e.phase = .idle) (hg : Memory.wf e.grid)
    (hs : e.status = 0x00 ∨ e.status = 0x02 ∨ e.status = 0x24) (hw : e.status = 0x02 → e.out.length = e.outcount.toNat) :
    EncInv e where
  gridWf := hg
  busy h := absurd hp h
  rest _ := hs
  count h := absurd hp h
  atStart := by simp [hp]
  pixels := by simp [hp]
  padding := by simp [hp]
  runBound h := absurd hp h
  slots h := absurd hp h
  written h := hw (h.resolve_left (not_not_intro hp))
  supplied h := absurd hp h

theorem encInv_encAbort {e : Encoder} (hg : Memory.wf e.grid) (pos : BitVec 64) : EncInv (encAbort .ioSink pos e) :=
  .of_idle rfl hg (.inr (.inr statusErr_ioSink)) (by simp)

theorem encInv_encReset {e : Encoder} (hg : Memory.wf e.grid) : EncInv (encReset e) :=
  .of_idle rfl hg (.inl rfl) (by simp [Encoder.reset])

/-- A pass start over a grid that holds exactly `N` pixels (R122, R200). -/
theorem encInv_encInit {e : Encoder} (hg : Memory.wf e.grid)
    (hn : holdsPixels e.grid (pixelCount e.cfgWidth e.cfgHeight).toNat = true) : EncInv (encInit e) where
  gridWf := hg
  busy _ := statusBusy_eq
  rest := nofun
  count _ := rfl
  atStart _ := ⟨rfl, rfl, rfl, rfl, rfl⟩
  pixels := nofun
  padding := nofun
  runBound _ := by simp
  slots _ := cacheOk_cacheInit
  written _ := rfl
  supplied _ _ _ hj := readPixel_isSome_of_holdsPixels hg hn hj

section
variable {e : Encoder}

/-- The invariant does not speak of what the host drives. -/
theorem EncInv.withPorts (h : EncInv e) (width height : BitVec 32) (sinkFail : Option Nat) :
    EncInv { e with cfgWidth := width, cfgHeight := height, sinkFail := sinkFail } :=
  ⟨h.gridWf, h.busy, h.rest, h.count, h.atStart, h.pixels, h.padding, h.runBound, h.slots, h.written, h.supplied⟩

/-- Another grid keeps the invariant where a running pass finds its unread pixels in it. -/
theorem EncInv.withGrid (h : EncInv e) {grid : Memory} (hg : Memory.wf grid)
    (same : e.phase ≠ .idle → unreadGrid grid e.k.toNat = unreadGrid e.grid e.k.toNat) :
    EncInv { e with grid := grid } :=
  { h with
    gridWf := hg
    supplied := fun hp j hj hn => by
      rw [readPixel_eq_of_unreadGrid (same hp) hj]
      exact h.supplied hp j hj hn }

/-! ### The engine's steps -/

/-- The output stream and its count grow together (R124). -/
theorem length_out_accepted {bytes : List Byte} (h : e.out.length = e.outcount.toNat)
    (room : e.outcount.toNat + bytes.length < 2 ^ 64) :
    (accepted bytes e).out.length = (accepted bytes e).outcount.toNat := by
  have wrote := wrote_accepted room
  rw [wrote.out_eq, wrote.outcount_eq, List.length_append, h]

/-- The header step leads to the pixels of the image, or to the padding where there are none (R123). -/
theorem EncInv.header (h : EncInv e) (hp : e.phase = .hdr) {bytes : List Byte}
    (room : e.outcount.toNat + bytes.length < 2 ^ 64) :
    EncInv { accepted bytes e with phase := if e.n = 0 then .pad else .pix } := by
  obtain ⟨hk, hrun, -, -, -⟩ := h.atStart hp
  have running : e.phase ≠ .idle := by simp [hp]
  exact
    { gridWf := h.gridWf
      busy := fun _ => h.busy running
      rest := fun hi => by split at hi <;> cases hi
      count := fun _ => h.count running
      atStart := fun hi => by split at hi <;> cases hi
      pixels := fun hi => by
        split at hi
        next => cases hi
        next some_left =>
          change e.k.toNat < e.n.toNat
          rw [hk]
          bv_omega
      padding := fun hi => by
        split at hi
        next none_left => exact ⟨hk.trans none_left.symm, hrun⟩
        next => cases hi
      runBound := fun _ => h.runBound running
      slots := fun _ => h.slots running
      written := fun _ => length_out_accepted (h.written (.inl running)) room
      supplied := fun _ => h.supplied running }

/-- In the pixel phase the grid holds the next pixel. -/
theorem EncInv.nextChunks_eq (h : EncInv e) (hp : e.phase = .pix) :
    ∃ px, nextChunks e = some (px, chunkEnc e.prev px e.run (isLastPixel e) e.cache) := by
  have hlt := h.pixels hp
  obtain ⟨px, hpx⟩ := Option.isSome_iff_exists.mp (h.supplied (by simp [hp]) _ (Nat.le_refl _) hlt)
  exact ⟨px, by rw [nextChunks, pixIn, if_pos hlt, hpx]⟩

/-- A pixel step leads to the next pixel, or from the last one to the padding with no run pending (R125). -/
theorem EncInv.pixel (h : EncInv e) (hp : e.phase = .pix) (px : Pixel) {o : ChunkOut}
    (ho : o = chunkEnc e.prev px e.run (isLastPixel e) e.cache) {bytes : List Byte}
    (room : e.outcount.toNat + bytes.length < 2 ^ 64) : EncInv (encAdvance px o (accepted bytes e)) := by
  have running : e.phase ≠ .idle := by simp [hp]
  have hk := toNat_succ_of_lt (h.pixels hp)
  have phase_eq : (encAdvance px o (accepted bytes e)).phase = if e.k + 1 = e.n then .pad else .pix := by
    rw [← hp]
    rfl
  exact
    { gridWf := h.gridWf
      busy := fun _ => h.busy running
      rest := fun hi => by rw [phase_eq] at hi; split at hi <;> cases hi
      count := fun _ => h.count running
      atStart := fun hi => by rw [phase_eq] at hi; split at hi <;> cases hi
      pixels := fun hi => by
        rw [phase_eq] at hi
        split at hi
        next => cases hi
        next more =>
          have := h.pixels hp
          change (e.k + 1).toNat < e.n.toNat
          bv_omega
      padding := fun hi => by
        rw [phase_eq] at hi
        split at hi
        next last =>
          refine ⟨last, ?_⟩
          change o.run = 0
          rw [ho, show isLastPixel e = true from decide_eq_true last]
          exact chunkEnc_last_run e.prev px e.cache (h.runBound running)
        next => cases hi
      runBound := fun _ => ho ▸ (chunkEnc_bounds e.prev px (isLastPixel e) e.cache (h.runBound running)).2
      slots := fun _ => ho ▸ (h.slots running).chunkEnc e.prev px e.run (isLastPixel e)
      written := fun _ => length_out_accepted (h.written (.inl running)) room
      supplied := fun _ j hj hn => by
        change (e.k + 1).toNat ≤ j at hj
        exact h.supplied running j (by omega) hn }

/-- The padding step ends the pass (R126). -/
theorem EncInv.padded (h : EncInv e) (hp : e.phase = .pad) {bytes : List Byte}
    (room : e.outcount.toNat + bytes.length < 2 ^ 64) :
    EncInv { accepted bytes e with phase := .idle, status := statusDone } :=
  .of_idle rfl h.gridWf (.inr (.inl statusDone_eq))
    fun _ => length_out_accepted (h.written (.inl (by simp [hp]))) room

/-- A step that writes `bytes` finishes, aborts, or stops because the stream would be too long. -/
theorem meets_afterWrites {bytes : List Byte} {f : Encoder → Encoder} (hg : Memory.wf e.grid)
    (finish : e.outcount.toNat + bytes.length < 2 ^ 64 → EncInv (f (accepted bytes e))) :
    Meets EncInv NoFault (TooLong (e.outcount.toNat + bytes.length)) (afterWrites f (writeAll bytes e)) := by
  rcases writeAll_cases bytes e with ⟨hw, room⟩ | ⟨part, rest, -, -, -, hw⟩ | ⟨hl, hw⟩
  · rw [hw]
    exact finish room
  · rw [hw]
    exact encInv_encAbort (e := accepted part e) hg _
  · rw [hw]
    exact ⟨rfl, hl⟩

/-- Every step of the encoder keeps its invariant, or stops because its stream would be too long (R191, R123 to R126). -/
theorem EncInv.encStep_meets (h : EncInv e) :
    Meets EncInv NoFault (TooLong (e.outcount.toNat + (stepBytes e).length)) (encStep e) := by
  rw [encStep, stepBytes]
  cases hp : e.phase with
  | idle => exact h
  | hdr => exact meets_afterWrites h.gridWf (h.header hp)
  | pix =>
    obtain ⟨px, next⟩ := h.nextChunks_eq hp
    dsimp only
    rw [encPixelStep, next]
    exact meets_afterWrites h.gridWf (h.pixel hp px rfl)
  | pad => exact meets_afterWrites h.gridWf (h.padded hp)

/-! ### The host's actions -/

/-- A reset leaves the invariant, wherever in a step it strikes (R196). -/
theorem EncInv.encResetDuring_meets (h : EncInv e) (written : Nat) :
    Meets EncInv NoFault (TooLong (e.outcount.toNat + (stepBytes e).length)) (encResetDuring written e) := by
  have part_le := List.length_take_le' written (stepBytes e)
  rw [encResetDuring]
  rcases writeAll_cases ((stepBytes e).take written) e with ⟨hw, -⟩ | ⟨part, rest, -, -, -, hw⟩ | ⟨hl, hw⟩
  · rw [hw]
    exact encInv_encReset (e := accepted _ e) h.gridWf
  · rw [hw]
    exact encInv_encReset (e := encAbort .ioSink _ (accepted part e)) h.gridWf
  · rw [hw]
    exact ⟨rfl, by omega⟩

/-- E.start: refused while a pass runs, stuck over a grid of another number of pixels (R122, R200, R202). -/
theorem EncInv.encStart_meets (h : EncInv e) :
    Meets EncInv
      (fun f => f = .hostPixelCount ∧ e.phase = .idle ∧
        holdsPixels e.grid (e.cfgWidth.toNat * e.cfgHeight.toNat) = false)
      (fun r => r = .startWhileBusy ∧ e.phase ≠ .idle) (encStart e) := by
  rw [encStart]
  split
  next hp =>
    split
    next hn => exact encInv_encInit h.gridWf hn
    next hn => exact ⟨rfl, hp, by rw [← toNat_pixelCount]; exact Bool.eq_false_of_not_eq_true hn⟩
  next hp => exact ⟨rfl, hp⟩

/-- The supply of a grid: stuck where it changes an unread pixel of a running pass (R200). -/
theorem EncInv.encSupply_meets (h : EncInv e) (pixels : List (BitVec 32)) :
    Meets EncInv (fun f => f = .hostChangedInput ∧ e.phase ≠ .idle ∧ UnreadPixelChanged e pixels) (fun _ => False)
      (encSupply pixels e) := by
  have hg := gridOf_wf pixels 0
  rw [encSupply]
  split
  next hc => exact h.withGrid hg hc.resolve_left
  next hc =>
    obtain ⟨running, changed⟩ := not_or.mp hc
    rw [unreadGrid_eq_iff _ hg h.gridWf] at changed
    push Not at changed
    exact ⟨rfl, running, changed⟩

end

end Sys2Proof.Machine
end

section
/-! PROOFS. What a step of the decoder engine can do, and its invariant: every step and every host action on the engine
keeps it (R22, R23, R28, R61, R120, R169), and a step stops only where its input passes 2^64 - 1 bytes (R30). -/

namespace Sys2Proof.Machine

/-! ### What a step can do -/

/-- The three causes of an abort in the decoder (R176). -/
def DecoderCause (c : Cause) : Prop := c = .truncatedHeader ∨ c = .badMagic ∨ c = .ioSource

/-- Everything `ReadHeader` can do: a header from exactly 14 bytes, an abort, or a stream that is too long (R106). -/
theorem readHeader_cases (d : Decoder) :
    (∃ header d', readHeader d = .ok header d' ∧ ReadsOnly d d' ∧ d'.pos.toNat = d.pos.toNat + headerLen) ∨
    (∃ c d', DecoderCause c ∧ readHeader d = .aborted (decAbort c d'.pos d') ∧ ReadsOnly d d') ∨
    (2 ^ 64 ≤ d.stream.length ∧ readHeader d = .tooLong) := by
  rcases readHeaderBytes_cases headerLen d with ⟨bytes, d', h, ho, -, hpos⟩ | ⟨c, d', hc, h, ho⟩ | ⟨hl, h⟩
  · by_cases magic : field32 bytes 0 = Config.magic
    · exact .inl ⟨_, d', by rw [readHeader, h]; exact if_pos magic, ho, hpos⟩
    · exact .inr (.inl ⟨.badMagic, d', .inr (.inl rfl), by rw [readHeader, h]; exact if_neg magic, ho⟩)
  · exact .inr (.inl ⟨c, d', hc.imp_right .inr, by rw [readHeader, h], ho⟩)
  · exact .inr (.inr ⟨hl, by rw [readHeader, h]⟩)

/-- `d'` is `d` in a pixel step before its delivery, from a fetch of at most five bytes and with the repeats owed still
within R23. -/
structure PixelFetched (d d' : Decoder) : Prop where
  chosen : PixelChosen d d'
  run_le : d.run.toNat ≤ 8223 → d'.run.toNat ≤ 8223
  pos_le : d.pos.toNat ≤ d'.pos.toNat
  pos_bound : d'.pos.toNat ≤ d.pos.toNat + 5

/-- A well-formed chunk leaves at most 8223 repeats owed (R23, R156, R157). -/
theorem toNat_chunkRepeats_le {d : Decoder} {i : Instr} (hi : i.wf = true) (hr : d.run.toNat ≤ 8223) :
    (chunkRepeats d i).toNat ≤ 8223 := by
  have owed : ∀ count, count ≤ 8224 → (owedRepeats count).toNat ≤ 8223 := fun count h => by
    simp only [owedRepeats, BitVec.toNat_ofNat]
    omega
  cases i with
  | runS count =>
    simp only [Instr.wf, Bool.and_eq_true, decide_eq_true_eq] at hi
    exact owed count (by omega)
  | runL count =>
    simp only [Instr.wf, Bool.and_eq_true, decide_eq_true_eq] at hi
    exact owed count hi.2
  | _ => exact hr

/-- A fetched chunk, run: it chooses the pixel and the repeats owed (R153). -/
theorem ReadsOnly.pixelFetched {d d' : Decoder} {i : Instr} (h : ReadsOnly d d') (hi : i.wf = true)
    (h1 : d.pos.toNat ≤ d'.pos.toNat) (h2 : d'.pos.toNat ≤ d.pos.toNat + 5) :
    PixelFetched d { d' with px := chunkPixel d' i, run := chunkRepeats d' i } where
  chosen := h.pixelChosen _ _
  run_le hb := toNat_chunkRepeats_le hi (by rw [h]; exact hb)
  pos_le := h1
  pos_bound := h2

/-- Everything a pixel step can do: deliver a pixel, abort at a read, or stop at a stream that is too long (R151, R153,
R164, R165). -/
theorem decPixel_cases {d : Decoder} (hp : d.phase = .pix) :
    (∃ fromIndex d', decPixel d = deliver fromIndex d' ∧ PixelFetched d d') ∨
    (∃ d', decPixel d = .next (decAbort .ioSource d'.pos d') ∧ ReadsOnly d d') ∨
    (2 ^ 64 ≤ d.stream.length ∧ decPixel d = .refused .streamTooLong) := by
  by_cases hr : d.run = 0
  · rw [decPixel, if_neg (not_not_intro hr)]
    rcases fetch_cases d with ⟨b0, ops, d', hc, -, ho, h1, h2⟩ | ⟨he, -⟩ | ⟨d', ha, ho⟩ | ⟨hl, ht⟩
    · have hi := decodeChunk_wf b0 ops
      have ran := runChunk_of_ready hi (d := d') (by rw [ho]; exact hp) (by rw [ho]; exact hr)
      rw [hc]
      exact .inl ⟨_, _, ran, ho.pixelFetched hi h1 h2⟩
    · rw [he]
      exact .inl ⟨false, { d with ended := true }, rfl, rfl, id, Nat.le_refl _, Nat.le_add_right _ _⟩
    · rw [ha]
      exact .inr (.inl ⟨d', rfl, ho⟩)
    · rw [ht]
      exact .inr (.inr ⟨hl, rfl⟩)
  · refine .inl ⟨false, { d with run := d.run - 1 }, ?_, rfl, fun hb => ?_, Nat.le_refl _, Nat.le_add_right _ _⟩
    · rw [decPixel, if_pos hr]
    · change (d.run - 1).toNat ≤ 8223
      bv_omega

theorem deliver_next_iff (fromIndex : Bool) (d d' : Decoder) :
    deliver fromIndex d = .next d' ↔ d.k.toNat < d.n.toNat ∧ d' = afterDelivery fromIndex d := by
  rcases deliver_cases fromIndex d with ⟨hlt, h⟩ | ⟨hle, h⟩
  · rw [deliver_of_lt fromIndex hlt]
    simp [hlt, eq_comm]
  · simp [h, hle]

theorem errBit_statusErr (c : Cause) : errBit (statusErr c) = true := by
  cases c <;> decide

/-! ### States that meet the decoder's invariant -/

/-- Of an IDLE decoder the invariant asks a canonical grid, a legal STATUS word, and after a successful pass the pixels
counted and delivered. -/
theorem DecInv.of_idle {d : Decoder} (hp : d.phase = .idle) (hg : Memory.wf d.grid)
    (hs : d.status = 0x00 ∨ d.status = 0x02 ∨ d.status = 0x0C ∨ d.status = 0x14 ∨ d.status = 0x1C)
    (hdone : d.status = 0x02 → d.n = pixelCount d.width d.height ∧
      holdsPixels d.grid (if d.mode = .full then d.n.toNat else 0) = true) : DecInv d where
  gridWf := hg
  busy h := absurd hp h
  rest _ := hs
  atStart := by simp [hp]
  count h := (hdone (h.resolve_left (by simp [hp])).2).1
  pixels := by simp [hp]
  runBound h := absurd hp h
  slots h := absurd hp h
  delivered := by simp [hp]
  complete _ h := (hdone h).2

theorem decInv_decAbort {d : Decoder} (hg : Memory.wf d.grid) {c : Cause} (hc : DecoderCause c) (pos : BitVec 64) :
    DecInv (decAbort c pos d) := by
  refine .of_idle rfl hg ?_ ?_
  all_goals
    rw [decAbort_status]
    rcases hc with rfl | rfl | rfl <;> simp

theorem decInv_decReset {d : Decoder} (hg : Memory.wf d.grid) : DecInv (decReset d) :=
  .of_idle rfl hg (.inl rfl) (by simp [Decoder.reset])

theorem decInv_decInit (d : Decoder) : DecInv (decInit d) where
  gridWf := List.Pairwise.nil
  busy _ := statusBusy_eq
  rest := nofun
  atStart _ := ⟨rfl, rfl, rfl, rfl, rfl, rfl⟩
  count := by simp
  pixels := nofun
  runBound _ := by simp
  slots _ := cacheOk_cacheInit
  delivered := nofun
  complete := nofun

section
variable {d : Decoder}

/-- The invariant does not speak of what the host drives and supplies. -/
theorem DecInv.withHost (h : DecInv d) (cfgMode : BitVec 1) (srcFail : Option Nat) (stream : List Byte) :
    DecInv { d with cfgMode := cfgMode, srcFail := srcFail, stream := stream } :=
  ⟨h.gridWf, h.busy, h.rest, h.atStart, h.count, h.pixels, h.runBound, h.slots, h.delivered, h.complete⟩

/-! ### The engine's steps -/

/-- An accepted header completes the pass or leads to its pixels (R150). -/
theorem DecInv.acceptHeader (h : DecInv d) (hp : d.phase = .hdr) (header : Header) (pos : BitVec 64) (ended : Bool) :
    DecInv (decAcceptHeader header { d with pos := pos, ended := ended }) := by
  have running : d.phase ≠ .idle := by simp [hp]
  obtain ⟨hk, -, -, -, hcache, hgrid⟩ := h.atStart hp
  rw [decAcceptHeader]
  dsimp only
  split
  next hdone =>
    refine .of_idle rfl h.gridWf (.inr (.inl statusDone_eq)) fun _ => ⟨rfl, ?_⟩
    have none_due : (if d.mode = .full then (pixelCount header.width header.height).toNat else 0) = 0 := by
      rcases hdone with hm | hn
      · simp [hm]
      · simp [hn]
    dsimp only
    rw [none_due, hgrid]
    rfl
  next hmore =>
    obtain ⟨hm, hn⟩ := not_or.mp hmore
    exact
      { gridWf := h.gridWf
        busy := fun _ => h.busy running
        rest := nofun
        atStart := nofun
        count := fun _ => rfl
        pixels := fun _ => by
          refine ⟨?_, ?_⟩
          · change d.mode = .full
            cases hmode : d.mode with
            | full => rfl
            | headerOnly => exact absurd hmode hm
          · change d.k.toNat < (pixelCount header.width header.height).toNat
            rw [hk]
            bv_omega
        runBound := fun _ => h.runBound running
        slots := fun _ => h.slots running
        delivered := fun _ => by
          change holdsPixels d.grid d.k.toNat = true
          rw [hgrid, hk]
          rfl
        complete := nofun }

/-- The fetch and the chunk keep the invariant up to the delivery. -/
theorem DecInv.fetched (h : DecInv d) (hp : d.phase = .pix) {d' : Decoder} (hf : PixelFetched d d') :
    DecInv d' ∧ d'.phase = .pix := by
  have hrun := hf.run_le (h.runBound (by simp [hp]))
  rw [hf.chosen]
  exact ⟨⟨h.gridWf, h.busy, h.rest, by simp [hp], h.count, h.pixels, fun _ => hrun, h.slots, h.delivered, h.complete⟩, hp⟩

/-- A delivery adds one pixel to the grid; the last one ends the pass (R151, R152). -/
theorem DecInv.afterDelivery (h : DecInv d) (hp : d.phase = .pix) (fromIndex : Bool) :
    DecInv (afterDelivery fromIndex d) := by
  have running : d.phase ≠ .idle := by simp [hp]
  obtain ⟨hm, hlt⟩ := h.pixels hp
  have hk := toNat_succ_of_lt hlt
  have hg := writePixel_wf d.k.toNat d.px h.gridWf
  have holds : holdsPixels (writePixel d.grid d.k.toNat d.px) (d.k + 1).toNat = true :=
    hk ▸ holdsPixels_writePixel d.px (h.delivered hp)
  have slots : CacheOk (if fromIndex then d.cache else cacheStore d.cache (pixelHash d.px) d.px) := by
    split
    · exact h.slots running
    · exact (h.slots running).store d.px
  rw [Machine.afterDelivery, completeIfDone]
  dsimp only
  split
  next last =>
    refine .of_idle rfl hg (.inr (.inl statusDone_eq)) fun _ => ⟨h.count (.inl hp), ?_⟩
    dsimp only
    rw [if_pos hm, ← last]
    exact holds
  next more =>
    exact
      { gridWf := hg
        busy := fun _ => h.busy running
        rest := fun hi => absurd hi running
        atStart := by simp [hp]
        count := fun _ => h.count (.inl hp)
        pixels := fun _ => ⟨hm, by
          change (d.k + 1).toNat < d.n.toNat
          bv_omega⟩
        runBound := fun _ => h.runBound running
        slots := fun _ => slots
        delivered := fun _ => holds
        complete := fun hi => absurd hi running }

/-- Every step of the decoder keeps its invariant, or stops because its stream is too long (R150, R151, R191). -/
theorem DecInv.decStep_meets (h : DecInv d) :
    Meets DecInv NoFault (fun r => d.phase ≠ .idle ∧ TooLong d.stream.length r) (decStep d) := by
  rw [decStep]
  cases hp : d.phase with
  | idle => exact h
  | hdr =>
    dsimp only
    rw [decHeaderStep]
    rcases readHeader_cases d with ⟨header, d', hr, ho, -⟩ | ⟨c, d', hc, hr, ho⟩ | ⟨hl, hr⟩
    · rw [hr, ho]
      exact h.acceptHeader hp header _ _
    · rw [hr, ho]
      exact decInv_decAbort (d := { d with pos := d'.pos, ended := d'.ended }) h.gridWf hc _
    · rw [hr]
      exact ⟨nofun, rfl, hl⟩
  | pix =>
    dsimp only
    rcases decPixel_cases hp with ⟨fromIndex, d', hs, hf⟩ | ⟨d', hs, ho⟩ | ⟨hl, hs⟩
    · obtain ⟨hinv, hp'⟩ := h.fetched hp hf
      rw [hs, deliver_of_lt fromIndex (hinv.pixels hp').2]
      exact hinv.afterDelivery hp' fromIndex
    · rw [hs, ho]
      exact decInv_decAbort (d := { d with pos := d'.pos, ended := d'.ended }) h.gridWf (.inr (.inr rfl)) _
    · rw [hs]
      exact ⟨nofun, rfl, hl⟩

/-! ### The host's actions -/

/-- D.start: refused while a pass runs (R148, R202). -/
theorem decStart_meets (d : Decoder) :
    Meets DecInv NoFault (fun r => r = .startWhileBusy ∧ d.phase ≠ .idle) (decStart d) := by
  rw [decStart]
  split
  next => exact decInv_decInit d
  next hp => exact ⟨rfl, hp⟩

/-- The supply of a stream: stuck where it changes an unread byte of a running pass (R200). -/
theorem DecInv.decSupply_meets (h : DecInv d) (bytes : List Byte) :
    Meets DecInv
      (fun f => f = .hostChangedInput ∧ d.phase ≠ .idle ∧ bytes.drop d.pos.toNat ≠ d.stream.drop d.pos.toNat)
      (fun _ => False) (decSupply bytes d) := by
  rw [decSupply]
  split
  next => exact h.withHost d.cfgMode d.srcFail bytes
  next hc => exact ⟨rfl, not_or.mp hc⟩

end

end Sys2Proof.Machine
end

section
/-! PROOFS. The invariant of the whole machine: every step keeps it, or stops for a named cause (R30, R200, R202). -/

namespace Sys2Proof.Machine

/-! ### The causes of the stops -/

/-- The host breaks a duty of R200: another number of pixels than `N` at E.start, or a change of unread input. -/
def FaultCause (s : State) (f : Fault) : Prop :=
  (f = .hostPixelCount ∧ (∃ rest, s.script = .startEncoder :: rest) ∧ s.enc.phase = .idle ∧
    holdsPixels s.enc.grid (s.enc.cfgWidth.toNat * s.enc.cfgHeight.toNat) = false) ∨
  (f = .hostChangedInput ∧
    ((∃ pixels rest, s.script = .supplyGrid pixels :: rest ∧ s.enc.phase ≠ .idle ∧ UnreadPixelChanged s.enc pixels) ∨
      ∃ bytes rest, s.script = .supplyStream bytes :: rest ∧ s.dec.phase ≠ .idle ∧
        bytes.drop s.dec.pos.toNat ≠ s.dec.stream.drop s.dec.pos.toNat))

/-- A start while a pass runs (R202), or a stream of more than 2^64 - 1 bytes (R30). -/
def RefusalCause (s : State) (r : Refusal) : Prop :=
  (r = .startWhileBusy ∧
    ((∃ rest, s.script = .startEncoder :: rest ∧ s.enc.phase ≠ .idle) ∨
      ∃ rest, s.script = .startDecoder :: rest ∧ s.dec.phase ≠ .idle)) ∨
  (r = .streamTooLong ∧
    ((s.dec.phase ≠ .idle ∧ 2 ^ 64 ≤ s.dec.stream.length) ∨
      2 ^ 64 ≤ s.enc.outcount.toNat + (stepBytes s.enc).length))

/-- The step of `s` keeps the invariant, or stops for a cause. -/
abbrev Sound (s : State) : Host.Outcome State Fault Refusal → Prop := Meets Inv (FaultCause s) (RefusalCause s)

/-! ### An engine's outcome inside the machine -/

section
variable {s t : State} {fault : Fault → Prop} {refused : Refusal → Prop}

theorem Meets.onEncoder {o : Host.Outcome Encoder Fault Refusal} (h : Meets EncInv fault refused o)
    (hd : DecInv t.dec) (hf : ∀ f, fault f → FaultCause s f) (hr : ∀ r, refused r → RefusalCause s r) :
    Sound s (onEncoder t o) := by
  cases o with
  | next e => exact ⟨h, hd⟩
  | fault f => exact hf f h
  | refused r => exact hr r h

theorem Meets.onDecoder {o : Host.Outcome Decoder Fault Refusal} (h : Meets DecInv fault refused o)
    (he : EncInv t.enc) (hf : ∀ f, fault f → FaultCause s f) (hr : ∀ r, refused r → RefusalCause s r) :
    Sound s (onDecoder t o) := by
  cases o with
  | next d => exact ⟨he, h⟩
  | fault f => exact hf f h
  | refused r => exact hr r h

end

theorem refusalCause_of_output {s : State} {r : Refusal}
    (h : TooLong (s.enc.outcount.toNat + (stepBytes s.enc).length) r) : RefusalCause s r :=
  .inr ⟨h.1, .inr h.2⟩

theorem refusalCause_of_input {s : State} {r : Refusal} (h : s.dec.phase ≠ .idle ∧ TooLong s.dec.stream.length r) :
    RefusalCause s r :=
  .inr ⟨h.2.1, .inl ⟨h.1, h.2.2⟩⟩

/-! ### Every step -/

/-- A step of the encoder, whatever is left of the script. -/
theorem Inv.encoderStep_sound {s : State} (h : Inv s) (rest : List HostAction) :
    Sound s (encoderStep { s with script := rest }) :=
  h.enc.encStep_meets.onEncoder h.dec nofun fun _ => refusalCause_of_output

/-- A step of the decoder, whatever is left of the script. -/
theorem Inv.decoderStep_sound {s : State} (h : Inv s) (rest : List HostAction) :
    Sound s (decoderStep { s with script := rest }) := by
  rw [decoderStep_eq_onDecoder]
  exact h.dec.decStep_meets.onDecoder h.enc nofun fun _ => refusalCause_of_input

theorem Inv.hostAction_sound {s : State} (h : Inv s) {a : HostAction} {rest : List HostAction}
    (hs : s.script = a :: rest) : Sound s (hostAction a { s with script := rest }) := by
  cases a with
  | reset written =>
    exact (h.enc.encResetDuring_meets written).onEncoder (decInv_decReset h.dec.gridWf) nofun
      fun _ => refusalCause_of_output
  | setWidth w => exact ⟨h.enc.withPorts w s.enc.cfgHeight s.enc.sinkFail, h.dec⟩
  | setHeight height => exact ⟨h.enc.withPorts s.enc.cfgWidth height s.enc.sinkFail, h.dec⟩
  | setMode m => exact ⟨h.enc, h.dec.withHost m s.dec.srcFail s.dec.stream⟩
  | supplyGrid pixels =>
    exact (h.enc.encSupply_meets pixels).onEncoder h.dec
      (fun _ ⟨hf, running, changed⟩ => .inr ⟨hf, .inl ⟨pixels, rest, hs, running, changed⟩⟩) nofun
  | supplyStream bytes =>
    exact (h.dec.decSupply_meets bytes).onDecoder h.enc
      (fun _ ⟨hf, running, changed⟩ => .inr ⟨hf, .inr ⟨bytes, rest, hs, running, changed⟩⟩) nofun
  | sinkFails after => exact ⟨h.enc.withPorts s.enc.cfgWidth s.enc.cfgHeight after, h.dec⟩
  | sourceFails after => exact ⟨h.enc, h.dec.withHost s.dec.cfgMode after s.dec.stream⟩
  | startEncoder =>
    exact h.enc.encStart_meets.onEncoder h.dec
      (fun _ ⟨hf, idle, other⟩ => .inl ⟨hf, ⟨rest, hs⟩, idle, other⟩)
      fun _ ⟨hr, running⟩ => .inl ⟨hr, .inl ⟨rest, hs, running⟩⟩
  | startDecoder =>
    exact (decStart_meets s.dec).onDecoder h.enc nofun
      fun _ ⟨hr, running⟩ => .inl ⟨hr, .inr ⟨rest, hs, running⟩⟩
  | turn engine =>
    cases engine with
    | encoder => exact h.encoderStep_sound rest
    | decoder => exact h.decoderStep_sound rest

theorem Inv.step_sound {s : State} (h : Inv s) : Sound s (step s) := by
  cases hs : s.script with
  | nil =>
    rw [step_of_script_nil hs]
    split
    · exact h.decoderStep_sound s.script
    · exact h.encoderStep_sound s.script
  | cons a rest =>
    rw [step_of_script_cons hs]
    exact h.hostAction_sound hs

/-- Settles O52: of a sound step, the next state. -/
theorem stepKeepsInv : Obligations.StepKeepsInv := by
  intro s t h ht
  have sound := h.step_sound
  rw [ht] at sound
  exact sound

/-- Settles O53: of a sound step, the two kinds of stops. -/
theorem stopsHaveNamedCauses : Obligations.StopsHaveNamedCauses := by
  intro s h
  have sound := h.step_sound
  refine ⟨fun f hf => ?_, fun r hr => ?_⟩
  · rw [hf] at sound
    exact sound
  · rw [hr] at sound
    exact sound

/-- Settles O51: a reset leaves each engine's invariant, and State.reset is the reset of itself. -/
theorem invAtReset : Obligations.InvAtReset :=
  ⟨encInv_encReset (e := Encoder.reset) List.Pairwise.nil, decInv_decReset (d := Decoder.reset) List.Pairwise.nil⟩

/-- Settles O47: the encoder moves, and waits in IDLE. -/
theorem resetState : Obligations.ResetState :=
  ⟨rfl, rfl, rfl, rfl, rfl⟩

end Sys2Proof.Machine
end

section
/-! PROOFS. What a step of the decoder changes: its stream position (R30), the frame of a chunk (R31, R151, R163), and
the words on D.pix_out (R61, R64). -/

namespace Sys2Proof.Machine

/-! ### The stream position -/

/-- Settles O29: a header takes 14 bytes, a pixel step at most 5, and every other step is an abort. -/
theorem positionAdvances : Obligations.PositionAdvances := by
  intro s t hs hp ht
  rw [step_of_script_nil hs, if_pos hp, decoderStep_eq_onDecoder] at ht
  obtain ⟨d, hd, rfl⟩ := (onDecoder_next_iff s t _).mp ht
  cases hphase : s.dec.phase with
  | idle => exact absurd hphase hp
  | hdr =>
    rw [decStep_of_hdr hphase, decHeaderStep] at hd
    rcases readHeader_cases s.dec with ⟨header, d', hr, -, hpos⟩ | ⟨c, d', -, hr, -⟩ | ⟨-, hr⟩
    · rw [hr] at hd
      cases hd
      dsimp only
      rw [decAcceptHeader_pos, hpos]
      exact .inr ⟨Nat.le_add_right _ _, Nat.le_refl _⟩
    · rw [hr] at hd
      cases hd
      exact .inl (errBit_statusErr c)
    · rw [hr] at hd
      cases hd
  | pix =>
    rw [decStep_of_pix hphase] at hd
    rcases decPixel_cases hphase with ⟨fromIndex, d', hr, hf⟩ | ⟨d', hr, -⟩ | ⟨-, hr⟩
    · obtain ⟨-, rfl⟩ := (deliver_next_iff fromIndex d' d).mp (hr ▸ hd)
      have := hf.pos_le
      have := hf.pos_bound
      dsimp only
      rw [afterDelivery_pos]
      exact .inr ⟨by omega, by omega⟩
    · rw [hr] at hd
      cases hd
      exact .inl (errBit_statusErr .ioSource)
    · rw [hr] at hd
      cases hd

/-! ### The frame of a chunk -/

theorem decKept_afterDelivery (fromIndex : Bool) (d : Decoder) (px : Pixel) (run : BitVec 14) :
    DecKept d (afterDelivery fromIndex { d with px := px, run := run }) :=
  ⟨completeIfDone_mode _, completeIfDone_width _, completeIfDone_height _, completeIfDone_n _, completeIfDone_errPos _,
    completeIfDone_cfgMode _, completeIfDone_stream _, completeIfDone_srcFail _, completeIfDone_draws _⟩

/-- STATUS and the phase change at the last pixel only (R152). -/
theorem afterDelivery_of_more {d : Decoder} (fromIndex : Bool) (h : d.k + 1 ≠ d.n) :
    (afterDelivery fromIndex d).status = d.status ∧ (afterDelivery fromIndex d).phase = d.phase := by
  rw [afterDelivery, completeIfDone_status, completeIfDone_phase, if_neg h, if_neg h]
  exact ⟨rfl, rfl⟩

/-- A delivery writes at most the slot of the delivered pixel (R163). -/
theorem cacheLookup_afterDelivery {d : Decoder} {fromIndex : Bool} {j : Fin 64}
    (h : fromIndex = true ∨ j ≠ pixelHash d.px) :
    cacheLookup (afterDelivery fromIndex d).cache j = cacheLookup d.cache j := by
  rw [afterDelivery_cache]
  rcases h with rfl | hj
  · rfl
  · split
    · rfl
    · rw [cacheLookup_cacheStore, if_neg hj]

/-- A chunk that gives a next state delivers the chunk's pixel. -/
theorem exec_next {i : Instr} {s t : State} (h : exec i s = .next t) :
    t = { s with dec :=
      afterDelivery (skipsStore i) { s.dec with px := chunkPixel s.dec i, run := chunkRepeats s.dec i } } := by
  rcases chunkStep_cases i (skipsStore i) (chunkPixel s.dec i) (chunkRepeats s.dec i) s with
    ⟨-, -, -, hc⟩ | ⟨-, -, hc⟩ | ⟨-, hc⟩
  · rw [exec_eq_chunkStep, hc] at h
    obtain ⟨d, hd, rfl⟩ := (onDecoder_next_iff s t _).mp h
    rw [((deliver_next_iff _ _ _).mp hd).2]
  · rw [exec_eq_chunkStep, hc] at h
    cases h
  · rw [exec_eq_chunkStep, hc] at h
    cases h

/-- Settles O17: the frame of the delivery that a chunk is. -/
theorem chunkFrame : Obligations.ChunkFrame := by
  intro i s t h
  rw [exec_next h]
  refine ⟨rfl, rfl, decKept_afterDelivery _ _ _ _, afterDelivery_pos _ _, afterDelivery_ended _ _, ?_, ?_,
    fun more => ?_, fun a ha => ?_, fun j hj => cacheLookup_afterDelivery ?_⟩
  · rintro ⟨count, rfl | rfl⟩
    · exact afterDelivery_px _ _
    · exact afterDelivery_px _ _
  · intro noRun
    dsimp only
    rw [afterDelivery_run]
    cases i with
    | runS count => exact absurd rfl (noRun count).1
    | runL count => exact absurd rfl (noRun count).2
    | _ => rfl
  · exact afterDelivery_of_more _ more
  · dsimp only
    rw [afterDelivery_grid]
    exact memRead_writePixel_other _ _ ha
  · refine hj.imp (fun ⟨slot, hi⟩ => by rw [hi]; rfl) fun other => ?_
    rwa [afterDelivery_px] at other

/-! ### The words on D.pix_out -/

/-- A delivery sets no error flag. -/
theorem errBit_afterDelivery {fromIndex : Bool} {d : Decoder} (h : errBit d.status = false) :
    errBit (afterDelivery fromIndex d).status = false := by
  rw [afterDelivery, completeIfDone_status]
  by_cases last : d.k + 1 = d.n
  · rw [if_pos last]
    decide
  · rw [if_neg last]
    exact h

/-- A delivery puts the current pixel's word behind those of the pixels delivered before it (R61, R64). -/
theorem gridWords_writePixel {m : Memory} {k : Nat} (p : Pixel) (h : holdsPixels m k = true) :
    gridWords (writePixel m k p) ((writePixel m k p).length / 4) = gridWords m (m.length / 4) ++ [pixelWord p] := by
  have before := ((holdsPixels_iff _ _).mp h).1
  have after := ((holdsPixels_iff _ _).mp (holdsPixels_writePixel p h)).1
  have others : gridWords (writePixel m k p) k = gridWords m k :=
    gridWords_congr fun j hj => readPixel_writePixel_other m p (Nat.ne_of_lt hj)
  rw [before, after, Nat.mul_div_cancel_left _ (by decide), Nat.mul_div_cancel_left _ (by decide),
    gridWords_succ (readPixel_writePixel_same m k p), others]

/-- Settles O58: a step of the pixel phase delivers the current pixel or aborts. -/
theorem outputWords : Obligations.OutputWords := by
  intro s t h hp ht
  rw [decoderStep_eq_onDecoder, decStep_of_pix hp] at ht
  obtain ⟨d, hd, rfl⟩ := (onDecoder_next_iff s t _).mp ht
  rcases decPixel_cases hp with ⟨fromIndex, d', hr, hf⟩ | ⟨d', hr, ho⟩ | ⟨-, hr⟩
  · obtain ⟨-, rfl⟩ := (deliver_next_iff fromIndex d' d).mp (hr ▸ hd)
    obtain ⟨hinv, hp'⟩ := h.fetched hp hf
    have grid_eq : d'.grid = s.dec.grid := by rw [hf.chosen]
    refine .inr ⟨?_, pixelWord d'.px, ?_, ?_⟩
    · apply errBit_afterDelivery
      rw [hinv.busy (by simp [hp'])]
      decide
    · simp only [pixOut, afterDelivery_grid, ← grid_eq]
      exact gridWords_writePixel d'.px (hinv.delivered hp')
    · dsimp only
      rw [toNat_pixelWord, afterDelivery_px]
  · rw [hr, ho] at hd
    cases hd
    exact .inl ⟨errBit_statusErr .ioSource, rfl⟩
  · rw [hr] at hd
    cases hd

end Sys2Proof.Machine
end

section
/-! PROOFS. The grids and streams between host and engines: the port words of a grid (R60, R61, R64), what the host may
change during a pass (R73, R200), and outputs that only grow (R71). -/

namespace Sys2Proof.Machine

/-! ### The port words of a grid (R64) -/

/-- The channels of a port word in arithmetic: r in bits 31:24 down to a in bits 7:0. -/
theorem pixelOfWord_eq_ofNat (w : BitVec 32) :
    pixelOfWord w = ⟨BitVec.ofNat 8 (w.toNat / 2 ^ 24), BitVec.ofNat 8 (w.toNat / 2 ^ 16),
      BitVec.ofNat 8 (w.toNat / 2 ^ 8), BitVec.ofNat 8 w.toNat⟩ := by
  simp only [pixelOfWord, BitVec.extractLsb', Nat.shiftRight_eq_div_pow, pow_zero, Nat.div_one]

/-- Pixel number `j` of the grid the host supplies is the `j`-th word's (R60, R64). -/
theorem readPixel_gridOf_zero (words : List (BitVec 32)) (j : Nat) :
    readPixel (gridOf 0 words) j = (words[j]?).map pixelOfWord := by
  simpa using readPixel_gridOf words 0 j

/-- Settles O34: pixel number `j` is the `j`-th word's, and the word's channels are its four bytes. -/
theorem inputGridLayout : Obligations.InputGridLayout := by
  intro words j
  simp only [readPixel_gridOf_zero, ← pixelOfWord_eq_ofNat]

/-- Settles O57, by induction on the list from its end: the last word is the last pixel's, and the pixels before it are
those of the words before it. -/
theorem outputGridWords : Obligations.OutputGridWords := by
  intro words
  induction words using List.reverseRecOn with
  | nil => rfl
  | append_singleton ws w ih =>
    have last : readPixel (gridOf 0 (ws ++ [w])) ws.length = some (pixelOfWord w) := by
      simp [readPixel_gridOf_zero]
    have before : gridWords (gridOf 0 (ws ++ [w])) ws.length = gridWords (gridOf 0 ws) ws.length :=
      gridWords_congr fun j hj => by
        rw [readPixel_gridOf_zero, readPixel_gridOf_zero, List.getElem?_append_left hj]
    rw [List.length_append, List.length_singleton, gridWords_succ last, before, ih, pixelWord_pixelOfWord]

/-! ### What the host may change during a pass (R73, R200) -/

theorem decSupply_of_running (bytes : List Byte) {d : Decoder} (h : d.phase ≠ .idle) :
    decSupply bytes d =
      if bytes.drop d.pos.toNat = d.stream.drop d.pos.toNat then .next { d with stream := bytes }
      else .fault .hostChangedInput := by
  simp [decSupply, h]

theorem encSupply_of_running (pixels : List (BitVec 32)) {e : Encoder} (h : e.phase ≠ .idle) :
    encSupply pixels e =
      if unreadGrid (gridOf 0 pixels) e.k.toNat = unreadGrid e.grid e.k.toNat then
        .next { e with grid := gridOf 0 pixels }
      else .fault .hostChangedInput := by
  simp [encSupply, h]

/-- The unread parts of the supplied grid and of the encoder's are equal where no unread pixel is changed. -/
theorem unreadGrid_eq_iff_not_changed (pixels : List (BitVec 32)) {e : Encoder} (hg : Memory.wf e.grid) :
    unreadGrid (gridOf 0 pixels) e.k.toNat = unreadGrid e.grid e.k.toNat ↔ ¬UnreadPixelChanged e pixels := by
  rw [unreadGrid_eq_iff _ (gridOf_wf pixels 0) hg]
  simp [UnreadPixelChanged]

theorem step_supplyStream {s : State} {bytes : List Byte} {rest : List HostAction}
    (hs : s.script = .supplyStream bytes :: rest) :
    step s = onDecoder { s with script := rest } (decSupply bytes s.dec) :=
  step_of_script_cons hs

theorem step_supplyGrid {s : State} {pixels : List (BitVec 32)} {rest : List HostAction}
    (hs : s.script = .supplyGrid pixels :: rest) :
    step s = onEncoder { s with script := rest } (encSupply pixels s.enc) :=
  step_of_script_cons hs

/-- Settles O50: during a pass a supply is taken exactly where the unread part is the old one. -/
theorem unreadInputIsFixed : Obligations.UnreadInputIsFixed := by
  intro s rest bytes pixels
  refine ⟨fun hs running => ?_, fun hs running hg => ?_⟩
  · rw [step_supplyStream hs, decSupply_of_running bytes running]
    refine ⟨fun changed => ?_, fun same => ?_⟩
    · rw [if_neg changed, onDecoder_fault]
    · rw [if_pos same, onDecoder_next]
  · rw [step_supplyGrid hs, encSupply_of_running pixels running]
    have same_iff := unreadGrid_eq_iff_not_changed pixels hg
    refine ⟨fun changed => ?_, fun kept => ?_⟩
    · rw [if_neg (mt same_iff.mp (not_not_intro changed)), onEncoder_fault]
    · rw [if_pos (same_iff.mpr kept), onEncoder_next]

/-! ### Outputs only grow (R71) -/

/-- A step that writes appends the bytes accepted, all of them or those before an abort (R124, R179). -/
theorem out_afterWrites {f : Encoder → Encoder} {bytes : List Byte} {e e' : Encoder}
    (h : afterWrites f (writeAll bytes e) = .next e') (hf : ∀ e, (f e).out = e.out) :
    ∃ added, e'.out = e.out ++ added := by
  rcases writeAll_cases bytes e with ⟨hw, -⟩ | ⟨part, -, -, -, -, hw⟩ | ⟨-, hw⟩
  · rw [hw] at h
    cases h
    exact ⟨bytes, hf _⟩
  · rw [hw] at h
    cases h
    exact ⟨part, encAbort_out _ _ _⟩
  · rw [hw] at h
    cases h

/-- No step of the encoder takes back an output byte. -/
theorem out_encStep {e e' : Encoder} (h : encStep e = .next e') : ∃ added, e'.out = e.out ++ added := by
  cases hp : e.phase with
  | idle =>
    simp only [encStep, hp] at h
    cases h
    exact ⟨[], (List.append_nil _).symm⟩
  | hdr =>
    simp only [encStep, hp, encHeaderStep] at h
    exact out_afterWrites h fun _ => rfl
  | pix =>
    simp only [encStep, hp, encPixelStep] at h
    cases next : nextChunks e with
    | none =>
      rw [next] at h
      cases h
    | some chosen =>
      rw [next] at h
      exact out_afterWrites h (encAdvance_out _ _)
  | pad =>
    simp only [encStep, hp, encPaddingStep] at h
    exact out_afterWrites h fun _ => rfl

/-- A step of the decoder writes at most one pixel of the output grid, number D.k (R61). -/
theorem grid_decStep {d d' : Decoder} (h : decStep d = .next d') :
    d'.grid = d.grid ∨ ∃ px, d'.grid = writePixel d.grid d.k.toNat px := by
  cases hp : d.phase with
  | idle =>
    rw [decStep, hp] at h
    cases h
    exact .inl rfl
  | hdr =>
    rw [decStep_of_hdr hp, decHeaderStep] at h
    rcases readHeader_cases d with ⟨header, d₁, hr, ho, -⟩ | ⟨c, d₁, -, hr, ho⟩ | ⟨-, hr⟩
    · rw [hr] at h
      cases h
      rw [decAcceptHeader_grid, ho]
      exact .inl rfl
    · rw [hr] at h
      cases h
      rw [decAbort_grid, ho]
      exact .inl rfl
    · rw [hr] at h
      cases h
  | pix =>
    rw [decStep_of_pix hp] at h
    rcases decPixel_cases hp with ⟨fromIndex, d₁, hr, hf⟩ | ⟨d₁, hr, ho⟩ | ⟨-, hr⟩
    · obtain ⟨-, rfl⟩ := (deliver_next_iff fromIndex d₁ d').mp (hr ▸ h)
      rw [afterDelivery_grid, hf.chosen]
      exact .inr ⟨d₁.px, rfl⟩
    · rw [hr] at h
      cases h
      rw [decAbort_grid, ho]
      exact .inl rfl
    · rw [hr] at h
      cases h

/-- Settles O42: the encoder appends to its stream, and the decoder writes no pixel but number D.k. -/
theorem outputsAreFinal : Obligations.OutputsAreFinal := by
  intro engine s t h
  cases engine with
  | encoder =>
    obtain ⟨e, he, rfl⟩ := (onEncoder_next_iff s t _).mp h
    exact ⟨out_encStep he, fun _ _ => rfl⟩
  | decoder =>
    obtain ⟨d, hd, rfl⟩ := (onDecoder_next_iff s t _).mp ((decoderStep_eq_onDecoder s).symm.trans h)
    refine ⟨⟨[], (List.append_nil _).symm⟩, fun j hj => ?_⟩
    dsimp only
    rcases grid_decStep hd with kept | ⟨px, written⟩
    · rw [kept]
    · rw [written, readPixel_writePixel_other _ px (Nat.ne_of_lt hj)]

end Sys2Proof.Machine
end

section
/-! PROOFS. The kind and the length of a chunk (R90, R91, R94), and the round trip between chunks and bytes in both
directions (R92, R99). -/

namespace Sys2Proof.Machine

/-! ### The kinds and the length (R90, R91, R94) -/

/-- Settles O3, by evaluation at each of the 256 bytes. -/
theorem tagBytePartition : Obligations.TagBytePartition := by
  unfold Obligations.TagBytePartition
  decide

theorem tagLength_eq (b0 : Byte) : tagLength b0 = 1 + operandCount b0 := by
  decide +revert

theorem decode_of_enough {b0 : Byte} {rest : List Byte} (h : operandCount b0 ≤ rest.length) :
    decode (b0 :: rest) = .ok (decodeChunk b0 (rest.take (operandCount b0)), rest.drop (operandCount b0)) := by
  rw [decode, if_neg (Nat.not_lt.mpr h)]

theorem decode_of_missing {b0 : Byte} {rest : List Byte} (h : rest.length < operandCount b0) :
    decode (b0 :: rest) = .error .missingOperand := by
  rw [decode, if_pos h]

/-- Settles O4: the tag byte asks for `tagLength b0 - 1` operand bytes. -/
theorem chunkLengthFromTag : Obligations.ChunkLengthFromTag := by
  intro b0 rest
  rw [tagLength_eq, List.length_cons, Nat.add_comm 1, List.drop_succ_cons]
  exact ⟨fun enough => ⟨_, decode_of_enough (Nat.le_of_succ_le_succ enough)⟩,
    fun missing => decode_of_missing (Nat.lt_of_succ_lt_succ missing)⟩

/-- A list of bytes decodes exactly where it is a tag byte, as many operand bytes as that asks for, and the rest. -/
theorem decode_eq_ok_iff {bytes rest : List Byte} {i : Instr} :
    decode bytes = .ok (i, rest) ↔
      ∃ b0 ops, bytes = b0 :: (ops ++ rest) ∧ ops.length = operandCount b0 ∧ i = decodeChunk b0 ops := by
  constructor
  · intro h
    cases bytes with
    | nil => cases h
    | cons b0 tail =>
      rcases Nat.lt_or_ge tail.length (operandCount b0) with missing | enough
      · rw [decode_of_missing missing] at h
        cases h
      · rw [decode_of_enough enough] at h
        cases h
        exact ⟨b0, tail.take (operandCount b0), by rw [List.take_append_drop], List.length_take_of_le enough, rfl⟩
  · rintro ⟨b0, ops, rfl, hlen, rfl⟩
    rw [decode_of_enough (by simp [← hlen]), ← hlen, List.take_left, List.drop_left]

/-- Settles O1: the encoding is a tag byte with its operand bytes, and these read back to the chunk. -/
theorem decodeOfEncode : Obligations.DecodeOfEncode := by
  intro i rest hwf
  obtain ⟨b0, ops, he, hlen⟩ := encode_lengthStatement i
  exact decode_eq_ok_iff.mpr ⟨b0, ops, by rw [he, List.cons_append], hlen, (decodeChunk_of_encode hwf he).symm⟩

/-! ### The bytes of a decoded chunk are its encoding (R99) -/

@[simp] theorem rebias_unbias {w : Nat} (bias : Int) (field : BitVec w) :
    rebias w bias (unbias bias field) = field := by
  rw [rebias, unbias, Int.sub_add_cancel, BitVec.ofInt_natCast, BitVec.ofNat_toNat, BitVec.setWidth_eq]

/-- RUN_L written again (R84). -/
theorem encode_runL_fields (high : BitVec 5) (b1 : Byte) :
    encode (.runL ((high ++ b1).toNat + 33)) = [0b011#3 ++ high, b1] := by
  have field : BitVec.ofNat 13 ((high ++ b1).toNat + 33 - 33) = high ++ b1 := by
    rw [Nat.add_sub_cancel, BitVec.ofNat_toNat, BitVec.setWidth_eq]
  rw [encode, field, BitVec.extractLsb'_append_eq_left, BitVec.extractLsb'_append_eq_right]

/-- DIFF3 written again, from the 24 bits of its three bytes (R87). -/
theorem encode_diff3_fields (w : BitVec 24) :
    encode (.diff3 (unbias 16 (w.extractLsb' 15 5)) (unbias 16 (w.extractLsb' 10 5)) (unbias 16 (w.extractLsb' 5 5))
      (unbias 16 (w.extractLsb' 0 5))) = [0b1110#4 ++ w.extractLsb' 16 4, w.extractLsb' 8 8, w.extractLsb' 0 8] := by
  have fields : w.extractLsb' 15 5 ++ w.extractLsb' 10 5 ++ w.extractLsb' 5 5 ++ w.extractLsb' 0 5 =
      w.extractLsb' 0 20 := by
    rw [BitVec.extractLsb'_append_extractLsb'_eq_extractLsb' (start₂ := 15) (start₁ := 10) (len₁ := 5) rfl,
      BitVec.extractLsb'_append_extractLsb'_eq_extractLsb' (start₂ := 10) (start₁ := 5) (len₁ := 5) rfl,
      BitVec.extractLsb'_append_extractLsb'_eq_extractLsb' (start₂ := 5) (start₁ := 0) (len₁ := 5) rfl]
  simp only [encode, rebias_unbias, fields]
  rw [BitVec.extractLsb'_extractLsb'_of_le (by decide), BitVec.extractLsb'_extractLsb'_of_le (by decide),
    BitVec.extractLsb'_extractLsb'_of_le (by decide)]

/-- A literal channel with its presence bit `here` takes its byte off the operand bytes (R88). -/
theorem exists_litByte {here : Bool} {ops : List Byte} (h : here.toNat ≤ ops.length) :
    ∃ c rest, c.isSome = here ∧ ops = litByte c ++ rest ∧ ops.length = here.toNat + rest.length := by
  cases here with
  | false => exact ⟨none, ops, rfl, rfl, (Nat.zero_add _).symm⟩
  | true =>
    cases ops with
    | nil => exact absurd h (by decide)
    | cons b rest => exact ⟨some b, rest, rfl, rfl, Nat.add_comm _ _⟩

/-- The tag byte of a literal is its tag over its presence bits (R88). -/
theorem lit_tag : ∀ b0 : Byte, kindOf b0 = .lit →
    0b1111#4 ++ BitVec.ofBool (present b0 3) ++ BitVec.ofBool (present b0 2) ++ BitVec.ofBool (present b0 1) ++
      BitVec.ofBool (present b0 0) = b0 := by
  decide

/-- Every literal tag byte with as many bytes as it asks for is the encoding of a literal (R88). -/
theorem exists_lit {b0 : Byte} {ops : List Byte} (hk : kindOf b0 = .lit) (h : ops.length = presentCount b0) :
    ∃ r g b a, encode (.lit r g b a) = b0 :: ops := by
  rw [presentCount] at h
  obtain ⟨r, ops1, hr, rfl, h1⟩ := exists_litByte (here := present b0 3) (ops := ops) (by omega)
  obtain ⟨g, ops2, hg, rfl, h2⟩ := exists_litByte (here := present b0 2) (ops := ops1) (by omega)
  obtain ⟨b, ops3, hb, rfl, h3⟩ := exists_litByte (here := present b0 1) (ops := ops2) (by omega)
  obtain ⟨a, ops4, ha, rfl, h4⟩ := exists_litByte (here := present b0 0) (ops := ops3) (by omega)
  obtain rfl : ops4 = [] := List.length_eq_zero_iff.mp (by omega)
  refine ⟨r, g, b, a, ?_⟩
  rw [encode, hr, hg, hb, ha, lit_tag b0 hk, List.append_nil, List.append_assoc, List.append_assoc]

/-- The encoding of a decoded chunk is the bytes it was decoded from (R99). -/
theorem encode_decodeChunk {b0 : Byte} {ops : List Byte} (h : ops.length = operandCount b0) :
    encode (decodeChunk b0 ops) = b0 :: ops := by
  cases hk : kindOf b0 with
  | index =>
    have tag : ∀ b0 : Byte, kindOf b0 = .index → encode (.index (b0.extractLsb' 0 6).toFin) = [b0] := by decide
    simp only [operandCount, hk] at h
    obtain rfl := List.length_eq_zero_iff.mp h
    simp only [decodeChunk, hk, tag]
  | runS =>
    have tag : ∀ b0 : Byte, kindOf b0 = .runS → encode (.runS ((b0.extractLsb' 0 5).toNat + 1)) = [b0] := by decide
    simp only [operandCount, hk] at h
    obtain rfl := List.length_eq_zero_iff.mp h
    simp only [decodeChunk, hk, tag]
  | runL =>
    have tag : ∀ b0 : Byte, kindOf b0 = .runL → 0b011#3 ++ b0.extractLsb' 0 5 = b0 := by decide
    simp only [operandCount, hk] at h
    obtain ⟨b1, rfl⟩ := List.length_eq_one_iff.mp h
    simp only [decodeChunk, hk, List.getD_cons_zero, encode_runL_fields, tag]
  | diff1 =>
    have tag : ∀ b0 : Byte, kindOf b0 = .diff1 →
        0b10#2 ++ b0.extractLsb' 4 2 ++ b0.extractLsb' 2 2 ++ b0.extractLsb' 0 2 = b0 := by decide
    simp only [operandCount, hk] at h
    obtain rfl := List.length_eq_zero_iff.mp h
    simp only [decodeChunk, hk, encode, rebias_unbias, tag]
  | diff2 =>
    have tag : ∀ b0 : Byte, kindOf b0 = .diff2 → 0b110#3 ++ b0.extractLsb' 0 5 = b0 := by decide
    have operand : ∀ b1 : Byte, b1.extractLsb' 4 4 ++ b1.extractLsb' 0 4 = b1 := by decide
    simp only [operandCount, hk] at h
    obtain ⟨b1, rfl⟩ := List.length_eq_one_iff.mp h
    simp only [decodeChunk, hk, List.getD_cons_zero, encode, rebias_unbias, tag, operand]
  | diff3 =>
    have tag : ∀ b0 : Byte, kindOf b0 = .diff3 → 0b1110#4 ++ b0.extractLsb' 0 4 = b0 := by decide
    simp only [operandCount, hk] at h
    obtain ⟨b1, b2, rfl⟩ := List.length_eq_two.mp h
    have high : (b0 ++ b1 ++ b2).extractLsb' 16 4 = b0.extractLsb' 0 4 := by
      rw [BitVec.extractLsb'_append_eq_of_le (by decide), BitVec.extractLsb'_append_eq_of_le (by decide)]
    have middle : (b0 ++ b1 ++ b2).extractLsb' 8 8 = b1 := by
      rw [BitVec.extractLsb'_append_eq_of_le (by decide)]
      exact BitVec.extractLsb'_append_eq_right
    simp only [decodeChunk, hk, List.getD_cons_zero, List.getD_cons_succ, encode_diff3_fields, high, middle,
      BitVec.extractLsb'_append_eq_right, tag]
  | lit =>
    simp only [operandCount, hk] at h
    obtain ⟨r, g, b, a, he⟩ := exists_lit hk h
    rw [decodeChunk_of_encode rfl he, he]

/-- Settles O2: what decodes is a tag byte with its operand bytes, and they are the encoding of their chunk. -/
theorem encodeOfDecode : Obligations.EncodeOfDecode := by
  intro bytes i rest h
  obtain ⟨b0, ops, rfl, hlen, rfl⟩ := decode_eq_ok_iff.mp h
  exact ⟨decodeChunk_wf b0 ops, by rw [encode_decodeChunk hlen, List.cons_append]⟩

end Sys2Proof.Machine
end

section
/-! PROOFS. The fields of a decoded chunk in arithmetic on its bytes (R82 to R89). -/

namespace Sys2Proof.Machine

/-- A signed delta is its field, in arithmetic, less the bias (R89). -/
theorem unbias_extract {n : Nat} (bias : Int) (w : BitVec n) (start len : Nat) :
    unbias bias (w.extractLsb' start len) = (w.toNat / 2 ^ start % 2 ^ len : Nat) - bias := by
  rw [unbias, BitVec.extractLsb'_toNat, Nat.shiftRight_eq_div_pow]

theorem toNat_extract_low {n : Nat} (w : BitVec n) (len : Nat) : (w.extractLsb' 0 len).toNat = w.toNat % 2 ^ len := by
  rw [BitVec.extractLsb'_toNat, Nat.shiftRight_zero]

/-- Settles O5, kind by kind: each field is a quotient and a remainder of the chunk's bytes. -/
theorem fixedFieldLayout : Obligations.FixedFieldLayout := by
  intro b0 b1 b2 ops
  refine ⟨fun hk => ⟨_, toNat_extract_low b0 6, ?_⟩, fun hk => ?_, fun hk => ?_, fun hk => ?_,
    fun hk => ?_, fun hk w hw => ?_⟩
  · simp only [decodeChunk, hk]
  · simp only [decodeChunk, hk, toNat_extract_low, Nat.reducePow]
  · simp only [decodeChunk, hk, List.getD_cons_zero, toNat_append, toNat_extract_low, Nat.reducePow]
  · simp only [decodeChunk, hk, unbias_extract, Nat.reducePow, Nat.div_one]
  · have high : b1.toNat / 16 % 16 = b1.toNat / 16 := Nat.mod_eq_of_lt (Nat.div_lt_of_lt_mul b1.isLt)
    simp only [decodeChunk, hk, List.getD_cons_zero, unbias_extract, Nat.reducePow, Nat.div_one, high]
  · have word : (b0 ++ b1 ++ b2).toNat = w := by
      rw [hw, toNat_append, toNat_append]
      omega
    simp only [decodeChunk, hk, List.getD_cons_zero, List.getD_cons_succ, unbias_extract, word, Nat.reducePow,
      Nat.div_one]

/-- A presence bit in arithmetic (R88). -/
theorem toNat_present (b0 : Byte) (j : Nat) : (present b0 j).toNat = b0.toNat / 2 ^ j % 2 :=
  Nat.toNat_testBit _ _

/-- A channel of a literal takes the first operand byte that the `n` bytes before it leave (R88). -/
theorem takeOperand_drop (here : Bool) (ops : List Byte) (n : Nat) :
    takeOperand here (ops.drop n) =
      (if here.toNat = 1 then some (ops.getD n 0) else none, ops.drop (n + here.toNat)) := by
  cases here with
  | false => rfl
  | true => simp [takeOperand]

/-- Settles O6: each channel starts after the operand bytes of the channels before it. -/
theorem literalFieldLayout : Obligations.LiteralFieldLayout := by
  intro b0 ops hk bit channel
  have red := takeOperand_drop (present b0 3) ops 0
  rw [List.drop_zero] at red
  simp only [decodeChunk, hk, decodeLit, red, takeOperand_drop, toNat_present, Nat.zero_add, channel, bit]

end Sys2Proof.Machine
end

section
/-! PROOFS. The pseudo-instructions RUN and DIFF against the encoder's own choices (R97, R98, R128, R131). -/

namespace Sys2Proof.Machine

/-! ### RUN (R97) -/

/-- The count of a run chunk, and 0 for another chunk. -/
def runCount : Instr → Nat
  | .runS n => n
  | .runL n => n
  | _ => 0

/-- `RUN c` with `c` written as `q` full runs and a last one: the full runs, and the encoder's chunk for the last
(R97, R128). -/
theorem expandRun_eq {q last : Nat} (h1 : 1 ≤ last) (h2 : last ≤ 8224) :
    expandRun (8224 * q + last) = some (List.replicate q (.runL 8224) ++ [emitRun last]) := by
  have quotient : (8224 * q + last - 1) / 8224 = q := by omega
  have short : (last ≤ 32) = (last < 33) := by simp [Nat.lt_succ_iff]
  rw [expandRun, if_neg (by omega)]
  simp only [quotient, Nat.add_sub_cancel_left, emitRun, short]

@[simp] theorem runCount_runL (n : Nat) : runCount (.runL n) = n := rfl

@[simp] theorem runCount_emitRun (c : Nat) : runCount (emitRun c) = c := by
  rw [emitRun]
  split
  · rfl
  · rfl

/-- Settles O8: the full runs, and a last one of at least 1 and at most 8224 repeats. -/
theorem pseudoRunCovers : Obligations.PseudoRunCovers := by
  refine ⟨rfl, fun c hc => ?_⟩
  obtain ⟨q, last, h1, h2, rfl⟩ : ∃ q last, 1 ≤ last ∧ last ≤ 8224 ∧ c = 8224 * q + last :=
    ⟨(c - 1) / 8224, (c - 1) % 8224 + 1, by omega, by omega, by omega⟩
  refine ⟨_, expandRun_eq h1 h2, fun i hi => ?_, ?_, ?_, fun i hi => ?_⟩
  · rcases List.mem_append.mp hi with full | final
    · rw [List.eq_of_mem_replicate full]
      decide
    · rw [List.mem_singleton.mp final]
      exact (emitRun_spec h1 h2 Decoder.reset).1
  · change (List.map runCount _).sum = _
    simp [Nat.mul_comm]
  · rw [List.length_append, List.length_replicate, List.length_singleton]
    omega
  · rw [List.dropLast_concat] at hi
    exact List.eq_of_mem_replicate hi

/-! ### DIFF (R98) -/

theorem expandDiff_wf {dr dg db da : Int} {i : Instr} (h : expandDiff dr dg db da = some i) : i.wf = true := by
  rw [expandDiff] at h
  split at h
  next tier => exact Option.some.inj h ▸ tier.2
  next =>
    split at h
    next tier => exact Option.some.inj h ▸ tier.2
    next =>
      split at h
      next tier => exact Option.some.inj h ▸ tier
      next => cases h

/-- The encoder's tier is what DIFF spells, and a literal where DIFF spells nothing (R98, R131). -/
theorem selectTier_eq (px : Pixel) (dr dg db da : Int) :
    selectTier px dr dg db da = (expandDiff dr dg db da).getD (emitLit px dr dg db da) := by
  simp only [selectTier, expandDiff, Instr.wf, Bool.and_eq_true, and_assoc]
  split
  · rfl
  · split
    · rfl
    · split
      · rfl
      · rfl

/-- Settles O9: the encoder looks at the tiers of DIFF in the same order. -/
theorem pseudoDiffIsEncoderTier : Obligations.PseudoDiffIsEncoderTier := by
  intro px prev
  have tier : tierFor px prev = _ := selectTier_eq px _ _ _ _
  split
  next i spelled =>
    rw [spelled] at tier
    exact ⟨expandDiff_wf spelled, tier, addDeltas_sdelta px prev⟩
  next nothing =>
    rw [nothing] at tier
    exact ⟨_, _, _, _, tier⟩

end Sys2Proof.Machine
end

section
/-! PROOFS. Where a chunk stops (R61, R96, R203). -/

namespace Sys2Proof.Machine

/-- Settles O18: the order in which a chunk looks at its operands, at the engine, and at the pixels left. -/
theorem chunkStops : Obligations.ChunkStops := by
  intro i s
  rw [exec_eq_onDecoder]
  refine ⟨fun hi => ?_, fun hi out => ?_, fun hi hp hr full => ?_⟩
  · rw [runChunk, if_neg (by simp [hi]), onDecoder_refused]
  · rw [runChunk, if_pos hi, if_neg out, onDecoder_refused]
  · rw [runChunk_of_ready hi hp hr, deliver, if_neg (Nat.not_lt.mpr full), onDecoder_fault]

end Sys2Proof.Machine
end

section
/-! PROOFS. The header step of the decoder (R106 to R109, R149, R150): an accepted header, and its three aborts. -/

namespace Sys2Proof.Machine

/-! ### Reads that the host answers with bytes -/

/-- The host answers the decoder's next reads with `bytes`. Unlike `Reading`, this leaves open what it answers later: an
IOERR, and a stream of any length. -/
structure Answered (d : Decoder) (bytes : List Byte) : Prop where
  going : d.ended = false
  held : bytes <+: d.stream.drop d.pos.toNat
  room : d.pos.toNat + bytes.length < 2 ^ 64
  unfailing : ∀ j, j < bytes.length → d.srcFail ≠ some (d.pos.toNat + j)

theorem toNat_consumed_pos {d : Decoder} {count : Nat} (h : d.pos.toNat + count < 2 ^ 64) :
    (consumed count d).pos.toNat = d.pos.toNat + count := by
  rw [consumed, BitVec.toNat_add, BitVec.toNat_ofNat]
  omega

theorem readsOnly_consumed (count : Nat) (d : Decoder) : ReadsOnly d (consumed count d) := rfl

section
variable {d : Decoder} {b : Byte} {bytes : List Byte}

theorem Answered.inRead_eq (h : Answered d (b :: bytes)) : inRead d = .byte b (consumed 1 d) := by
  have room := h.room
  rw [List.length_cons] at room
  have held : d.stream[d.pos.toNat]? = some b := by
    obtain ⟨rest, hrest⟩ := h.held
    rw [← List.head?_drop, ← hrest, List.cons_append, List.head?_cons]
  refine inRead_of_byte ((sourceAnswer_byte_iff d b).mpr ⟨h.going, h.unfailing 0 (by simp), held⟩) fun hp => ?_
  rw [hp, show lastPos.toNat = 2 ^ 64 - 1 from rfl] at room
  omega

theorem Answered.consume_one (h : Answered d (b :: bytes)) : Answered (consumed 1 d) bytes := by
  have room := h.room
  rw [List.length_cons] at room
  have hpos : (consumed 1 d).pos.toNat = d.pos.toNat + 1 := toNat_consumed_pos (by omega)
  refine ⟨h.going, ?_, by omega, fun j hj => ?_⟩
  · obtain ⟨rest, hrest⟩ := h.held
    rw [hpos, ← List.drop_drop]
    exact ⟨rest, by rw [consumed, ← hrest]; rfl⟩
  · rw [hpos, Nat.add_assoc, Nat.add_comm 1]
    exact h.unfailing (j + 1) (by simpa using hj)

end

/-- The header's reads take the bytes that the host answers, and go on from there. -/
theorem readHeaderBytes_of_answered (more : Nat) (bytes : List Byte) : ∀ {d : Decoder}, Answered d bytes →
    readHeaderBytes (bytes.length + more) d =
      bytes.foldr ReadMany.cons (readHeaderBytes more (consumed bytes.length d)) := by
  induction bytes with
  | nil => exact fun {d} _ => by rw [List.length_nil, Nat.zero_add, consumed_zero, List.foldr_nil]
  | cons b bytes ih =>
    intro d h
    rw [List.length_cons, Nat.add_right_comm, readHeaderBytes, h.inRead_eq]
    dsimp only
    rw [ih h.consume_one, consumed_consumed, Nat.add_comm 1, List.foldr_cons]

@[simp] theorem foldr_readMany_cons_ok (bytes : List Byte) (d : Decoder) :
    bytes.foldr ReadMany.cons (.ok [] d) = .ok bytes d := by
  induction bytes with
  | nil => rfl
  | cons b bytes ih => rw [List.foldr_cons, ih, ReadMany.cons]

@[simp] theorem foldr_readMany_cons_aborted (bytes : List Byte) (d : Decoder) :
    bytes.foldr ReadMany.cons (.aborted d) = .aborted d := by
  induction bytes with
  | nil => rfl
  | cons b bytes ih => rw [List.foldr_cons, ih, ReadMany.cons]

/-! ### What `ReadHeader` gives -/

/-- Fourteen bytes answered: the magic decides (R106, R107). -/
theorem readHeader_of_answered {d : Decoder} {bytes : List Byte} (h : Answered d bytes)
    (hl : bytes.length = headerLen) :
    readHeader d = if field32 bytes 0 = Config.magic then .ok (parseHeader bytes) (consumed headerLen d)
      else .aborted (decAbort .badMagic (consumed headerLen d).pos (consumed headerLen d)) := by
  have read := readHeaderBytes_of_answered 0 bytes h
  rw [hl, readHeaderBytes, foldr_readMany_cons_ok] at read
  rw [readHeader, read]

/-- Fewer than fourteen bytes answered: an abort at the read after them is the header's (R106). -/
theorem readHeader_of_aborted {d d' : Decoder} {bytes : List Byte} {count : Nat} (h : Answered d bytes)
    (hl : bytes.length = count) (hc : count < headerLen)
    (ha : ∀ more, readHeaderBytes (more + 1) (consumed count d) = .aborted d') : readHeader d = .aborted d' := by
  obtain ⟨more, hmore⟩ := Nat.exists_eq_add_of_lt hc
  have read := readHeaderBytes_of_answered (more + 1) bytes h
  rw [hl, ha, foldr_readMany_cons_aborted] at read
  rw [readHeader, hmore, Nat.add_assoc, read]

theorem readHeaderBytes_of_eoi {d : Decoder} (h : sourceAnswer d = .eoi) (more : Nat) :
    readHeaderBytes (more + 1) d = .aborted (decAbort .truncatedHeader d.pos { d with ended := true }) := by
  rw [readHeaderBytes, inRead_of_eoi h]

theorem readHeaderBytes_of_ioerr {d : Decoder} (h : sourceAnswer d = .ioerr) (more : Nat) :
    readHeaderBytes (more + 1) d = .aborted (decAbort .ioSource d.pos d) := by
  rw [readHeaderBytes, inRead_of_ioerr h]

/-! ### The fields of a header (R7, R62, R106) -/

theorem field32_eq_pixelWord (bytes : List Byte) (j : Nat) : field32 bytes j =
    pixelWord ⟨bytes.getD j 0, bytes.getD (j + 1) 0, bytes.getD (j + 2) 0, bytes.getD (j + 3) 0⟩ := rfl

theorem pixelOfWord_magic :
    pixelOfWord Config.magic = ⟨magicByte 0, magicByte 1, magicByte 2, magicByte 3⟩ := by
  simp [pixelOfWord_eq_ofNat, magicByte]

theorem pixelWord_eq_iff (p : Pixel) (w : BitVec 32) : pixelWord p = w ↔ p = pixelOfWord w :=
  ⟨fun h => by rw [← h, pixelOfWord_pixelWord], fun h => by rw [h, pixelWord_pixelOfWord]⟩

/-- A header starts with MAGIC where its first four bytes are MAGIC's. -/
theorem field32_eq_magic_iff (bytes : List Byte) :
    field32 bytes 0 = Config.magic ↔ ∀ j, j < 4 → bytes.getD j 0 = magicByte j := by
  rw [field32_eq_pixelWord, pixelWord_eq_iff, pixelOfWord_magic, Pixel.mk.injEq]
  constructor
  · intro ⟨h0, h1, h2, h3⟩ j hj
    interval_cases j <;> assumption
  · exact fun h => ⟨h 0 (by decide), h 1 (by decide), h 2 (by decide), h 3 (by decide)⟩

/-- An accepted header ends the pass where nothing more is asked for (R150). -/
theorem decAcceptHeader_complete (header : Header) (d : Decoder)
    (h : d.mode = .headerOnly ∨ (decAcceptHeader header d).n = 0) :
    (decAcceptHeader header d).phase = .idle ∧ (decAcceptHeader header d).status = 0x02 := by
  rw [decAcceptHeader_n] at h
  rw [decAcceptHeader, if_pos h]
  exact ⟨rfl, statusDone_eq⟩

/-- Else the pass goes on to its pixels (R150). -/
theorem decAcceptHeader_more (header : Header) (d : Decoder) (hm : d.mode = .full)
    (hn : (decAcceptHeader header d).n ≠ 0) :
    (decAcceptHeader header d).phase = .pix ∧ (decAcceptHeader header d).status = d.status := by
  rw [decAcceptHeader_n] at hn
  rw [decAcceptHeader, if_neg (not_or.mpr ⟨by simp [hm], hn⟩)]
  exact ⟨rfl, rfl⟩

/-! ### The header step in the machine -/

section
variable {s : State} {d : Decoder}

theorem step_of_readsHeader (h : DecoderReadsHeader s) : step s = onDecoder s (decHeaderStep s.dec) := by
  obtain ⟨hs, hp, -, -⟩ := h
  rw [step_of_script_nil hs, if_pos (by rw [hp]; decide), decoderStep_eq_onDecoder, decStep_of_hdr hp]

/-- At the start of the stream the host answers the bytes that the stream begins with. -/
theorem answered_take (h : DecoderReadsHeader s) {count : Nat} (hc : count ≤ headerLen)
    (hl : count ≤ s.dec.stream.length) (hf : ∀ j, j < count → s.dec.srcFail ≠ some j) :
    Answered s.dec (s.dec.stream.take count) ∧ (s.dec.stream.take count).length = count ∧
      (consumed count s.dec).pos.toNat = count := by
  obtain ⟨-, -, hpos, hended⟩ := h
  have hlen : (s.dec.stream.take count).length = count := List.length_take_of_le hl
  have start : s.dec.pos.toNat = 0 := by rw [hpos]; rfl
  have room : s.dec.pos.toNat + count < 2 ^ 64 := by rw [start, Nat.zero_add]; exact hc.trans_lt (by decide)
  refine ⟨⟨hended, ?_, by rwa [hlen], fun j hj => ?_⟩, hlen, ?_⟩
  · rw [start]
    exact List.take_prefix count _
  · rw [start, Nat.zero_add]
    exact hf j (hlen ▸ hj)
  · rw [toNat_consumed_pos room, start, Nat.zero_add]

/-- An abort of `ReadHeader` ends the pass with its STATUS word and ERR_POS (R178). -/
theorem step_of_readHeader_aborted (h : DecoderReadsHeader s) {c : Cause} (ho : ReadsOnly s.dec d)
    (ha : readHeader s.dec = .aborted (decAbort c d.pos d)) :
    ∃ t, step s = .next t ∧ DecAborted s.dec t.dec (statusErr c) d.pos.toNat ∧ t.enc = s.enc := by
  refine ⟨{ s with dec := decAbort c d.pos d }, ?_, ⟨rfl, rfl, rfl, ?_, ?_⟩, rfl⟩
  · rw [step_of_readsHeader h, decHeaderStep, ha, onDecoder_next]
  · rw [decAbort_grid, ho]
  · rw [decAbort_stream, ho]

end

/-- Settles O26: all the bytes the input holds are read, and the next read answers EOI. -/
theorem truncatedHeaderAborts : Obligations.TruncatedHeaderAborts := by
  intro s h hl hf
  obtain ⟨answered, hlen, hpos⟩ := answered_take h hl.le le_rfl fun j hj => hf j hj.le
  have eoi : sourceAnswer (consumed s.dec.stream.length s.dec) = .eoi :=
    (sourceAnswer_eoi_iff _).mpr (.inr ⟨hpos.symm ▸ hf _ le_rfl, hpos.ge⟩)
  have aborted := readHeader_of_aborted answered hlen hl (readHeaderBytes_of_eoi eoi)
  have ends := step_of_readHeader_aborted (d := { consumed s.dec.stream.length s.dec with ended := true }) h rfl aborted
  rwa [statusErr_truncatedHeader, hpos] at ends

/-- Settles O27: all fourteen bytes are read before the magic is compared. -/
theorem badMagicAborts : Obligations.BadMagicAborts := by
  intro s h hl hf ⟨j, hj, differs⟩
  obtain ⟨answered, hlen, hpos⟩ := answered_take h le_rfl hl hf
  have bad : field32 (s.dec.stream.take headerLen) 0 ≠ Config.magic := fun magic => by
    have same := (field32_eq_magic_iff _).mp magic j hj
    have there : s.dec.stream[j]? = some _ := List.getElem?_eq_getElem (by omega)
    rw [List.getD_eq_getElem?_getD, List.getElem?_take_of_lt (hj.trans (by decide)), there] at same
    exact differs (there.trans (congrArg some same))
  have aborted := readHeader_of_answered answered hlen
  rw [if_neg bad] at aborted
  have ends := step_of_readHeader_aborted h (readsOnly_consumed headerLen s.dec) aborted
  rwa [statusErr_badMagic, hpos] at ends

/-- Settles O28: the bytes before the failing read are read, and that read answers IOERR. -/
theorem headerSourceErrorAborts : Obligations.HeaderSourceErrorAborts := by
  intro s j h hj hl hf
  obtain ⟨answered, hlen, hpos⟩ := answered_take h hj.le hl fun i hi => by
    rw [hf]
    exact fun hc => hi.ne (Option.some.inj hc).symm
  have ioerr : sourceAnswer (consumed j s.dec) = .ioerr :=
    (sourceAnswer_ioerr_iff _).mpr ⟨answered.going, hpos.symm ▸ hf⟩
  have aborted := readHeader_of_aborted answered hlen hj (readHeaderBytes_of_ioerr ioerr)
  have ends := step_of_readHeader_aborted h (readsOnly_consumed j s.dec) aborted
  rwa [statusErr_ioSource, hpos] at ends

/-- Settles O25: the fourteen bytes are read, the magic is right, and the header decides how the pass goes on. -/
theorem headerAccepted : Obligations.HeaderAccepted := by
  intro s w3 w2 w1 w0 h3 h2 h1 h0 channels colorspace rest h hf hstream
  have long : headerLen ≤ s.dec.stream.length := by
    rw [hstream, List.length_append]
    exact Nat.le_add_right _ _
  obtain ⟨answered, hlen, hpos⟩ := answered_take h le_rfl long hf
  have accepted := readHeader_of_answered answered hlen
  have hbytes : s.dec.stream.take headerLen = [magicByte 0, magicByte 1, magicByte 2, magicByte 3, w3, w2, w1, w0, h3,
      h2, h1, h0, channels, colorspace] := by
    rw [hstream]
    rfl
  have magic : field32 (s.dec.stream.take headerLen) 0 = Config.magic := by
    rw [hbytes, field32_eq_magic_iff]
    exact fun j hj => by interval_cases j <;> rfl
  rw [if_pos magic, hbytes] at accepted
  refine ⟨{ s with dec := decAcceptHeader _ (consumed headerLen s.dec) },
    by rw [step_of_readsHeader h, decHeaderStep, accepted, onDecoder_next], rfl, ?_, ?_, ?_, ?_,
    decAcceptHeader_complete _ (consumed headerLen s.dec), decAcceptHeader_more _ (consumed headerLen s.dec),
    ?_, ?_, ?_, ?_, ?_⟩
  · exact (decAcceptHeader_pos _ _).trans (BitVec.eq_of_toNat_eq hpos)
  · exact (congrArg BitVec.toNat (decAcceptHeader_width _ _)).trans (toNat_pixelWord ⟨w3, w2, w1, w0⟩)
  · exact (congrArg BitVec.toNat (decAcceptHeader_height _ _)).trans (toNat_pixelWord ⟨h3, h2, h1, h0⟩)
  · dsimp only
    rw [decAcceptHeader_n, decAcceptHeader_width, decAcceptHeader_height, toNat_pixelCount]
  · exact decAcceptHeader_px _ _
  · exact decAcceptHeader_run _ _
  · exact decAcceptHeader_cache _ _
  · exact decAcceptHeader_k _ _
  · exact decAcceptHeader_grid _ _

end Sys2Proof.Machine
end

section
/-! PROOFS. The colour cache (R113 to R117), and the chunk of a differing pixel run by a decoder whose cache agrees with
the encoder's (R121, R129). -/

namespace Sys2Proof.Machine

/-! ### Hash and store -/

/-- Settles O31: the hash is the low six bits of the channels' exclusive or. -/
theorem hashIsXorModulo64 : Obligations.HashIsXorModulo64 := by
  intro p
  calc (pixelHash p).val = (p.r ^^^ p.g ^^^ p.b ^^^ p.a).toNat % 2 ^ 6 := toNat_extract_low _ 6
    _ = (p.r.toNat ^^^ p.g.toNat ^^^ p.b.toNat ^^^ p.a.toNat) % 64 := by simp only [BitVec.toNat_xor, Nat.reducePow]

/-- Settles O32: the law of the store that the proofs about caches use. -/
theorem cacheReadAfterStore : Obligations.CacheReadAfterStore :=
  cacheLookup_cacheStore

/-! ### The chunk of a differing pixel -/

/-- Once its pixel and its repeats are chosen, a delivery is all of `Delivered` (R151, R152, R163). -/
theorem delivered_afterDelivery (fromIndex : Bool) (d : Decoder) (px : Pixel) (run : BitVec 14) :
    Delivered d (afterDelivery fromIndex { d with px := px, run := run }) (!fromIndex) px run where
  px_eq := afterDelivery_px _ _
  run_eq := afterDelivery_run _ _
  k_eq := afterDelivery_k _ _
  cache_eq := by
    rw [afterDelivery_cache]
    cases fromIndex <;> rfl
  pixel_eq := by
    rw [afterDelivery_grid]
    exact readPixel_writePixel_same _ _ _
  last_eq last := by
    rw [afterDelivery, completeIfDone_phase, completeIfDone_status, if_pos last, if_pos last]
    exact ⟨rfl, statusDone_eq⟩
  more_eq more :=
    (afterDelivery_of_more (d := { d with px := px, run := run }) fromIndex more).symm

/-- A well-formed chunk runs to completion in a decoder that is ready for it, and delivers the chunk's pixel (R151). -/
theorem exec_of_ready {i : Instr} {s : State} (ready : ChunkReady s.dec) (hi : i.wf = true) :
    exec i s = .next { s with
      dec := afterDelivery (skipsStore i) { s.dec with px := chunkPixel s.dec i, run := chunkRepeats s.dec i } } := by
  obtain ⟨hp, hr, hlt⟩ := ready
  rw [exec_eq_onDecoder, runChunk_of_ready hi hp hr, deliver_of_lt, onDecoder_next]
  exact hlt

/-- The chunk of a pixel skips the decoder's store just where the encoder's cache holds the pixel (R129, R130, R163). -/
theorem skipsStore_encodePixel (px : Pixel) (d : Decoder) (cache : Cache) :
    skipsStore (encodePixel px d.px cache).1 = decide (cacheLookup cache (pixelHash px) = px) := by
  by_cases hit : cacheLookup cache (pixelHash px) = px
  · rw [encodePixel, if_pos hit, decide_eq_true hit]
    rfl
  · obtain ⟨-, stores, -⟩ := tierFor_spec px d
    rw [encodePixel, if_neg hit, decide_eq_false hit, stores]

/-- Settles O44: the emitted chunk's pixel is the encoder's, and the decoder stores it where the encoder does. -/
theorem pixelChunkRoundTrip : Obligations.PixelChunkRoundTrip := by
  intro s px cache ready _ agree
  obtain ⟨hwf, hpx, hrun, agree', -⟩ := encodePixel_spec (px := px) agree
  refine ⟨_, exec_of_ready ready hwf, ?_, ?_⟩
  · obtain ⟨-, run_zero, -⟩ := ready
    rw [hpx, hrun, run_zero, decide_not, ← skipsStore_encodePixel px s.dec cache]
    exact delivered_afterDelivery _ s.dec px 0
  · rw [afterDelivery_cache, hpx]
    exact agree'

end Sys2Proof.Machine
end

section
/-! PROOFS. The stream encoder step by step: E.start (R122), and the header, pixel and padding steps over a sink that
accepts their bytes (R123 to R130) or answers one of them IOERR (R124, R177 to R179). -/

namespace Sys2Proof.Machine

/-! ### The pass start -/

theorem step_startEncoder {s : State} {rest : List HostAction} (hs : s.script = .startEncoder :: rest) :
    step s = onEncoder { s with script := rest } (encStart s.enc) :=
  step_of_script_cons hs

/-- Settles O35: the start looks at the phase first, and then at the supplied grid. -/
theorem encoderStart : Obligations.EncoderStart := by
  intro s rest hs
  rw [step_startEncoder hs, encStart, toNat_pixelCount]
  refine ⟨fun idle supplied => ?_, fun idle missing => ?_, fun running => ?_⟩
  · rw [if_pos idle, if_pos supplied]
    exact ⟨_, onEncoder_next _ _, rfl, rfl, rfl, rfl, toNat_pixelCount _ _, rfl, rfl, rfl,
      fun i => by simp [cacheInit, transparent], rfl, statusBusy_eq, rfl⟩
  · rw [if_pos idle, missing, if_neg Bool.false_ne_true, onEncoder_fault]
  · rw [if_neg running, onEncoder_refused]

/-! ### The tier (R131, R138) -/

theorem sdelta_eq_zero_iff (x y : Byte) : sdelta x y = 0 ↔ x = y :=
  ⟨eq_of_sdelta_eq_zero, fun h => by simp [h, sdelta, wrap8, sext8]⟩

/-- A literal holds exactly the channels that have changed (R138). -/
theorem emitLit_sdelta (px prev : Pixel) :
    emitLit px (sdelta px.r prev.r) (sdelta px.g prev.g) (sdelta px.b prev.b) (sdelta px.a prev.a) =
      .lit (if px.r = prev.r then none else some px.r) (if px.g = prev.g then none else some px.g)
        (if px.b = prev.b then none else some px.b) (if px.a = prev.a then none else some px.a) := by
  simp only [emitLit, ne_eq, sdelta_eq_zero_iff, ite_not]

/-- Settles O38: the encoder looks at the tiers in the order of DIFF, and emits a literal where DIFF spells nothing. -/
theorem smallestTier : Obligations.SmallestTier := by
  intro px prev dr dg db da fits1 fits2 fits3
  have tier : tierFor px prev = (expandDiff dr dg db da).getD (emitLit px dr dg db da) := selectTier_eq px dr dg db da
  rw [tier, expandDiff]
  refine ⟨fun h1 => ?_, fun h1 h2 => ?_, fun h1 h2 h3 => ?_, fun h1 h2 h3 => ?_⟩
  · rw [if_pos h1.symm, Option.getD_some]
  · rw [if_neg (mt And.symm h1), if_pos h2.symm, Option.getD_some]
  · rw [if_neg (mt And.symm h1), if_neg (mt And.symm h2), if_pos h3, Option.getD_some]
  · rw [if_neg (mt And.symm h1), if_neg (mt And.symm h2), if_neg h3, Option.getD_none]
    exact emitLit_sdelta px prev

/-! ### The chunks of a pixel step (R96, R127, R141) -/

theorem tierFor_wf (px prev : Pixel) : (tierFor px prev).wf = true :=
  (tierFor_spec px { Decoder.reset with px := prev }).1

theorem encodePixel_wf (px prev : Pixel) (cache : Cache) : (encodePixel px prev cache).1.wf = true := by
  rw [encodePixel]
  split
  · rfl
  · exact tierFor_wf px prev

theorem emitRun_wf {c : Nat} (h1 : 1 ≤ c) (h2 : c ≤ 8224) : (emitRun c).wf = true :=
  (emitRun_spec h1 h2 Decoder.reset).1

theorem pendingChunks_wf {run : BitVec 14} (h : run.toNat ≤ 8223) : ∀ i ∈ pendingChunks run, i.wf = true := by
  intro i hi
  rw [pendingChunks] at hi
  split at hi
  next => cases hi
  next pending =>
    rw [List.mem_singleton.mp hi]
    exact emitRun_wf (by bv_omega) (by omega)

/-- Every chunk of a pixel step is well formed: a run of 1 to 8224 repeats, an index, or a tier (R96). -/
theorem chunkEnc_wf (prev px : Pixel) {run : BitVec 14} (last : Bool) (cache : Cache) (h : run.toNat ≤ 8223) :
    ∀ i ∈ (chunkEnc prev px run last cache).chunks, i.wf = true := by
  intro i hi
  by_cases hpx : px = prev
  · subst hpx
    rw [chunkEnc_same px last cache h] at hi
    split at hi
    next =>
      rw [List.mem_singleton.mp hi]
      exact emitRun_wf (by omega) (by omega)
    next => cases hi
  · rw [chunkEnc_other run last cache hpx] at hi
    rcases List.mem_append.mp hi with pending | own
    · exact pendingChunks_wf h i pending
    · rw [List.mem_singleton.mp own]
      exact encodePixel_wf px prev cache

/-- A pixel step writes at most two bytes of a run and five of the pixel's own chunk (R141). -/
theorem length_bytes_chunkEnc_le (prev px : Pixel) {run : BitVec 14} (last : Bool) (cache : Cache)
    (h : run.toNat ≤ 8223) : (chunkEnc prev px run last cache).bytes.length ≤ 7 := by
  have bound := (chunkEnc_bounds prev px last cache h).1
  have := pendingBytes_le run
  omega

/-- Settles O41, from the bounds of each of a step's two chunks. -/
theorem pixelStepBytesBounded : Obligations.PixelStepBytesBounded := fun prev px _ last cache h =>
  ⟨length_bytes_chunkEnc_le prev px last cache h, chunkEnc_wf prev px last cache h⟩

/-! ### What a step writes -/

section
variable {e : Encoder}

theorem encStep_of_hdr (hp : e.phase = .hdr) : encStep e = encHeaderStep e := by
  rw [encStep, hp]

theorem encStep_of_pad (hp : e.phase = .pad) : encStep e = encPaddingStep e := by
  rw [encStep, hp]

theorem nextChunks_of_pixIn {px : Pixel} (read : pixIn e = some px) :
    nextChunks e = some (px, chunkEnc e.prev px e.run (isLastPixel e) e.cache) := by
  rw [nextChunks, read]

/-- The pixel step writes the chunks of the pixel it reads (R125). -/
theorem encStep_of_pix {px : Pixel} {o : ChunkOut} (hp : e.phase = .pix) (read : pixIn e = some px)
    (ho : o = chunkEnc e.prev px e.run (isLastPixel e) e.cache) :
    encStep e = afterWrites (encAdvance px o) (writeAll o.bytes e) := by
  rw [encStep, hp]
  dsimp only
  rw [encPixelStep, nextChunks_of_pixIn read, ← ho]

/-- A step of a running pass writes `stepBytes` and then finishes, in each phase its own way. -/
theorem encStep_eq_afterWrites (running : e.phase ≠ .idle) (held : e.phase = .pix → (pixIn e).isSome = true) :
    ∃ finish, encStep e = afterWrites finish (writeAll (stepBytes e) e) := by
  cases hp : e.phase with
  | idle => exact absurd hp running
  | hdr => exact ⟨_, by rw [encStep_of_hdr hp, encHeaderStep, stepBytes, hp]⟩
  | pix =>
    obtain ⟨px, read⟩ := Option.isSome_iff_exists.mp (held hp)
    exact ⟨_, by rw [encStep_of_pix hp read rfl, stepBytes, hp, nextChunks_of_pixIn read]⟩
  | pad => exact ⟨_, by rw [encStep_of_pad hp, encPaddingStep, stepBytes, hp]⟩

end

/-! ### A sink that accepts the step's bytes (R124) -/

/-- A step whose bytes the host accepts finishes. -/
theorem encoderStep_of_accepts {s : State} {count : Nat} {bytes : List Byte} {finish : Encoder → Encoder}
    (accepts : SinkAccepts s.enc count) (few : bytes.length ≤ count)
    (writes : encStep s.enc = afterWrites finish (writeAll bytes s.enc)) :
    encoderStep s = .next { s with enc := finish (accepted bytes s.enc) } := by
  obtain ⟨room, no_ioerr⟩ := accepts
  rw [encoderStep, writes, writeAll_of_ok bytes s.enc (by omega) fun j hj => no_ioerr j (by omega)]
  rfl

theorem wrote_of_accepts {e : Encoder} {count : Nat} {bytes : List Byte} (accepts : SinkAccepts e count)
    (few : bytes.length ≤ count) : Wrote e (accepted bytes e) bytes :=
  wrote_accepted (by have := accepts.1; omega)

theorem be32_eq_pixelOfWord (w : BitVec 32) :
    be32 w = [(pixelOfWord w).r, (pixelOfWord w).g, (pixelOfWord w).b, (pixelOfWord w).a] := rfl

/-- The bytes of a header in arithmetic: MAGIC, width and height, most significant byte first, then 4 and 0 (R62,
R105). -/
theorem headerBytes_eq_ofNat (w h : BitVec 32) :
    headerBytes w h = [magicByte 0, magicByte 1, magicByte 2, magicByte 3] ++
      [BitVec.ofNat 8 (w.toNat / 2 ^ 24), BitVec.ofNat 8 (w.toNat / 2 ^ 16), BitVec.ofNat 8 (w.toNat / 2 ^ 8),
        BitVec.ofNat 8 w.toNat] ++
      [BitVec.ofNat 8 (h.toNat / 2 ^ 24), BitVec.ofNat 8 (h.toNat / 2 ^ 16), BitVec.ofNat 8 (h.toNat / 2 ^ 8),
        BitVec.ofNat 8 h.toNat] ++ [4, 0] := by
  rw [headerBytes, be32_eq_pixelOfWord, be32_eq_pixelOfWord, be32_eq_pixelOfWord, pixelOfWord_magic,
    pixelOfWord_eq_ofNat w, pixelOfWord_eq_ofNat h]

/-- Settles O36: fourteen bytes are written, and the number of pixels decides the phase. -/
theorem encoderWritesHeader : Obligations.EncoderWritesHeader := by
  intro s accepts hp
  have wrote := wrote_of_accepts (bytes := headerBytes s.enc.width s.enc.height) accepts (le_refl 14)
  refine ⟨_, encoderStep_of_accepts accepts (le_refl 14) (encStep_of_hdr hp), ⟨rfl, rfl⟩,
    ⟨rfl, rfl, rfl, rfl, rfl, rfl, rfl⟩, ?_, rfl, rfl, rfl, rfl, rfl, rfl⟩
  rw [← headerBytes_eq_ofNat]
  exact ⟨wrote.out_eq, wrote.outcount_eq⟩

/-- Settles O39: four bytes are written, and the pass is done. -/
theorem encoderWritesPadding : Obligations.EncoderWritesPadding := by
  intro s accepts hp
  have wrote := wrote_of_accepts (bytes := padding) accepts (le_refl 4)
  exact ⟨_, encoderStep_of_accepts accepts (le_refl 4) (encStep_of_pad hp), ⟨rfl, rfl⟩,
    ⟨rfl, rfl, rfl, rfl, rfl, rfl, rfl⟩, ⟨wrote.out_eq, wrote.outcount_eq⟩, rfl, statusDone_eq⟩

/-! ### The pixel step against R125 to R130 -/

theorem isLastPixel_iff {e : Encoder} (h : e.k.toNat < e.n.toNat) :
    isLastPixel e = true ↔ e.k.toNat + 1 = e.n.toNat := by
  rw [isLastPixel, decide_eq_true_iff, ← BitVec.toNat_inj, toNat_succ_of_lt h]

section
variable {e : Encoder} {px : Pixel}

theorem pixelStepChunks_same (hpx : px = e.prev) :
    pixelStepChunks e px =
      if e.run.toNat + 1 = 8224 ∨ e.k.toNat + 1 = e.n.toNat then ([emitRun (e.run.toNat + 1)], 0)
      else ([], e.run.toNat + 1) := by
  simp only [pixelStepChunks, hpx, if_true, Nat.succ_pos, true_and, ne_eq, not_true_eq_false, false_or,
    List.append_nil]
  split
  · rfl
  · rfl

theorem pixelStepChunks_other (hpx : px ≠ e.prev) :
    pixelStepChunks e px = (pendingChunks e.run ++ [(encodePixel px e.prev e.cache).1], 0) := by
  have own : (encodePixel px e.prev e.cache).1 =
      if e.cache[(pixelHash px).val] = px then .index (pixelHash px) else tierFor px e.prev := apply_ite Prod.fst _ _ _
  have flushed : pendingChunks e.run = if 0 < e.run.toNat then [emitRun e.run.toNat] else [] := by
    rw [pendingChunks, ← ite_not]
    exact if_congr (by bv_omega) rfl rfl
  have none_left : (if 0 < e.run.toNat then 0 else e.run.toNat) = 0 := by
    split
    · rfl
    · omega
  rw [own, flushed]
  simp only [pixelStepChunks, hpx, if_false, ne_eq, not_false_eq_true, true_or, or_true, and_true, none_left]
  rfl

/-- The chunks and the run of the chunk encoder are those of the rules (R125, R127, R128, R129). -/
theorem chunkEnc_eq_pixelStepChunks (h : e.k.toNat < e.n.toNat) (hrun : e.run.toNat ≤ 8223) :
    (chunkEnc e.prev px e.run (isLastPixel e) e.cache).chunks = (pixelStepChunks e px).1 ∧
      (chunkEnc e.prev px e.run (isLastPixel e) e.cache).run.toNat = (pixelStepChunks e px).2 := by
  by_cases hpx : px = e.prev
  · rw [pixelStepChunks_same hpx, hpx, chunkEnc_same e.prev _ e.cache hrun]
    simp only [isLastPixel_iff h]
    split
    · exact ⟨rfl, rfl⟩
    · exact ⟨rfl, by bv_omega⟩
  · rw [pixelStepChunks_other hpx, chunkEnc_other _ _ e.cache hpx]
    exact ⟨rfl, rfl⟩

end

/-- A pixel step writes the cache only where the pixel differs from the previous one and from its slot's (R129,
R130). -/
theorem chunkEnc_cache (prev px : Pixel) (run : BitVec 14) (last : Bool) (cache : Cache) :
    (chunkEnc prev px run last cache).cache =
      if px = prev ∨ cacheLookup cache (pixelHash px) = px then cache else cacheStore cache (pixelHash px) px := by
  by_cases hpx : px = prev
  · rw [if_pos (.inl hpx)]
    simp only [chunkEnc, if_pos hpx]
  · rw [chunkEnc_other run last cache hpx, encodePixel]
    by_cases hit : cacheLookup cache (pixelHash px) = px
    · rw [if_pos hit, if_pos (.inr hit)]
    · rw [if_neg hit, if_neg (not_or.mpr ⟨hpx, hit⟩)]

/-- Settles O37: the chunk encoder follows the rules, and its bytes, at most seven, are accepted. -/
theorem encoderPixelStep : Obligations.EncoderPixelStep := by
  intro s px accepts hp hrun hlt read
  generalize ho : chunkEnc s.enc.prev px s.enc.run (isLastPixel s.enc) s.enc.cache = o
  have few : o.bytes.length ≤ 7 := ho ▸ length_bytes_chunkEnc_le _ px _ _ hrun
  have held : pixIn s.enc = some px := by rw [pixIn, if_pos hlt, read]
  obtain ⟨chunks_eq, run_eq⟩ := chunkEnc_eq_pixelStepChunks (px := px) hlt hrun
  rw [ho] at chunks_eq run_eq
  have wrote := wrote_of_accepts accepts few
  refine ⟨_, encoderStep_of_accepts accepts few (encStep_of_pix hp held ho.symm), ⟨rfl, rfl⟩,
    ⟨rfl, rfl, rfl, rfl, rfl, rfl, rfl⟩, ?_, run_eq, rfl, rfl, ?_, rfl, ?_⟩
  · rw [← chunks_eq]
    exact ⟨wrote.out_eq, wrote.outcount_eq⟩
  · rw [← hp]
    rfl
  · rw [encAdvance_cache, ← ho]
    exact chunkEnc_cache _ _ _ _ _

/-! ### A sink that answers one of the step's bytes IOERR (R124, R177, R179) -/

/-- Once the first of two parts is accepted, the writes go on with the second. -/
theorem writeAll_append {part : List Byte} (rest : List Byte) : ∀ {e e1 : Encoder}, writeAll part e = .ok e1 →
    writeAll (part ++ rest) e = writeAll rest e1 := by
  induction part with
  | nil =>
    intro e e1 h
    cases h
    rfl
  | cons b part ih =>
    intro e e1 h
    rw [writeAll] at h
    rw [List.cons_append, writeAll]
    cases hb : outWrite b e with
    | ok e2 =>
      rw [hb] at h
      exact ih h
    | aborted => rw [hb] at h; cases h
    | tooLong => rw [hb] at h; cases h

/-- An IOERR at the write after `part` leaves the bytes of `part` accepted (R178, R179). -/
theorem writeAll_of_ioerr {e : Encoder} {part rest : List Byte} (more : rest ≠ [])
    (room : e.outcount.toNat + part.length < 2 ^ 64) (fails : e.sinkFail = some (e.outcount.toNat + part.length)) :
    writeAll (part ++ rest) e = .aborted (encAbort .ioSink (accepted part e).outcount (accepted part e)) := by
  have before : writeAll part e = .ok (accepted part e) := writeAll_of_ok part e room fun j hj => by
    rw [fails, ne_eq, Option.some.injEq]
    omega
  have here : (accepted part e).sinkFail = some (accepted part e).outcount.toNat :=
    fails.trans (congrArg some (wrote_accepted room).outcount_eq.symm)
  obtain ⟨b, bs, rfl⟩ := List.exists_cons_of_ne_nil more
  rw [writeAll_append _ before, writeAll, outWrite, if_pos here]

/-- Settles O40: the step's bytes before the failing one are accepted, and the write of that one aborts the pass. -/
theorem sinkErrorAborts : Obligations.SinkErrorAborts := by
  intro s j running held hj room fails
  obtain ⟨finish, writes⟩ := encStep_eq_afterWrites running held
  have hlen : ((stepBytes s.enc).take j).length = j := List.length_take_of_le hj.le
  have more : (stepBytes s.enc).drop j ≠ [] := by simpa using hj
  have room' : s.enc.outcount.toNat + ((stepBytes s.enc).take j).length < 2 ^ 64 := by rwa [hlen]
  have aborts := writeAll_of_ioerr more room' (by rwa [hlen])
  rw [List.take_append_drop] at aborts
  rw [encoderStep, writes, aborts, afterWrites, onEncoder_next]
  refine ⟨_, rfl, ⟨rfl, rfl⟩, rfl, statusErr_ioSink, ?_, rfl⟩
  exact (wrote_accepted room').outcount_eq.trans (by rw [hlen])

end Sys2Proof.Machine
end

section
/-! PROOFS. Each chunk run by a decoder that is ready for it: the pixel it delivers and the repeats it leaves owed
(R155 to R161). -/

namespace Sys2Proof.Machine

/-- A well-formed chunk, run in a decoder that is ready for it, leaves what its delivery leaves (R151). -/
theorem exec_delivers {i : Instr} {s : State} (ready : ChunkReady s.dec) (hi : i.wf = true) :
    ∃ t, exec i s = .next t ∧
      Delivered s.dec t.dec (!skipsStore i) (chunkPixel s.dec i) (chunkRepeats s.dec i) :=
  ⟨_, exec_of_ready ready hi, delivered_afterDelivery _ _ _ _⟩

/-- Settles O10: INDEX delivers the slot's pixel and skips the store. -/
theorem indexTakesSlotPixel : Obligations.IndexTakesSlotPixel := by
  intro slot s ready
  obtain ⟨t, ht, delivered⟩ := exec_delivers (i := .index slot) ready rfl
  obtain ⟨-, no_repeats, -⟩ := ready
  exact ⟨t, ht, no_repeats ▸ delivered⟩

/-! ### Runs (R156, R157) -/

/-- The run chunk of `count` delivers the current pixel and leaves one repeat fewer than `count` owed. -/
theorem exec_emitRun {count : Nat} {s : State} (h1 : 1 ≤ count) (h2 : count ≤ 8224) (ready : ChunkReady s.dec) :
    ∃ t, exec (emitRun count) s = .next t ∧ Delivered s.dec t.dec true s.dec.px t.dec.run ∧
      t.dec.run.toNat = count - 1 := by
  obtain ⟨hwf, stores, same_pixel, repeats⟩ := emitRun_spec h1 h2 s.dec
  obtain ⟨t, ht, delivered⟩ := exec_delivers ready hwf
  have hrun := delivered.run_eq
  rw [stores, same_pixel, ← hrun] at delivered
  exact ⟨t, ht, delivered, hrun ▸ repeats⟩

/-- Settles O11: RUN_S is the run chunk of a count up to 32. -/
theorem shortRunRepeatsPixel : Obligations.ShortRunRepeatsPixel := by
  intro count s h1 h2 ready
  have short : emitRun count = .runS count := if_pos (Nat.lt_succ_of_le h2)
  exact short ▸ exec_emitRun h1 (h2.trans (by decide)) ready

/-- Settles O12: RUN_L is the run chunk of a count from 33 on. -/
theorem longRunRepeatsPixel : Obligations.LongRunRepeatsPixel := by
  intro count s h1 h2 ready
  have long : emitRun count = .runL count := if_neg (Nat.not_lt.mpr h1)
  exact long ▸ exec_emitRun (le_trans (by decide) h1) h2 ready

/-! ### Diffs and literals (R158 to R161) -/

/-- A chunk that stores its pixel and is no run delivers that pixel, with no repeats owed. -/
theorem exec_stores {i : Instr} {s : State} (ready : ChunkReady s.dec) (hi : i.wf = true)
    (stores : skipsStore i = false) (no_run : chunkRepeats s.dec i = s.dec.run) :
    ∃ t, exec i s = .next t ∧ Delivered s.dec t.dec true t.dec.px 0 ∧ t.dec.px = chunkPixel s.dec i := by
  obtain ⟨t, ht, delivered⟩ := exec_delivers ready hi
  obtain ⟨-, no_repeats, -⟩ := ready
  have hpx := delivered.px_eq
  rw [stores, no_run, no_repeats, ← hpx] at delivered
  exact ⟨t, ht, delivered, hpx⟩

/-- A channel plus a delta, in integer arithmetic (R205). -/
theorem toNat_addDelta (x : Byte) (d : Int) : ((addDelta x d).toNat : Int) = (x.toNat + d) % 256 := by
  rw [addDelta, wrap8, BitVec.toNat_ofInt]
  omega

/-- The two diff chunks that keep alpha (R158, R159). -/
theorem exec_diff_keeps_alpha {i : Instr} {dr dg db : Int} {s : State} (hi : i = .diff1 dr dg db ∨ i = .diff2 dr dg db)
    (hwf : i.wf = true) (ready : ChunkReady s.dec) :
    ∃ t, exec i s = .next t ∧ Delivered s.dec t.dec true t.dec.px 0 ∧
      (t.dec.px.r.toNat : Int) = (s.dec.px.r.toNat + dr) % 256 ∧
      (t.dec.px.g.toNat : Int) = (s.dec.px.g.toNat + dg) % 256 ∧
      (t.dec.px.b.toNat : Int) = (s.dec.px.b.toNat + db) % 256 ∧ t.dec.px.a = s.dec.px.a := by
  have meaning : skipsStore i = false ∧ chunkRepeats s.dec i = s.dec.run ∧
      chunkPixel s.dec i = { addDeltas s.dec.px dr dg db 0 with a := s.dec.px.a } := by
    rcases hi with rfl | rfl <;> exact ⟨rfl, rfl, rfl⟩
  obtain ⟨stores, no_run, sum⟩ := meaning
  obtain ⟨t, ht, delivered, hpx⟩ := exec_stores ready hwf stores no_run
  refine ⟨t, ht, delivered, ?_⟩
  rw [hpx, sum]
  exact ⟨toNat_addDelta _ dr, toNat_addDelta _ dg, toNat_addDelta _ db, rfl⟩

/-- Settles O13: DIFF1 adds to r, g and b and keeps alpha. -/
theorem diff1AddsDeltas : Obligations.Diff1AddsDeltas := fun _ _ _ _ => exec_diff_keeps_alpha (.inl rfl)

/-- Settles O14: DIFF2 does the same with its own ranges. -/
theorem diff2AddsDeltas : Obligations.Diff2AddsDeltas := fun _ _ _ _ => exec_diff_keeps_alpha (.inr rfl)

/-- Settles O15: DIFF3 adds its deltas to all four channels. -/
theorem diff3AddsDeltas : Obligations.Diff3AddsDeltas := by
  intro dr dg db da s hwf ready
  obtain ⟨t, ht, delivered, hpx⟩ := exec_stores ready hwf rfl rfl
  refine ⟨t, ht, delivered, ?_⟩
  rw [hpx]
  exact ⟨toNat_addDelta _ dr, toNat_addDelta _ dg, toNat_addDelta _ db, toNat_addDelta _ da⟩

/-- Settles O16: LIT replaces each channel that is present. -/
theorem literalReplacesChannels : Obligations.LiteralReplacesChannels := by
  intro r g b a s ready
  obtain ⟨t, ht, delivered, hpx⟩ := exec_stores (i := .lit r g b a) ready rfl rfl rfl
  have present : ∀ (c : Option Byte) (old : Byte), ∀ x, c = some x → c.getD old = x := by
    rintro c old x rfl
    rfl
  have absent : ∀ (c : Option Byte) (old : Byte), c = none → c.getD old = old := by
    rintro c old rfl
    rfl
  refine ⟨t, ht, delivered, ?_⟩
  rw [hpx]
  exact ⟨present r _, absent r _, present g _, absent g _, present b _, absent b _, present a _, absent a _⟩

end Sys2Proof.Machine
end

section
/-! PROOFS. The decoder's steps in its pixel phase: a chunk fetched from the stream (R149, R153, R154), a run that
continues (R165), the end of the input (R164) and an IOERR at a read (R177 to R179); and D.start (R148). -/

namespace Sys2Proof.Machine

/-! ### The operand bytes of a chunk -/

/-- The operand reads take the bytes that the host answers, and go on from there. -/
theorem readOperands_of_answered (more : Nat) (bytes : List Byte) : ∀ {d : Decoder}, Answered d bytes →
    readOperands (bytes.length + more) d =
      bytes.foldr ReadMany.cons (readOperands more (consumed bytes.length d)) := by
  induction bytes with
  | nil => exact fun {d} _ => by rw [List.length_nil, Nat.zero_add, consumed_zero, List.foldr_nil]
  | cons b bytes ih =>
    intro d h
    rw [List.length_cons, Nat.add_right_comm, readOperands, h.inRead_eq]
    dsimp only
    rw [ih h.consume_one, consumed_consumed, Nat.add_comm 1, List.foldr_cons]

theorem foldr_readMany_cons_append (bytes later : List Byte) (d : Decoder) :
    bytes.foldr ReadMany.cons (.ok later d) = .ok (bytes ++ later) d := by
  induction bytes with
  | nil => rfl
  | cons b bytes ih => rw [List.foldr_cons, ih, ReadMany.cons, List.cons_append]

/-- From the first read answered EOI on, every operand byte reads 0x00 (R154). -/
theorem readOperands_of_eoi (count : Nat) : ∀ {d : Decoder}, sourceAnswer d = .eoi →
    readOperands (count + 1) d = .ok (List.replicate (count + 1) 0x00) { d with ended := true } := by
  induction count with
  | zero =>
    intro d h
    rw [readOperands, inRead_of_eoi h]
    rfl
  | succ count ih =>
    intro d h
    have still : sourceAnswer { d with ended := true } = .eoi := (sourceAnswer_eoi_iff _).mpr (.inl rfl)
    rw [readOperands, inRead_of_eoi h]
    dsimp only
    rw [ih still]
    rfl

theorem readOperands_of_ioerr {d : Decoder} (h : sourceAnswer d = .ioerr) (more : Nat) :
    readOperands (more + 1) d = .aborted (decAbort .ioSource d.pos d) := by
  rw [readOperands, inRead_of_ioerr h]

/-! ### The fetch -/

section
variable {d d' : Decoder} {b0 : Byte} {ops : List Byte} {more : Nat}

/-- The reads of a chunk whose tag byte and first operand bytes the host answers. -/
theorem reads_of_answered (h : Answered d (b0 :: ops)) (hl : operandCount b0 = ops.length + more) :
    inRead d = .byte b0 (consumed 1 d) ∧ readOperands (operandCount b0) (consumed 1 d) =
      ops.foldr ReadMany.cons (readOperands more (consumed (b0 :: ops).length d)) := by
  rw [hl, readOperands_of_answered more ops h.consume_one, consumed_consumed, Nat.add_comm 1]
  exact ⟨h.inRead_eq, rfl⟩

/-- The other reads give the other operand bytes: the fetch is of the chunk they make (R153). -/
theorem fetch_of_operands {later : List Byte} (h : Answered d (b0 :: ops)) (hl : operandCount b0 = ops.length + more)
    (hr : readOperands more (consumed (b0 :: ops).length d) = .ok later d') :
    fetch d = .chunk (decodeChunk b0 (ops ++ later)) d' := by
  obtain ⟨tag, operands⟩ := reads_of_answered h hl
  rw [hr, foldr_readMany_cons_append] at operands
  rw [fetch, tag]
  dsimp only
  rw [operands]

/-- One of the other reads aborts, and so does the fetch (R149). -/
theorem fetch_of_operand_aborted (h : Answered d (b0 :: ops)) (hl : operandCount b0 = ops.length + more)
    (hr : readOperands more (consumed (b0 :: ops).length d) = .aborted d') : fetch d = .aborted d' := by
  obtain ⟨tag, operands⟩ := reads_of_answered h hl
  rw [hr, foldr_readMany_cons_aborted] at operands
  rw [fetch, tag]
  dsimp only
  rw [operands]

theorem fetch_of_eoi (h : sourceAnswer d = .eoi) : fetch d = .endOfInput { d with ended := true } := by
  rw [fetch, inRead_of_eoi h]

theorem fetch_of_ioerr (h : sourceAnswer d = .ioerr) : fetch d = .aborted (decAbort .ioSource d.pos d) := by
  rw [fetch, inRead_of_ioerr h]

end

/-! ### The pixel step in the machine -/

section
variable {s : State} {d : Decoder}

theorem step_of_decoderMoves (moves : DecoderMoves s) : step s = decPixelStep s := by
  obtain ⟨hs, hp⟩ := moves
  rw [step_of_script_nil hs, if_pos (by rw [hp]; decide), decoderStep, hp]

/-- A fetched chunk runs (R153). -/
theorem step_of_chunk {i : Instr} (moves : DecoderMoves s) (hr : s.dec.run = 0) (hf : fetch s.dec = .chunk i d) :
    step s = exec i { s with dec := d } := by
  rw [step_of_decoderMoves moves, decPixelStep, if_neg (not_not_intro hr), hf]

/-- An IOERR in the fetch ends the pass with its STATUS word and ERR_POS (R178). -/
theorem step_of_fetch_aborted (moves : DecoderMoves s) (hr : s.dec.run = 0) (ho : ReadsOnly s.dec d)
    (hf : fetch s.dec = .aborted (decAbort .ioSource d.pos d)) :
    ∃ t, step s = .next t ∧ DecAborted s.dec t.dec 0x1C d.pos.toNat ∧ t.enc = s.enc := by
  refine ⟨{ s with dec := decAbort .ioSource d.pos d }, ?_, ⟨rfl, statusErr_ioSource, rfl, ?_, ?_⟩, rfl⟩
  · rw [step_of_decoderMoves moves, decPixelStep, if_neg (not_not_intro hr), hf]
  · rw [decAbort_grid, ho]
  · rw [decAbort_stream, ho]

/-- What a delivery leaves of a decoder, once its pixel and its repeats are chosen (R151, R152, R163). -/
theorem PixelChosen.delivered {d d' : Decoder} (chosen : PixelChosen d d') :
    Delivered d (afterDelivery false d') true d'.px d'.run ∧ DecKept d (afterDelivery false d') := by
  rw [chosen]
  exact ⟨{ delivered_afterDelivery false { d with pos := d'.pos, ended := d'.ended } d'.px d'.run with },
    { decKept_afterDelivery false { d with pos := d'.pos, ended := d'.ended } d'.px d'.run with }⟩

/-- A pixel step that delivers the pixel chosen in `d` leaves what `Delivered` and `DecKept` say (R151). -/
theorem step_of_delivery (moves : DecoderMoves s) (chosen : PixelChosen s.dec d)
    (hd : decPixel s.dec = .next (afterDelivery false d)) :
    ∃ t, step s = .next t ∧ Delivered s.dec t.dec true d.px d.run ∧ DecKept s.dec t.dec ∧ t.dec.pos = d.pos ∧
      t.dec.ended = d.ended ∧ t.enc = s.enc := by
  obtain ⟨delivered, kept⟩ := chosen.delivered
  have next : step s = .next { s with dec := afterDelivery false d } := by
    rw [step_of_decoderMoves moves, decPixelStep_eq_onDecoder, hd, onDecoder_next]
  exact ⟨_, next, delivered, kept, afterDelivery_pos _ _, afterDelivery_ended _ _, rfl⟩

end

/-- Settles O19: the bytes of a chunk that decodes are its encoding, and the fetch takes them all. -/
theorem stepRunsDecodedChunk : Obligations.StepRunsDecodedChunk := by
  intro s i rest moves hr going hdec room unfailing
  obtain ⟨b0, ops, held, hlen, rfl⟩ := decode_eq_ok_iff.mp hdec
  rw [encode_decodeChunk hlen] at room unfailing ⊢
  have answered : Answered s.dec (b0 :: ops) := ⟨going, held ▸ List.prefix_append (b0 :: ops) rest, room, unfailing⟩
  have fetched := fetch_of_operands (more := 0) answered hlen.symm rfl
  rw [List.append_nil] at fetched
  exact step_of_chunk moves hr fetched

/-- Settles O20: the bytes up to the end of the input are read, and the next read answers EOI. -/
theorem missingOperandsReadZero : Obligations.MissingOperandsReadZero := by
  intro s b0 ops moves hr going held short room unfailing
  rw [tagLength_eq] at short ⊢
  obtain ⟨more, hmore⟩ := Nat.exists_eq_add_of_lt (show ops.length < operandCount b0 by omega)
  have answered : Answered s.dec (b0 :: ops) :=
    ⟨going, held ▸ List.prefix_rfl, room, fun j hj => unfailing j (Nat.le_of_lt hj)⟩
  have hpos : (consumed (b0 :: ops).length s.dec).pos.toNat = s.dec.pos.toNat + (ops.length + 1) :=
    toNat_consumed_pos room
  have hl := congrArg List.length held
  rw [List.length_drop, List.length_cons] at hl
  have all_read : s.dec.stream.length ≤ (consumed (b0 :: ops).length s.dec).pos.toNat := by omega
  have eoi : sourceAnswer (consumed (b0 :: ops).length s.dec) = .eoi :=
    (sourceAnswer_eoi_iff _).mpr (.inr ⟨hpos ▸ unfailing _ le_rfl, all_read⟩)
  have fetched := fetch_of_operands answered hmore (readOperands_of_eoi more eoi)
  rw [show 1 + operandCount b0 - 1 - ops.length = more + 1 by omega]
  exact step_of_chunk moves hr fetched

/-- Settles O21: the step delivers without a fetch. -/
theorem runContinuation : Obligations.RunContinuation := fun s moves owed left =>
  step_of_delivery (d := { s.dec with run := s.dec.run - 1 }) moves rfl (decPixel_of_owed owed left)

/-- Settles O22: the read of the tag byte answers EOI, now or as it did before. -/
theorem endOfInputRepeatsPixel : Obligations.EndOfInputRepeatsPixel := by
  intro s moves hr left finished
  have eoi : sourceAnswer s.dec = .eoi := (sourceAnswer_eoi_iff s.dec).mpr (finished.imp_right And.symm)
  have delivers : decPixel s.dec = .next (afterDelivery false { s.dec with ended := true }) := by
    rw [decPixel, if_neg (not_not_intro hr), fetch_of_eoi eoi]
    exact deliver_of_lt false left
  exact hr ▸ step_of_delivery (d := { s.dec with ended := true }) moves rfl delivers

/-- Settles O23: the read that fails is that of the tag byte, or it is an operand's and the bytes before it are read. -/
theorem sourceErrorAborts : Obligations.SourceErrorAborts := by
  intro s j b0 ops moves hr going fails room place
  cases j with
  | zero =>
    have ioerr : sourceAnswer s.dec = .ioerr := (sourceAnswer_ioerr_iff s.dec).mpr ⟨going, fails⟩
    exact step_of_fetch_aborted moves hr (.refl s.dec) (fetch_of_ioerr ioerr)
  | succ n =>
    obtain ⟨held, operand, reached⟩ := place.resolve_left (Nat.succ_ne_zero n)
    rw [tagLength_eq] at operand
    have hlen : (ops.take n).length = n := List.length_take_of_le (Nat.le_of_succ_le_succ reached)
    have answered : Answered s.dec (b0 :: ops.take n) := by
      refine ⟨going, held ▸ List.cons_prefix_cons.mpr ⟨rfl, List.take_prefix n ops⟩, ?_, fun i hi => ?_⟩
      · rwa [List.length_cons, hlen]
      · rw [List.length_cons, hlen] at hi
        rw [fails, ne_eq, Option.some.injEq]
        omega
    have hpos : (consumed (b0 :: ops.take n).length s.dec).pos.toNat = s.dec.pos.toNat + (n + 1) := by
      rw [toNat_consumed_pos answered.room, List.length_cons, hlen]
    have ioerr : sourceAnswer (consumed (b0 :: ops.take n).length s.dec) = .ioerr :=
      (sourceAnswer_ioerr_iff _).mpr ⟨going, hpos ▸ fails⟩
    obtain ⟨more, hmore⟩ := Nat.exists_eq_add_of_lt (show n < operandCount b0 by omega)
    have aborted := fetch_of_operand_aborted answered (more := more + 1) (by rw [hlen]; exact hmore)
      (readOperands_of_ioerr ioerr more)
    exact hpos ▸ step_of_fetch_aborted moves hr (readsOnly_consumed _ s.dec) aborted

/-! ### The pass start (R148) -/

/-- Settles O24: the start looks at the phase alone. -/
theorem decoderStart : Obligations.DecoderStart := by
  intro s rest hs
  have start : step s = onDecoder { s with script := rest } (decStart s.dec) := step_of_script_cons hs
  rw [start, decStart]
  refine ⟨fun idle => ?_, fun running => ?_⟩
  · rw [if_pos idle]
    exact ⟨_, onDecoder_next _ _, rfl, rfl, rfl, rfl, rfl, rfl, rfl, fun i => by simp [cacheInit, transparent],
      statusBusy_eq, rfl⟩
  · rw [if_neg running, onDecoder_refused]

end Sys2Proof.Machine
end

section
/-! PROOFS. What any step but a reset does to each engine: the host drives its ports, starts it, or it takes a step of its
own; so an IDLE engine waits (R191, R197). -/

namespace Sys2Proof.Machine

/-! ### An IDLE engine's own step -/

theorem encStep_of_idle {e : Encoder} (h : e.phase = .idle) : encStep e = .next e := by
  rw [encStep, h]

theorem decStep_of_idle {d : Decoder} (h : d.phase = .idle) : decStep d = .next d := by
  rw [decStep, h]

/-! ### What the host drives (R26, R27, R199) -/

/-- `e'` is `e` but for what the host drives and supplies. -/
def EncDriven (e e' : Encoder) : Prop :=
  e' = { e with cfgWidth := e'.cfgWidth, cfgHeight := e'.cfgHeight, grid := e'.grid, sinkFail := e'.sinkFail }

/-- `d'` is `d` but for what the host drives and supplies. -/
def DecDriven (d d' : Decoder) : Prop :=
  d' = { d with cfgMode := d'.cfgMode, stream := d'.stream, srcFail := d'.srcFail }

theorem EncDriven.refl (e : Encoder) : EncDriven e e := rfl

theorem DecDriven.refl (d : Decoder) : DecDriven d d := rfl

/-- The phase, STATUS and ERR_POS are not the host's to drive. -/
theorem EncDriven.phase_status_errPos {e e' : Encoder} (h : EncDriven e e') :
    e'.phase = e.phase ∧ e'.status = e.status ∧ e'.errPos = e.errPos := by
  rw [h]
  exact ⟨rfl, rfl, rfl⟩

theorem DecDriven.phase_status_errPos {d d' : Decoder} (h : DecDriven d d') :
    d'.phase = d.phase ∧ d'.status = d.status ∧ d'.errPos = d.errPos := by
  rw [h]
  exact ⟨rfl, rfl, rfl⟩

theorem encDriven_of_encSupply {pixels : List (BitVec 32)} {e e' : Encoder} (h : encSupply pixels e = .next e') :
    EncDriven e e' := by
  rw [encSupply] at h
  split at h
  · cases h
    rfl
  · cases h

theorem decDriven_of_decSupply {bytes : List Byte} {d d' : Decoder} (h : decSupply bytes d = .next d') :
    DecDriven d d' := by
  rw [decSupply] at h
  split at h
  · cases h
    rfl
  · cases h

/-! ### What a step does to each engine -/

/-- What can happen to the encoder between two states of the machine, where `starts` says that E.start is raised. -/
def EncChange (starts : Prop) (e e' : Encoder) : Prop :=
  EncDriven e e' ∨ (starts ∧ encStart e = .next e') ∨ encStep e = .next e'

/-- What can happen to the decoder between two states of the machine, where `starts` says that D.start is raised. -/
def DecChange (starts : Prop) (d d' : Decoder) : Prop :=
  DecDriven d d' ∨ (starts ∧ decStart d = .next d') ∨ decStep d = .next d'

section
variable {starts starts' : Prop}

theorem EncChange.refl (e : Encoder) : EncChange starts e e := .inl (.refl e)

theorem DecChange.refl (d : Decoder) : DecChange starts d d := .inl (.refl d)

theorem EncChange.mono {e e' : Encoder} (h : EncChange starts e e') (hs : starts → starts') : EncChange starts' e e' :=
  h.imp_right (Or.imp_left (And.imp_left hs))

theorem DecChange.mono {d d' : Decoder} (h : DecChange starts d d') (hs : starts → starts') : DecChange starts' d d' :=
  h.imp_right (Or.imp_left (And.imp_left hs))

/-- An IDLE engine that is not started waits: its own step changes nothing (R191). -/
theorem EncChange.driven_of_idle {e e' : Encoder} (h : EncChange starts e e') (idle : e.phase = .idle)
    (hs : ¬starts) : EncDriven e e' := by
  rcases h with driven | ⟨started, -⟩ | stepped
  · exact driven
  · exact absurd started hs
  · rw [encStep_of_idle idle] at stepped
    cases stepped
    exact .refl e

theorem DecChange.driven_of_idle {d d' : Decoder} (h : DecChange starts d d') (idle : d.phase = .idle)
    (hs : ¬starts) : DecDriven d d' := by
  rcases h with driven | ⟨started, -⟩ | stepped
  · exact driven
  · exact absurd started hs
  · rw [decStep_of_idle idle] at stepped
    cases stepped
    exact .refl d

end

/-- One engine's turn is its own step and leaves the other engine alone. -/
theorem engineTurn_changes {engine : Engine} {s t : State} (h : engineTurn engine s = .next t) (startsE startsD : Prop) :
    EncChange startsE s.enc t.enc ∧ DecChange startsD s.dec t.dec := by
  cases engine with
  | encoder =>
    obtain ⟨e, stepped, rfl⟩ := (onEncoder_next_iff s t _).mp h
    exact ⟨.inr (.inr stepped), .refl s.dec⟩
  | decoder =>
    obtain ⟨d, stepped, rfl⟩ := (onDecoder_next_iff s t _).mp ((decoderStep_eq_onDecoder s).symm.trans h)
    exact ⟨.refl s.enc, .inr (.inr stepped)⟩

/-- Every host action but a reset drives one engine's ports, starts one engine, or lets one take its step. -/
theorem hostAction_changes {a : HostAction} {s t : State} (h : hostAction a s = .next t)
    (noReset : ∀ written, a ≠ .reset written) :
    EncChange (a = .startEncoder) s.enc t.enc ∧ DecChange (a = .startDecoder) s.dec t.dec := by
  cases a with
  | reset written => exact absurd rfl (noReset written)
  | setWidth | setHeight | sinkFails =>
    cases h
    exact ⟨.inl rfl, .refl s.dec⟩
  | setMode | sourceFails =>
    cases h
    exact ⟨.refl s.enc, .inl rfl⟩
  | supplyGrid pixels =>
    obtain ⟨e, supplied, rfl⟩ := (onEncoder_next_iff s t _).mp h
    exact ⟨.inl (encDriven_of_encSupply supplied), .refl s.dec⟩
  | supplyStream bytes =>
    obtain ⟨d, supplied, rfl⟩ := (onDecoder_next_iff s t _).mp h
    exact ⟨.refl s.enc, .inl (decDriven_of_decSupply supplied)⟩
  | startEncoder =>
    obtain ⟨e, started, rfl⟩ := (onEncoder_next_iff s t _).mp h
    exact ⟨.inr (.inl ⟨rfl, started⟩), .refl s.dec⟩
  | startDecoder =>
    obtain ⟨d, started, rfl⟩ := (onDecoder_next_iff s t _).mp h
    exact ⟨.refl s.enc, .inr (.inl ⟨rfl, started⟩)⟩
  | turn engine => exact engineTurn_changes h _ _

/-- Every step but a reset drives an engine's ports, starts it, or is its own step, or leaves it as it is. -/
theorem step_changes {s t : State} (h : step s = .next t) (noReset : ∀ written rest, s.script ≠ .reset written :: rest) :
    EncChange (∃ rest, s.script = .startEncoder :: rest) s.enc t.enc ∧
      DecChange (∃ rest, s.script = .startDecoder :: rest) s.dec t.dec := by
  cases hs : s.script with
  | nil =>
    rw [step_of_script_nil hs] at h
    split at h
    · exact engineTurn_changes (engine := .decoder) h _ _
    · exact engineTurn_changes (engine := .encoder) h _ _
  | cons a rest =>
    rw [step_of_script_cons hs] at h
    obtain ⟨enc, dec⟩ := hostAction_changes h fun written ha => noReset written rest (ha ▸ hs)
    exact ⟨enc.mono fun ha => ⟨rest, ha ▸ rfl⟩, dec.mono fun ha => ⟨rest, ha ▸ rfl⟩⟩

/-- Settles O56: with no host action the encoder takes its turn, and in IDLE it waits; in every other step an IDLE engine
can only have its ports driven. -/
theorem idleEnginesWait : Obligations.IdleEnginesWait := by
  refine ⟨fun s hs encIdle decIdle => ?_, fun s t h noReset => ?_⟩
  · rw [step_of_script_nil hs, if_neg (not_not_intro decIdle), encoderStep, encStep_of_idle encIdle, onEncoder_next]
  · obtain ⟨enc, dec⟩ := step_changes h noReset
    refine ⟨fun idle noStart => ?_, fun idle noStart => ?_⟩
    · exact idle ▸ (enc.driven_of_idle idle (not_exists.mpr noStart)).phase_status_errPos
    · exact idle ▸ (dec.driven_of_idle idle (not_exists.mpr noStart)).phase_status_errPos

end Sys2Proof.Machine
end

section
/-! PROOFS. A hardware reset, between or inside steps (R33, R196), and the configuration ports, which no step of an
engine reads: they are sampled at a start (R26, R27, R202). -/

namespace Sys2Proof.Machine

/-! ### A hardware reset (R196) -/

/-- A reset of the machine is a reset of each engine. -/
theorem step_reset {s : State} {written : Nat} {rest : List HostAction} {e : Encoder}
    (hs : s.script = .reset written :: rest) (he : encResetDuring written s.enc = .next (encReset e)) :
    step s = .next { enc := encReset e, dec := decReset s.dec, script := rest } := by
  rw [step_of_script_cons hs, hostAction, hardReset, he, onEncoder_next]

/-- A reset strikes an encoder that has written, of the bytes before the reset, all if the host answers none of them
IOERR, else those before its IOERR (R179, R196). -/
theorem encResetDuring_next {e : Encoder} {written : Nat} {bytes : List Byte} (hb : bytes = (stepBytes e).take written)
    (room : e.outcount.toNat + bytes.length < 2 ^ 64) :
    ∃ (struck : Encoder) (count : Nat), encResetDuring written e = .next (encReset struck) ∧
      struck.out = e.out ++ bytes.take count ∧
      ((∀ j, j < bytes.length → e.sinkFail ≠ some (e.outcount.toNat + j)) → count = bytes.length) ∧
      (∀ j, j < bytes.length → e.sinkFail = some (e.outcount.toNat + j) → count = j) := by
  rw [encResetDuring, ← hb]
  by_cases fails : ∃ j, j < bytes.length ∧ e.sinkFail = some (e.outcount.toNat + j)
  · obtain ⟨j, hj, hf⟩ := fails
    have hlen : (bytes.take j).length = j := List.length_take_of_le hj.le
    have aborts := writeAll_of_ioerr (e := e) (part := bytes.take j) (rest := bytes.drop j) (by simpa using hj)
      (by omega) (by rwa [hlen])
    rw [List.take_append_drop] at aborts
    rw [aborts]
    refine ⟨_, j, rfl, rfl, fun none_fails => absurd hf (none_fails j hj), fun i _ hi => ?_⟩
    rw [hf, Option.some.injEq] at hi
    omega
  · have none_fails : ∀ j, j < bytes.length → e.sinkFail ≠ some (e.outcount.toNat + j) :=
      fun j hj hf => fails ⟨j, hj, hf⟩
    rw [writeAll_of_ok bytes e room none_fails]
    refine ⟨_, bytes.length, rfl, ?_, fun _ => rfl, fun j hj hf => absurd hf (none_fails j hj)⟩
    rw [List.take_length]
    rfl

/-- Settles O48: a reset keeps the output stream and the output grid, so the stream is that of the encoder it
strikes. -/
theorem hardwareReset : Obligations.HardwareReset := by
  intro s written rest hs bytes room
  obtain ⟨struck, count, reset, out, all_accepted, ioerr⟩ := encResetDuring_next rfl room
  exact ⟨_, count, step_reset hs reset, rfl, rfl, rfl, rfl, rfl, rfl, out, all_accepted, ioerr⟩

/-- A change to what a next state holds; a stop stays as it is. -/
def mapOutcome {σ : Type} (f : σ → σ) : Host.Outcome σ Fault Refusal → Host.Outcome σ Fault Refusal
  | .next t => .next (f t)
  | .fault r => .fault r
  | .refused r => .refused r

theorem mapOutcome_next_iff {σ : Type} (f : σ → σ) (o : Host.Outcome σ Fault Refusal) (t : σ) :
    mapOutcome f o = .next t ↔ ∃ u, o = .next u ∧ t = f u := by
  cases o <;> simp [mapOutcome, eq_comm]

/-! ### The encoder's configuration ports (R26) -/

/-- `e` with these values on E.CFG_WIDTH and E.CFG_HEIGHT. -/
abbrev Encoder.withSize (w h : BitVec 32) (e : Encoder) : Encoder := { e with cfgWidth := w, cfgHeight := h }

/-- A change to the encoder after some writes. -/
def WriteResult.map (f : Encoder → Encoder) : WriteResult → WriteResult
  | .ok e => .ok (f e)
  | .aborted e => .aborted (f e)
  | .tooLong => .tooLong

section
variable (w h : BitVec 32) (e : Encoder)

theorem outWrite_withSize (b : Byte) : outWrite b (e.withSize w h) = (outWrite b e).map (.withSize w h) := by
  rw [outWrite, outWrite]
  split
  · rfl
  · split <;> rfl

theorem writeAll_withSize (bytes : List Byte) :
    writeAll bytes (e.withSize w h) = (writeAll bytes e).map (.withSize w h) := by
  induction bytes generalizing e with
  | nil => rfl
  | cons b bytes ih =>
    rw [writeAll, writeAll, outWrite_withSize]
    cases outWrite b e with
    | ok e' => exact ih e'
    | aborted => rfl
    | tooLong => rfl

/-- A step that does not touch the ports when it finishes takes them along. -/
theorem afterWrites_withSize {finish : Encoder → Encoder} (bytes : List Byte)
    (commutes : ∀ e', finish (e'.withSize w h) = (finish e').withSize w h) :
    afterWrites finish (writeAll bytes (e.withSize w h)) =
      mapOutcome (.withSize w h) (afterWrites finish (writeAll bytes e)) := by
  rw [writeAll_withSize]
  cases writeAll bytes e with
  | ok e' => exact congrArg Host.Outcome.next (commutes e')
  | aborted => rfl
  | tooLong => rfl

/-- The encoder's step neither reads nor writes its configuration ports. -/
theorem encStep_withSize : encStep (e.withSize w h) = mapOutcome (.withSize w h) (encStep e) := by
  cases hp : e.phase with
  | idle => rw [encStep_of_idle hp, encStep_of_idle (e := e.withSize w h) hp]; rfl
  | hdr =>
    rw [encStep_of_hdr hp, encStep_of_hdr (e := e.withSize w h) hp]
    exact afterWrites_withSize w h e _ fun _ => rfl
  | pix =>
    have same : nextChunks (e.withSize w h) = nextChunks e := rfl
    rw [encStep, encStep, hp]
    dsimp only
    rw [encPixelStep, encPixelStep, same]
    cases nextChunks e with
    | none => rfl
    | some pixel =>
      obtain ⟨_, o⟩ := pixel
      exact afterWrites_withSize w h e o.bytes fun _ => rfl
  | pad =>
    rw [encStep_of_pad hp, encStep_of_pad (e := e.withSize w h) hp]
    exact afterWrites_withSize w h e _ fun _ => rfl

end

/-! ### The decoder's configuration port (R27) -/

/-- `d` with this value on D.CFG_MODE. -/
abbrev Decoder.withMode (m : BitVec 1) (d : Decoder) : Decoder := { d with cfgMode := m }

/-- A change to the decoder after a read. -/
def ReadResult.map (f : Decoder → Decoder) : ReadResult → ReadResult
  | .byte b d => .byte b (f d)
  | .eoi d => .eoi (f d)
  | .aborted d => .aborted (f d)
  | .tooLong => .tooLong

/-- A change to the decoder after several reads. -/
def ReadMany.map (f : Decoder → Decoder) : ReadMany → ReadMany
  | .ok bytes d => .ok bytes (f d)
  | .aborted d => .aborted (f d)
  | .tooLong => .tooLong

theorem ReadMany.cons_map (f : Decoder → Decoder) (b : Byte) (r : ReadMany) : (r.map f).cons b = (r.cons b).map f := by
  cases r <;> rfl

/-- A change to the decoder after the reads of a header. -/
def HeaderResult.map (f : Decoder → Decoder) : HeaderResult → HeaderResult
  | .ok header d => .ok header (f d)
  | .aborted d => .aborted (f d)
  | .tooLong => .tooLong

/-- A change to the decoder after a fetch. -/
def Fetch.map (f : Decoder → Decoder) : Fetch → Fetch
  | .chunk i d => .chunk i (f d)
  | .endOfInput d => .endOfInput (f d)
  | .aborted d => .aborted (f d)
  | .tooLong => .tooLong

section
variable (m : BitVec 1) (d : Decoder)

theorem inRead_withMode : inRead (d.withMode m) = (inRead d).map (.withMode m) := by
  have same : sourceAnswer (d.withMode m) = sourceAnswer d := rfl
  rw [inRead, inRead, same]
  cases sourceAnswer d with
  | byte => dsimp only; split <;> rfl
  | eoi => rfl
  | ioerr => rfl

theorem readOperands_withMode (count : Nat) :
    readOperands count (d.withMode m) = (readOperands count d).map (.withMode m) := by
  induction count generalizing d with
  | zero => rfl
  | succ count ih =>
    rw [readOperands, readOperands, inRead_withMode]
    cases inRead d with
    | byte b d' | eoi d' => exact (congrArg (ReadMany.cons _) (ih d')).trans (ReadMany.cons_map _ _ _)
    | aborted => rfl
    | tooLong => rfl

theorem readHeaderBytes_withMode (count : Nat) :
    readHeaderBytes count (d.withMode m) = (readHeaderBytes count d).map (.withMode m) := by
  induction count generalizing d with
  | zero => rfl
  | succ count ih =>
    rw [readHeaderBytes, readHeaderBytes, inRead_withMode]
    cases inRead d with
    | byte b d' => exact (congrArg (ReadMany.cons _) (ih d')).trans (ReadMany.cons_map _ _ _)
    | eoi => rfl
    | aborted => rfl
    | tooLong => rfl

theorem readHeader_withMode : readHeader (d.withMode m) = (readHeader d).map (.withMode m) := by
  rw [readHeader, readHeader, readHeaderBytes_withMode]
  cases readHeaderBytes headerLen d with
  | ok bytes d' => dsimp only [ReadMany.map]; split <;> rfl
  | aborted => rfl
  | tooLong => rfl

/-- What the header leads to is the pass's own mode, sampled at its start (R150). -/
theorem decAcceptHeader_withMode (header : Header) :
    decAcceptHeader header (d.withMode m) = (decAcceptHeader header d).withMode m := by
  rw [decAcceptHeader, decAcceptHeader]
  dsimp only
  split <;> rfl

theorem decHeaderStep_withMode : decHeaderStep (d.withMode m) = mapOutcome (.withMode m) (decHeaderStep d) := by
  rw [decHeaderStep, decHeaderStep, readHeader_withMode]
  cases readHeader d with
  | ok header d' => exact congrArg Host.Outcome.next (decAcceptHeader_withMode m d' header)
  | aborted => rfl
  | tooLong => rfl

theorem fetch_withMode : fetch (d.withMode m) = (fetch d).map (.withMode m) := by
  rw [fetch, fetch, inRead_withMode]
  cases inRead d with
  | byte b d' =>
    dsimp only [ReadResult.map]
    rw [readOperands_withMode]
    cases readOperands (operandCount b) d' <;> rfl
  | eoi => rfl
  | aborted => rfl
  | tooLong => rfl

theorem afterDelivery_withMode (fromIndex : Bool) :
    afterDelivery fromIndex (d.withMode m) = (afterDelivery fromIndex d).withMode m := by
  simp only [afterDelivery, completeIfDone]
  by_cases done : d.k + 1 = d.n
  · rw [if_pos done, if_pos done]
  · rw [if_neg done, if_neg done]

theorem deliver_withMode (fromIndex : Bool) :
    deliver fromIndex (d.withMode m) = mapOutcome (.withMode m) (deliver fromIndex d) := by
  rw [deliver, deliver]
  split
  · exact congrArg Host.Outcome.next (afterDelivery_withMode m d fromIndex)
  · rfl

theorem runChunk_withMode (i : Instr) : runChunk i (d.withMode m) = mapOutcome (.withMode m) (runChunk i d) := by
  have same_pixel : chunkPixel (d.withMode m) i = chunkPixel d i := by cases i <;> rfl
  have same_repeats : chunkRepeats (d.withMode m) i = chunkRepeats d i := by cases i <;> rfl
  rw [runChunk, runChunk, same_pixel, same_repeats]
  split
  · split
    · exact deliver_withMode m { d with px := chunkPixel d i, run := chunkRepeats d i } (skipsStore i)
    · rfl
  · rfl

theorem decPixel_withMode : decPixel (d.withMode m) = mapOutcome (.withMode m) (decPixel d) := by
  rw [decPixel, decPixel, fetch_withMode]
  split
  · exact deliver_withMode m { d with run := d.run - 1 } false
  · cases fetch d with
    | chunk i d' => exact runChunk_withMode m d' i
    | endOfInput d' => exact deliver_withMode m d' false
    | aborted => rfl
    | tooLong => rfl

/-- The decoder's step neither reads nor writes its configuration port. -/
theorem decStep_withMode : decStep (d.withMode m) = mapOutcome (.withMode m) (decStep d) := by
  cases hp : d.phase with
  | idle => rw [decStep_of_idle hp, decStep_of_idle (d := d.withMode m) hp]; rfl
  | hdr =>
    rw [decStep_of_hdr hp, decStep_of_hdr (d := d.withMode m) hp]
    exact decHeaderStep_withMode m d
  | pix =>
    rw [decStep_of_pix hp, decStep_of_pix (d := d.withMode m) hp]
    exact decPixel_withMode m d

end

/-- Settles O49: each engine's step carries the values on its ports along, whatever they are. -/
theorem configurationSampledAtStart : Obligations.ConfigurationSampledAtStart := by
  intro s rest w h m
  refine ⟨step_of_script_cons, step_of_script_cons, step_of_script_cons, fun t ht => ?_, fun t ht => ?_⟩
  · exact (mapOutcome_next_iff _ _ t).mp ((encStep_withSize w h s.enc).symm.trans ht)
  · rw [decoderStep_eq_onDecoder, decStep_withMode] at ht
    obtain ⟨d', stepped, rfl⟩ := (onDecoder_next_iff _ t _).mp ht
    obtain ⟨d, hd, rfl⟩ := (mapOutcome_next_iff _ _ d').mp stepped
    exact ⟨{ s with dec := d }, by rw [decoderStep_eq_onDecoder, hd, onDecoder_next], rfl⟩

end Sys2Proof.Machine
end

section
/-! PROOFS. The chunks of the spec's vectors, one of each kind (95_test_vectors.md). -/

namespace Sys2Proof.Machine

/-- The bytes of a chunk, with nothing after them, read back to it (R99). -/
theorem decode_of_encode_eq {i : Instr} {bytes : List Byte} (hwf : i.wf = true) (he : encode i = bytes) :
    decode bytes = .ok (i, []) := by
  rw [← he, ← List.append_nil (encode i)]
  exact decodeOfEncode i [] hwf

/-- Settles O7: each chunk is well formed and its encoding is the byte string beside it. -/
theorem specWordsDecode : Obligations.SpecWordsDecode := by
  refine ⟨?index, ?runS, ?runL, ?diff1, ?diff2, ?diff3, ?lit⟩
  all_goals exact decode_of_encode_eq (by decide) (by decide)

end Sys2Proof.Machine
end
